-- ==== Sys2Proof/Word.lean ====
section
/-! DEFINITION. The bit-vector types of the machine: the byte, the 16-bit word of the registers and of
offsets, and the 24-bit physical base of a table or segment (00_scope.md R6, R7). Physical addresses
themselves are plain natural numbers below 2^24. -/

namespace Sys2Proof

/-- The unit of addressing (20_memory.md R60). -/
abbrev Byte := BitVec 8

/-- A general, segment or status register, and an offset (10_state.md R20, R25, R27, R28). -/
abbrev Word := BitVec 16

/-- A 24-bit physical base: of a segment, or of a descriptor table (10_state.md R26, R39). -/
abbrev Base24 := BitVec 24

end Sys2Proof
end

