-- ==== Sys2Proof/Syntax.lean ====
section
/-! DEFINITION. The instructions: one constructor of `Instr` per row of spec/opcode_table.json, and the
operand forms of 30_encoding.md R91 to R95, R101. -/

namespace Sys2Proof

/-- The eight 16-bit general registers, in the order of their encoding numbers (10_state.md R22). -/
inductive Reg16 where
  | ax | cx | dx | bx | sp | bp | si | di
  deriving DecidableEq, Repr

/-- The byte halves of AX, CX, DX and BX, in the order of their encoding numbers (10_state.md R21, R22). -/
inductive Reg8 where
  | al | cl | dl | bl | ah | ch | dh | bh
  deriving DecidableEq, Repr

/-- The four segment registers, in the order of their encoding numbers (10_state.md R25). -/
inductive SegName where
  | es | cs | ss | ds
  deriving DecidableEq, Repr

/-- The eight register sums of the effective-address table, by `rm` (30_encoding.md R93). -/
inductive AddrRegs where
  | bxSi | bxDi | bpSi | bpDi | si | di | bp | bx
  deriving DecidableEq, Repr

/-- The displacement after the ModRM byte (30_encoding.md R94): none, one byte, two bytes. -/
inductive Disp where
  | none
  | d8 (b : Byte)
  | d16 (w : Word)
  deriving DecidableEq, Repr

/-- A memory operand (30_encoding.md R93): the direct address of mod = 00b, rm = 110b, or a sum of
registers and a displacement. -/
inductive MemOp where
  | direct (w : Word)
  | based (r : AddrRegs) (d : Disp)
  deriving DecidableEq, Repr

/-- The operand that mod and rm select (30_encoding.md R92). -/
inductive RM where
  | reg (r : Reg16)
  | mem (m : MemOp)
  deriving DecidableEq, Repr

/-- The instructions of the opcode table. Every one carries its segment-override byte, if it has one:
where there is no memory operand the override has no effect but on the length (30_encoding.md R101). -/
inductive Instr where
  /-- CLTS, `0F 06` (R121). -/
  | clts (ovr : Option SegName)
  /-- LGDT, `0F 01 /2` (R122). -/
  | lgdt (ovr : Option SegName) (rm : RM)
  /-- SGDT, `0F 01 /0` (R123). -/
  | sgdt (ovr : Option SegName) (rm : RM)
  /-- LIDT, `0F 01 /3` (R124). -/
  | lidt (ovr : Option SegName) (rm : RM)
  /-- SIDT, `0F 01 /1` (R125). -/
  | sidt (ovr : Option SegName) (rm : RM)
  /-- LLDT, `0F 00 /2` (R126). -/
  | lldt (ovr : Option SegName) (rm : RM)
  /-- SLDT, `0F 00 /0` (R127). -/
  | sldt (ovr : Option SegName) (rm : RM)
  /-- LMSW, `0F 01 /6` (R128). -/
  | lmsw (ovr : Option SegName) (rm : RM)
  /-- SMSW, `0F 01 /4` (R129). -/
  | smsw (ovr : Option SegName) (rm : RM)
  /-- LAR, `0F 02 /r`: `reg` is the destination, `rm` the selector (R141). -/
  | lar (ovr : Option SegName) (reg : Reg16) (rm : RM)
  /-- LSL, `0F 03 /r`: `reg` is the destination, `rm` the selector (R142). -/
  | lsl (ovr : Option SegName) (reg : Reg16) (rm : RM)
  /-- ARPL, `63 /r`: `rm` is the destination, `reg` the source (R144). -/
  | arpl (ovr : Option SegName) (reg : Reg16) (rm : RM)
  /-- VERR, `0F 00 /4` (R145). -/
  | verr (ovr : Option SegName) (rm : RM)
  /-- VERW, `0F 00 /5` (R146). -/
  | verw (ovr : Option SegName) (rm : RM)
  /-- WAIT, `9B` (R160). -/
  | wait (ovr : Option SegName)
  /-- ESC, `D8` to `DF`: `x` and `y` are the coprocessor's opcode bits, which the CPU does not interpret
  (R96, R161). -/
  | esc (ovr : Option SegName) (x y : BitVec 3) (rm : RM)
  deriving DecidableEq, Repr

end Sys2Proof
end

