-- ==== Sys2Proof/WellFormed.lean ====
section
/-! DEFINITION. Which instructions of `Instr` have an encoding: all but those with the operand [BP] without
a displacement, since mod = 00b, rm = 110b is the direct address (30_encoding.md R93; log 35). -/

namespace Sys2Proof

/-- [BP] needs a displacement: its row of the effective-address table has none in column mod = 00b (R93). -/
def MemOp.wf : MemOp → Bool
  | .based .bp .none => false
  | _ => true

def RM.wf : RM → Bool
  | .reg _ => true
  | .mem m => m.wf

/-- The instruction has an encoding. -/
def Instr.wf : Instr → Bool
  | .clts _ => true
  | .lgdt _ rm => rm.wf
  | .sgdt _ rm => rm.wf
  | .lidt _ rm => rm.wf
  | .sidt _ rm => rm.wf
  | .lldt _ rm => rm.wf
  | .sldt _ rm => rm.wf
  | .lmsw _ rm => rm.wf
  | .smsw _ rm => rm.wf
  | .lar _ _ rm => rm.wf
  | .lsl _ _ rm => rm.wf
  | .arpl _ _ rm => rm.wf
  | .verr _ rm => rm.wf
  | .verw _ rm => rm.wf
  | .wait _ => true
  | .esc _ _ _ rm => rm.wf

end Sys2Proof
end

