-- ==== Sys2Proof/Decode.lean ====
section
/-! DEFINITION. The decoder, total on any bytes and rejecting by name, and after it the encoder, both
written from 30_encoding.md R91 to R102 and opcode_table.json. -/

namespace Sys2Proof

/-- Why bytes are no instruction of the model. -/
inductive Reject where
  /-- An encoding outside the opcode table (R100): `refuse(OpcodeNotInScope)`. -/
  | opcodeNotInScope
  /-- LOCK, a repeat byte, or a second override byte (R101): `refuse(PrefixNotInScope)`. -/
  | prefixNotInScope
  /-- `0F 00 /1`, `/3`, `/6`, `/7`: UD in real address mode, refused in protected mode (R100, C11). -/
  | group0NotInScope
  deriving DecidableEq, Repr

/-- What the decoder answers on a list of bytes. -/
inductive Decoded where
  /-- The bytes begin with this instruction. -/
  | instr (i : Instr)
  /-- The bytes end inside an instruction. -/
  | needMore
  /-- The bytes begin with no instruction of the table. -/
  | reject (r : Reject)
  deriving DecidableEq, Repr

/-- General register numbers (10_state.md R22). -/
def Reg16.ofBits (b : BitVec 3) : Reg16 :=
  match b.toNat with
  | 0 => .ax | 1 => .cx | 2 => .dx | 3 => .bx | 4 => .sp | 5 => .bp | 6 => .si | _ => .di

/-- The register sum that `rm` selects (30_encoding.md R93). -/
def AddrRegs.ofBits (b : BitVec 3) : AddrRegs :=
  match b.toNat with
  | 0 => .bxSi | 1 => .bxDi | 2 => .bpSi | 3 => .bpDi | 4 => .si | 5 => .di | 6 => .bp | _ => .bx

/-- The segment-override bytes (30_encoding.md R95). -/
def SegName.ofOverride (b : Byte) : Option SegName :=
  if b = 0x26#8 then some .es
  else if b = 0x2E#8 then some .cs
  else if b = 0x36#8 then some .ss
  else if b = 0x3E#8 then some .ds
  else none

/-- ModRM bits 7:6 (30_encoding.md R92). -/
def modField (b : Byte) : BitVec 2 := b.extractLsb' 6 2

/-- ModRM bits 5:3 (30_encoding.md R92). -/
def regField (b : Byte) : BitVec 3 := b.extractLsb' 3 3

/-- ModRM bits 2:0 (30_encoding.md R92). -/
def rmField (b : Byte) : BitVec 3 := b.extractLsb' 0 3

/-- The operand of a ModRM byte and the displacement bytes after it (30_encoding.md R92 to R94); none where
the displacement is cut short. -/
def decodeRM (modrm : Byte) (rest : List Byte) : Option RM :=
  if modField modrm = 0#2 then
    if rmField modrm = 6#3 then
      match rest with
      | b0 :: b1 :: _ => some (.mem (.direct (b1 ++ b0)))
      | _ => none
    else some (.mem (.based (AddrRegs.ofBits (rmField modrm)) .none))
  else if modField modrm = 1#2 then
    match rest with
    | b0 :: _ => some (.mem (.based (AddrRegs.ofBits (rmField modrm)) (.d8 b0)))
    | [] => none
  else if modField modrm = 2#2 then
    match rest with
    | b0 :: b1 :: _ => some (.mem (.based (AddrRegs.ofBits (rmField modrm)) (.d16 (b1 ++ b0))))
    | _ => none
  else some (.reg (Reg16.ofBits (rmField modrm)))

/-- A ModRM byte with its operand, handed to a constructor. -/
def withOperand (k : RM → Instr) (modrm : Byte) (rest : List Byte) : Decoded :=
  match decodeRM modrm rest with
  | some rm => .instr (k rm)
  | none => .needMore

/-- The group `0F 00`, by ModRM.reg (30_encoding.md R98). -/
def decodeGroup0 (ovr : Option SegName) (modrm : Byte) (rest : List Byte) : Decoded :=
  match (regField modrm).toNat with
  | 0 => withOperand (.sldt ovr) modrm rest
  | 2 => withOperand (.lldt ovr) modrm rest
  | 4 => withOperand (.verr ovr) modrm rest
  | 5 => withOperand (.verw ovr) modrm rest
  | _ => .reject .group0NotInScope

/-- The group `0F 01`, by ModRM.reg (30_encoding.md R98). -/
def decodeGroup1 (ovr : Option SegName) (modrm : Byte) (rest : List Byte) : Decoded :=
  match (regField modrm).toNat with
  | 0 => withOperand (.sgdt ovr) modrm rest
  | 1 => withOperand (.sidt ovr) modrm rest
  | 2 => withOperand (.lgdt ovr) modrm rest
  | 3 => withOperand (.lidt ovr) modrm rest
  | 4 => withOperand (.smsw ovr) modrm rest
  | 6 => withOperand (.lmsw ovr) modrm rest
  | _ => .reject .opcodeNotInScope

/-- The second byte of a two-byte opcode (30_encoding.md R97, R100). -/
def decode0F (ovr : Option SegName) : List Byte → Decoded
  | [] => .needMore
  | op :: rest =>
    if op = 0x06#8 then .instr (.clts ovr)
    else if op = 0x00#8 ∨ op = 0x01#8 ∨ op = 0x02#8 ∨ op = 0x03#8 then
      match rest with
      | [] => .needMore
      | modrm :: rest =>
        if op = 0x00#8 then decodeGroup0 ovr modrm rest
        else if op = 0x01#8 then decodeGroup1 ovr modrm rest
        else if op = 0x02#8 then withOperand (.lar ovr (Reg16.ofBits (regField modrm))) modrm rest
        else withOperand (.lsl ovr (Reg16.ofBits (regField modrm))) modrm rest
    else .reject .opcodeNotInScope

/-- LOCK, the repeat bytes and the segment overrides, none of which may stand after a first override or in
the opcode's place (30_encoding.md R101). -/
def isPrefixByte (b : Byte) : Bool :=
  b = 0xF0#8 || b = 0xF2#8 || b = 0xF3#8 || (SegName.ofOverride b).isSome

/-- The bytes after the override byte, if there was one (30_encoding.md R91, R97). -/
def decodeOpcode (ovr : Option SegName) : List Byte → Decoded
  | [] => .needMore
  | op :: rest =>
    if op = 0x0F#8 then decode0F ovr rest
    else if op = 0x9B#8 then .instr (.wait ovr)
    else if op = 0x63#8 then
      match rest with
      | [] => .needMore
      | modrm :: rest => withOperand (.arpl ovr (Reg16.ofBits (regField modrm))) modrm rest
    else if op.extractLsb' 3 5 = 0x1B#5 then
      match rest with
      | [] => .needMore
      | modrm :: rest => withOperand (.esc ovr (op.extractLsb' 0 3) (regField modrm)) modrm rest
    else if isPrefixByte op then .reject .prefixNotInScope
    else .reject .opcodeNotInScope

/-- The decoder: at most one segment-override byte, then the opcode (30_encoding.md R96, R101). -/
def decode : List Byte → Decoded
  | [] => .needMore
  | b :: rest =>
    match SegName.ofOverride b with
    | some g => decodeOpcode (some g) rest
    | none => decodeOpcode none (b :: rest)

/-! ## The encoder -/

/-- General register numbers (10_state.md R22). -/
def Reg16.bits : Reg16 → BitVec 3
  | .ax => 0 | .cx => 1 | .dx => 2 | .bx => 3 | .sp => 4 | .bp => 5 | .si => 6 | .di => 7

/-- `rm` of a register sum (30_encoding.md R93). -/
def AddrRegs.bits : AddrRegs → BitVec 3
  | .bxSi => 0 | .bxDi => 1 | .bpSi => 2 | .bpDi => 3 | .si => 4 | .di => 5 | .bp => 6 | .bx => 7

/-- The override byte of a segment register (30_encoding.md R95). -/
def SegName.overrideByte : SegName → Byte
  | .es => 0x26 | .cs => 0x2E | .ss => 0x36 | .ds => 0x3E

/-- The override byte, where the instruction has one. -/
def overrideBytes : Option SegName → List Byte
  | some g => [g.overrideByte]
  | none => []

/-- `mod` of an operand (30_encoding.md R92 to R94). -/
def RM.modBits : RM → BitVec 2
  | .reg _ => 3
  | .mem (.direct _) => 0
  | .mem (.based _ .none) => 0
  | .mem (.based _ (.d8 _)) => 1
  | .mem (.based _ (.d16 _)) => 2

/-- `rm` of an operand (30_encoding.md R92, R93). -/
def RM.rmBits : RM → BitVec 3
  | .reg r => r.bits
  | .mem (.direct _) => 6
  | .mem (.based r _) => r.bits

/-- The two bytes of a word, low byte first (20_memory.md R72). -/
def wordBytes (w : Word) : List Byte := [w.extractLsb' 0 8, w.extractLsb' 8 8]

/-- The displacement bytes of an operand (30_encoding.md R94). -/
def RM.dispBytes : RM → List Byte
  | .reg _ => []
  | .mem (.direct w) => wordBytes w
  | .mem (.based _ .none) => []
  | .mem (.based _ (.d8 b)) => [b]
  | .mem (.based _ (.d16 w)) => wordBytes w

/-- The ModRM byte `mod reg rm` and the displacement of an operand (30_encoding.md R92, R94). -/
def RM.encode (reg : BitVec 3) (rm : RM) : List Byte :=
  (rm.modBits ++ reg ++ rm.rmBits : BitVec 8) :: rm.dispBytes

/-- The words of an instruction (30_encoding.md R97, R98, opcode_table.json). -/
def encode : Instr → List Byte
  | .clts o => overrideBytes o ++ [0x0F, 0x06]
  | .lgdt o rm => overrideBytes o ++ [0x0F, 0x01] ++ rm.encode 2
  | .sgdt o rm => overrideBytes o ++ [0x0F, 0x01] ++ rm.encode 0
  | .lidt o rm => overrideBytes o ++ [0x0F, 0x01] ++ rm.encode 3
  | .sidt o rm => overrideBytes o ++ [0x0F, 0x01] ++ rm.encode 1
  | .lldt o rm => overrideBytes o ++ [0x0F, 0x00] ++ rm.encode 2
  | .sldt o rm => overrideBytes o ++ [0x0F, 0x00] ++ rm.encode 0
  | .lmsw o rm => overrideBytes o ++ [0x0F, 0x01] ++ rm.encode 6
  | .smsw o rm => overrideBytes o ++ [0x0F, 0x01] ++ rm.encode 4
  | .lar o r rm => overrideBytes o ++ [0x0F, 0x02] ++ rm.encode r.bits
  | .lsl o r rm => overrideBytes o ++ [0x0F, 0x03] ++ rm.encode r.bits
  | .arpl o r rm => overrideBytes o ++ [0x63] ++ rm.encode r.bits
  | .verr o rm => overrideBytes o ++ [0x0F, 0x00] ++ rm.encode 4
  | .verw o rm => overrideBytes o ++ [0x0F, 0x00] ++ rm.encode 5
  | .wait o => overrideBytes o ++ [0x9B]
  | .esc o x y rm => overrideBytes o ++ [(0x1B#5 ++ x : BitVec 8)] ++ rm.encode y

/-! ## The instruction length -/

/-- `disp_size` (30_encoding.md R102), by operand. -/
def RM.dispSize : RM → Nat
  | .reg _ => 0
  | .mem (.direct _) => 2
  | .mem (.based _ .none) => 0
  | .mem (.based _ (.d8 _)) => 1
  | .mem (.based _ (.d16 _)) => 2

/-- One byte for the override, where there is one (30_encoding.md R102). -/
def overrideSize : Option SegName → Nat
  | some _ => 1
  | none => 0

/-- `ilen` (30_encoding.md R102). -/
def Instr.length : Instr → Nat
  | .clts o => overrideSize o + 2
  | .lgdt o rm => overrideSize o + 3 + rm.dispSize
  | .sgdt o rm => overrideSize o + 3 + rm.dispSize
  | .lidt o rm => overrideSize o + 3 + rm.dispSize
  | .sidt o rm => overrideSize o + 3 + rm.dispSize
  | .lldt o rm => overrideSize o + 3 + rm.dispSize
  | .sldt o rm => overrideSize o + 3 + rm.dispSize
  | .lmsw o rm => overrideSize o + 3 + rm.dispSize
  | .smsw o rm => overrideSize o + 3 + rm.dispSize
  | .lar o _ rm => overrideSize o + 3 + rm.dispSize
  | .lsl o _ rm => overrideSize o + 3 + rm.dispSize
  | .arpl o _ rm => overrideSize o + 2 + rm.dispSize
  | .verr o rm => overrideSize o + 3 + rm.dispSize
  | .verw o rm => overrideSize o + 3 + rm.dispSize
  | .wait o => overrideSize o + 1
  | .esc o _ _ rm => overrideSize o + 2 + rm.dispSize

/-- The longest instruction, in bytes (30_encoding.md R102). -/
def maxInstrLength : Nat := 6

/-! ## The opcode table's words -/

/-- `n` bytes of `w`, the most significant first: how the table's `match` and `fixed` number them, byte 0
leftmost (30_encoding.md R96). -/
def tableBytesHigh : Nat → Nat → List Byte
  | 0, _ => []
  | n + 1, w => BitVec.ofNat 8 (w >>> (8 * n)) :: tableBytesHigh n w

/-- `n` bytes of `w`, the least significant first. -/
def tableBytesLow : Nat → Nat → List Byte
  | 0, _ => []
  | n + 1, w => BitVec.ofNat 8 w :: tableBytesLow n (w >>> 8)

/-- An instruction's bytes with zeros after them up to the longest instruction. -/
def padBytes (bs : List Byte) : List Byte :=
  bs ++ List.replicate (maxInstrLength - bs.length) 0

/-- The bytes, in address order, of an instruction the opcode table numbers as `w` in `nbits` bits. The
table's own numbers have the first byte most significant; where that reading is no instruction, the one
with the first byte least significant is taken (log 20). -/
def tableWordBytes (nbits w : Nat) : List Byte :=
  match decode (padBytes (tableBytesHigh ((nbits + 7) / 8) w)) with
  | .instr _ => padBytes (tableBytesHigh ((nbits + 7) / 8) w)
  | _ => padBytes (tableBytesLow ((nbits + 7) / 8) w)

/-- The instruction the decoder reads from the bytes of a table word. -/
def decodeTableWord (nbits w : Nat) : Option Instr :=
  match decode (tableWordBytes nbits w) with
  | .instr i => some i
  | _ => none

end Sys2Proof
end

