-- ==== Sys2Proof/Config.lean ====
section
/-! DEFINITION. What the spec leaves to the platform or to one implementation: the named parameters of
00_scope.md R6 that State carries as plain data, and the free values, which have no body, so that no
proof can see one. -/

namespace Sys2Proof

/-- `real_mode_address_model` (20_memory.md R62, 92_eei_decisions.md D4): both readings of what happens to
address bits 20 to 23 in real address mode. -/
inductive AddressModel where
  /-- The default, D0's reading: the sum is taken modulo 2^20. -/
  | source20BitWrap
  /-- The chip as generally known: the hidden base of the segment plus the offset, modulo 2^24. -/
  | chipCacheBase
  deriving DecidableEq, Repr

/-- `size` bytes from physical address `base`: a device's in `memory_regions` (20_memory.md R78, R79), or the
program's (00_scope.md R12). -/
structure Region where
  base : Nat
  size : Nat
  deriving DecidableEq, Repr

/-- Where the spec tells how the chip goes on and yet rules that its own model stops, which of the two a
run follows (log 36). -/
inductive Rulings where
  /-- The default: the machine goes on. Exceptions are delivered (60_exceptions.md R185, R186), a store to
  code is performed (20_memory.md R84), WAIT waits (42_referenced_instructions.md R160), and an instruction
  decoded before PE was set may be undefined (70_reset_and_hazards.md R223). -/
  | chip
  /-- The spec's rulings for its model: an exception ends the run (R184, D8), a store to the program text is
  refused (R84, D7), so are WAIT without its premise (R160, D23) and a protected-mode-only instruction
  while `unflushed` (R223, D28), and ESC looks at no coprocessor input (R161). -/
  | spec
  deriving DecidableEq, Repr

/-- The parameters of the platform and of the run, which a run takes as given and no step changes. -/
structure Platform where
  /-- `real_mode_address_model` (20_memory.md R62). -/
  addressModel : AddressModel
  /-- `memory_regions`: where devices are mapped into memory (20_memory.md R79). -/
  regions : List Region
  /-- The coprocessor's busy input is active (42_referenced_instructions.md R160). -/
  npxBusy : Bool
  /-- The coprocessor's error input is active (60_exceptions.md R181, vector 16). -/
  npxError : Bool
  /-- The program text, a parameter of the run: where its bytes stand in memory (00_scope.md R12,
  20_memory.md R84); none where the run declares no program (log 34). -/
  program : Option Region
  /-- Whether the machine goes on or stops where the spec rules a stop (log 36). -/
  rulings : Rulings
  deriving DecidableEq, Repr

/-- The defaults of the spec: 20-bit wrap (R62), no device regions (R79), and the launch premise
`coprocessor_not_busy`, that is neither busy nor in error (R160); log entries 5, 15 and 19. No program is
declared (log 34), and the machine goes on where the chip does (log 36). -/
def Platform.default : Platform :=
  { addressModel := .source20BitWrap, regions := [], npxBusy := false, npxError := false,
    program := none, rulings := .chip }

/-- FREE VALUE (log 7): byte 5 of the image SGDT and SIDT store, a draw per execution
(40_system_table_and_msw.md R123, R125); the argument is State's counter `tick`. -/
opaque Config.imageByte5 : Nat → Byte

/-- FREE VALUE (log 8): `lar_types_6_7_valid`, whether LAR accepts interrupt-gate and trap-gate
descriptors (41_access_checking.md R141). -/
opaque Config.larTypes67Valid : Bool

/-- FREE VALUE (log 9): whether a protected-mode-only instruction executed while `unflushed` was decoded
before the switch to protected mode (70_reset_and_hazards.md R223); the argument is `tick`. -/
opaque Config.decodedBeforeSwitch : Nat → Bool

/-- FREE VALUE (log 10): which of the values that the instruction queues may hold for a byte is the one
fetched (20_memory.md R84); the arguments are `tick` and the physical address. -/
opaque Config.queueChoice : Nat → Nat → Nat

end Sys2Proof
end

