-- ==== Sys2Proof/Machine/State.lean ====
section
/-! DEFINITION. The state of the machine as plain data: every piece of 10_state.md R58, the instruction
queues' visible content (R45), the platform's parameters, and the model's own counter for free values. -/

namespace Sys2Proof.Machine

/-- The exceptions the model can raise (60_exceptions.md R181), with the error codes of R183. -/
inductive Exc where
  /-- Vector 1, single step. -/
  | singleStep
  /-- Vector 6, invalid opcode. -/
  | ud
  /-- Vector 7, processor extension not present. -/
  | nm
  /-- Vector 8, a second exception while delivering one, or a vector beyond the interrupt table. -/
  | doubleFault
  /-- Vector 11, segment not present. -/
  | np (code : Word)
  /-- Vector 12, stack segment overrun or not present. -/
  | ss (code : Word)
  /-- Vector 13, general protection. -/
  | gp (code : Word)
  /-- Vector 13 in real address mode: segment overrun, without an error code (20_memory.md R76). -/
  | overrun
  /-- Vector 16, processor extension error. -/
  | npxError
  deriving DecidableEq, Repr

/-- What a fault records: vector, error code, and the CS:IP of the instruction (60_exceptions.md R182). -/
structure ExcRecord where
  vector : Nat
  code : Option Word
  cs : Word
  ip : Word
  deriving DecidableEq, Repr

/-- How the machine stops. -/
inductive Fault where
  /-- Raised by every read of a memory byte, an operand's, a descriptor's, a vector's or an instruction's,
  that nothing has written and that so holds no value (20_memory.md R75, 00_scope.md R8). Safe: the
  chip would go on with whatever the platform holds there. -/
  | readOfUndefinedState (addr : Nat)
  /-- `Fault(vector, error_code, cs, pc)` of 60_exceptions.md R184. Raised by taking any exception under the
  spec's rulings, and under the chip's in protected mode where the spec does not determine the delivery: a
  task gate, a gate or target that is not usable, a more privileged handler (R186, 00_scope.md R5 item 6;
  log 12). Safe: the chip would go on into its handler. -/
  | exceptionEndsRun (r : ExcRecord)
  /-- Raised by taking an exception when the double fault it led to could not be delivered either: the
  processor stops executing until reset or NMI (60_exceptions.md R191). Safe: neither occurs in the model. -/
  | shutdown (r : ExcRecord)
  deriving DecidableEq, Repr

/-- Why the model gives a step no meaning. -/
inductive Refusal where
  /-- Raised by `exec` for an instruction that has no meaning yet. Safe. -/
  | notModelled (mnemonic : String)
  /-- Raised by `step` for bytes outside the opcode table (30_encoding.md R100). Safe. -/
  | opcodeNotInScope
  /-- Raised by `step` for LOCK, a repeat byte or a second override byte (30_encoding.md R101). Safe. -/
  | prefixNotInScope
  /-- Raised by ESC when the instruction is handed to the coprocessor
  (42_referenced_instructions.md R161). Safe. -/
  | processorExtensionNotModelled
  /-- Raised under the spec's rulings by a store to a byte of the program text (20_memory.md R84). Safe. -/
  | writeToProgramText (addr : Nat)
  /-- Raised under the spec's rulings by a protected-mode-only instruction while `unflushed`
  (70_reset_and_hazards.md R223). Safe. -/
  | noQueueFlushAfterPE
  /-- Raised under the spec's rulings by WAIT where the coprocessor is busy or in error
  (42_referenced_instructions.md R160). Safe. -/
  | waitNeedsBusyPremise
  /-- Raised by every access to a byte of a declared device region (20_memory.md R79). Safe. -/
  | deviceRegion (addr : Nat)
  deriving DecidableEq, Repr

/-- The eight general registers (10_state.md R20, R22). -/
structure Gpr where
  ax : Word
  cx : Word
  dx : Word
  bx : Word
  sp : Word
  bp : Word
  si : Word
  di : Word
  deriving DecidableEq, Repr

/-- A segment register: the visible selector and the hidden descriptor cache (10_state.md R25, R26). -/
structure SegReg where
  sel : Word
  base : Base24
  limit : Word
  access : Byte
  valid : Bool
  deriving DecidableEq, Repr

/-- GDTR or IDTR (10_state.md R39, R40). -/
structure TableReg where
  base : Base24
  limit : Word
  deriving DecidableEq, Repr

/-- LDTR: the visible selector, the hidden cache, and whether it names a table (10_state.md R41). -/
structure Ldtr where
  sel : Word
  base : Base24
  limit : Word
  valid : Bool
  deriving DecidableEq, Repr

/-- Physical memory: the bytes something has written, by rising address (20_memory.md R60, R75). An
address that is not listed holds no value (log 3). -/
abbrev Memory := List Host.Cell

/-- The whole state (10_state.md R58). -/
structure State where
  /-- General registers (R20). -/
  gpr : Gpr
  /-- Instruction pointer (R27). -/
  ip : Word
  /-- Status word F (R28, R29). -/
  flags : Word
  /-- Machine status word; bits 15:4 are what SMSW reads there, and nothing writes them (R32, R33). -/
  msw : Word
  /-- Segment registers (R25, R26). -/
  es : SegReg
  cs : SegReg
  ss : SegReg
  ds : SegReg
  /-- Descriptor-table registers (R39 to R41). -/
  gdtr : TableReg
  idtr : TableReg
  ldtr : Ldtr
  /-- Current privilege level (R43). -/
  cpl : BitVec 2
  /-- Physical memory (R47). -/
  mem : Memory
  /-- PE was set and no control transfer has emptied the instruction queues (R58). -/
  unflushed : Bool
  /-- The values, oldest first, that stores replaced in memory and that the instruction queues may still
  hold; none where the byte held no value (R45, 20_memory.md R84; log 10). -/
  queued : List (Nat × Option Byte)
  /-- The last exception raised: the `fault` mark (R58, 60_exceptions.md R182). -/
  lastException : Option ExcRecord
  /-- The platform's parameters, which no step changes (00_scope.md R6). -/
  plat : Platform
  /-- The model's own counter of completed instructions and exceptions: the index of the next free value
  (log 30). -/
  tick : Nat
  deriving DecidableEq, Repr

/-- CS after reset: selector 0F000h, and the hidden base R221 gives for each address model. -/
def resetCsBase : AddressModel → Base24
  | .source20BitWrap => 0x0F0000
  | .chipCacheBase => 0xFF0000

/-- DS, SS and ES after reset (10_state.md R58): selector and base 0, present writable data. -/
def resetDataSeg : SegReg :=
  { sel := 0, base := 0, limit := 0xFFFF, access := 0x93, valid := true }

/-- The machine right after reset on a given platform (10_state.md R58, 70_reset_and_hazards.md R221). -/
def State.resetOn (p : Platform) : State :=
  { gpr := { ax := 0, cx := 0, dx := 0, bx := 0, sp := 0, bp := 0, si := 0, di := 0 }
    ip := 0xFFF0
    flags := 0x0002
    msw := 0xFFF0
    es := resetDataSeg
    cs := { sel := 0xF000, base := resetCsBase p.addressModel, limit := 0xFFFF, access := 0x9B, valid := true }
    ss := resetDataSeg
    ds := resetDataSeg
    gdtr := { base := 0, limit := 0 }
    idtr := { base := 0, limit := 0x03FF }
    ldtr := { sel := 0, base := 0, limit := 0, valid := false }
    cpl := 0
    mem := []
    unflushed := false
    queued := []
    lastException := none
    plat := p
    tick := 0 }

/-- The machine right after reset on the spec's default platform. -/
def State.reset : State := State.resetOn Platform.default

end Sys2Proof.Machine
end

