-- ==== Sys2Proof/Machine/Flags.lean ====
section
/-! DEFINITION. The bits of the status word, the machine status word, selectors and access rights bytes,
the privilege rules stated on them, and every flag computation the spec gives (10_state.md R29 to R38,
20_memory.md R66, R68, R69, 41_access_checking.md R140). -/

namespace Sys2Proof.Machine

/-- Bit `i` of a word set to `b`, the others unchanged. -/
def putBit (w : Word) (i : Nat) (b : Bool) : Word :=
  if b then w ||| (1#16 <<< i) else w &&& ~~~(1#16 <<< i)

/-! ## The status word (10_state.md R29) -/

def State.zf (s : State) : Bool := s.flags.getLsbD 6
def State.tf (s : State) : Bool := s.flags.getLsbD 8
def State.intf (s : State) : Bool := s.flags.getLsbD 9
def State.iopl (s : State) : BitVec 2 := s.flags.extractLsb' 12 2
def State.nt (s : State) : Bool := s.flags.getLsbD 14

/-- ZF, the one flag in-scope instructions write (10_state.md R29, 41_access_checking.md R140). -/
def State.setZF (s : State) (b : Bool) : State := { s with flags := putBit s.flags 6 b }

/-- The flags real-address-mode delivery clears: IF and TF (60_exceptions.md R185). -/
def clearIfTf (f : Word) : Word := putBit (putBit f 9 false) 8 false

/-- The flags protected-mode delivery clears: TF and NT, and IF through an interrupt gate
(60_exceptions.md R186). -/
def clearForGate (interruptGate : Bool) (f : Word) : Word :=
  putBit (putBit (if interruptGate then putBit f 9 false else f) 8 false) 14 false

/-! ## The machine status word (10_state.md R33) -/

def State.pe (s : State) : Bool := s.msw.getLsbD 0
def State.mp (s : State) : Bool := s.msw.getLsbD 1
def State.em (s : State) : Bool := s.msw.getLsbD 2
def State.ts (s : State) : Bool := s.msw.getLsbD 3

/-- TS cleared, as CLTS does (40_system_table_and_msw.md R121). -/
def clearTS (msw : Word) : Word := putBit msw 3 false

/-- What LMSW makes of the MSW: PE can be set but not cleared, MP, EM and TS are loaded, bits 15:4 stay
(40_system_table_and_msw.md R128, 90_conflicts.md C7). -/
def loadMsw (msw src : Word) : Word :=
  putBit (putBit (putBit (putBit msw 0 (msw.getLsbD 0 || src.getLsbD 0)) 1 (src.getLsbD 1))
    2 (src.getLsbD 2)) 3 (src.getLsbD 3)

/-- When an instruction that uses the processor extension raises exception 7 (10_state.md R38). -/
def State.escTraps (s : State) : Bool := s.em || s.ts

/-- When WAIT raises exception 7 (10_state.md R38). -/
def State.waitTraps (s : State) : Bool := s.mp && s.ts

/-! ## Selectors (20_memory.md R66) -/

/-- Bits 15:3. -/
def selIndex (sel : Word) : BitVec 13 := sel.extractLsb' 3 13
/-- Bit 2, the table indicator. -/
def selTI (sel : Word) : Bool := sel.getLsbD 2
/-- Bits 1:0, the requested privilege level. -/
def selRPL (sel : Word) : BitVec 2 := sel.extractLsb' 0 2
/-- Index 0 and TI 0: the selector names no descriptor. -/
def selIsNull (sel : Word) : Bool := sel.extractLsb' 2 14 = 0#14
/-- The selector with bits 1:0 replaced by IDT = 0, EXT = 0: the error code of GP(sel) and NP(sel)
(60_exceptions.md R183). -/
def selErrorCode (sel : Word) : Word := sel.extractLsb' 2 14 ++ 0#2
/-- The selector with its RPL replaced. -/
def selWithRPL (sel : Word) (rpl : BitVec 2) : Word := sel.extractLsb' 2 14 ++ rpl

/-! ## The access rights byte (20_memory.md R68) -/

def arPresent (a : Byte) : Bool := a.getLsbD 7
def arDPL (a : Byte) : BitVec 2 := a.extractLsb' 5 2
/-- S: a code or data segment descriptor, not a system one. -/
def arSegment (a : Byte) : Bool := a.getLsbD 4
/-- E (S = 1): a code segment. -/
def arCode (a : Byte) : Bool := a.getLsbD 3
/-- Bit 2: ED of a data segment, C of a code segment. -/
def arBit2 (a : Byte) : Bool := a.getLsbD 2
/-- Bit 1: W of a data segment, R of a code segment. -/
def arBit1 (a : Byte) : Bool := a.getLsbD 1
/-- TYPE (S = 0), the system type of R69. -/
def arType (a : Byte) : BitVec 4 := a.extractLsb' 0 4
/-- The accessed bit set, as a load into a segment register does. -/
def arAccessed (a : Byte) : Byte := a ||| 1#8

/-- A conforming code segment: S, E and C (41_access_checking.md R140). -/
def arConforming (a : Byte) : Bool := arSegment a && arCode a && arBit2 a
/-- A data segment is always readable, a code segment if R is set (20_memory.md R68, R145). -/
def arReadable (a : Byte) : Bool := arSegment a && (!arCode a || arBit1 a)
/-- Only a data segment with W set is writable (20_memory.md R68, R146). -/
def arWritable (a : Byte) : Bool := arSegment a && !arCode a && arBit1 a
/-- A present LDT descriptor is system type 2 (20_memory.md R69, R126). -/
def arIsLdt (a : Byte) : Bool := !arSegment a && arType a = 2#4

/-- The descriptor's privilege level is no more trusted than both the running code and the selector
(41_access_checking.md R140); unsigned comparisons (00_scope.md R9). -/
def arPrivilegeOk (a : Byte) (cpl rpl : BitVec 2) : Bool :=
  decide (cpl.toNat ≤ (arDPL a).toNat) && decide (rpl.toNat ≤ (arDPL a).toNat)

/-- `Visible` (41_access_checking.md R140). -/
def arVisible (a : Byte) (cpl rpl : BitVec 2) : Bool := arConforming a || arPrivilegeOk a cpl rpl

/-- `LarType` (41_access_checking.md R141). -/
def larType (a : Byte) : Bool :=
  if arSegment a then true
  else match (arType a).toNat with
    | 1 | 2 | 3 | 4 | 5 => true
    | 6 | 7 => Config.larTypes67Valid
    | _ => false

/-- `LslType` (41_access_checking.md R142). -/
def lslType (a : Byte) : Bool :=
  if arSegment a then true
  else match (arType a).toNat with
    | 1 | 2 | 3 => true
    | _ => false

/-- The IOPL rule (10_state.md R30): in protected mode I/O is permitted iff CPL <= IOPL; in real address
mode there is no protection. No instruction of the table performs I/O, so no meaning reads it (log 27). -/
def State.ioPermitted (s : State) : Bool := !s.pe || decide (s.cpl.toNat ≤ s.iopl.toNat)

/-! ## Exceptions (60_exceptions.md R181, R183) -/

def Exc.vector : Exc → Nat
  | .singleStep => 1
  | .ud => 6
  | .nm => 7
  | .doubleFault => 8
  | .np _ => 11
  | .ss _ => 12
  | .gp _ => 13
  | .overrun => 13
  | .npxError => 16

/-- The error code pushed in protected mode. -/
def Exc.code : Exc → Option Word
  | .doubleFault => some 0#16
  | .np c => some c
  | .ss c => some c
  | .gp c => some c
  | _ => none

end Sys2Proof.Machine
end

