-- ==== Sys2Proof/Machine/Ops.lean ====
section
/-! DEFINITION. The shared operations: memory by bytes, the segmented accesses, descriptor lookup, the
instruction queues, taking an exception and returning from one, and how an instruction ends
(20_memory.md R62 to R84, 40_system_table_and_msw.md R120, 60_exceptions.md R184 to R191). -/

namespace Sys2Proof.Machine

/-! ## Memory as data -/

/-- What an address that is not listed reads as: it holds no value (20_memory.md R75, 10_state.md R58;
log 3). This is the one definition of it. -/
def Memory.unlisted : Option Byte := none

/-- The byte something has written at an address, if anything has (20_memory.md R75). -/
def Memory.read : Memory → Nat → Option Byte
  | [], _ => Memory.unlisted
  | (k, v) :: m, a => if a = k then some v else Memory.read m a

/-- A byte written, keeping the addresses rising. -/
def Memory.write : Memory → Nat → Byte → Memory
  | [], a, v => [(a, v)]
  | (k, w) :: m, a, v =>
    if a = k then (a, v) :: m
    else if a < k then (a, v) :: (k, w) :: m
    else (k, w) :: Memory.write m a v

/-- The canonical form: addresses strictly rising, all of the 2^24 that exist (20_memory.md R60); no listed
byte equals what an unlisted address reads as, which is no value. -/
abbrev Memory.wf (m : Memory) : Prop :=
  m.Pairwise (fun c d => c.1 < d.1) ∧ ∀ c ∈ m, c.1 < 2 ^ 24

/-- The number whose little-endian bytes are given (20_memory.md R72). -/
def leNat : List Byte → Nat
  | [] => 0
  | b :: bs => b.toNat + 256 * leNat bs

/-- The `n` little-endian bytes of a number (20_memory.md R72). -/
def leBytes : Nat → Nat → List Byte
  | 0, _ => []
  | n + 1, v => BitVec.ofNat 8 v :: leBytes n (v / 256)

/-- The word in the first two bytes of a list (20_memory.md R72). -/
def leWord (bs : List Byte) : Word := BitVec.ofNat 16 (leNat bs)

/-! ## Registers -/

def Gpr.get (g : Gpr) : Reg16 → Word
  | .ax => g.ax | .cx => g.cx | .dx => g.dx | .bx => g.bx
  | .sp => g.sp | .bp => g.bp | .si => g.si | .di => g.di

def Gpr.set (g : Gpr) (r : Reg16) (v : Word) : Gpr :=
  match r with
  | .ax => { g with ax := v } | .cx => { g with cx := v }
  | .dx => { g with dx := v } | .bx => { g with bx := v }
  | .sp => { g with sp := v } | .bp => { g with bp := v }
  | .si => { g with si := v } | .di => { g with di := v }

/-- `x[r]` (00_scope.md R8). -/
def State.reg (s : State) (r : Reg16) : Word := s.gpr.get r

/-- `x[r] <- v` (00_scope.md R8). -/
def State.setReg (s : State) (r : Reg16) (v : Word) : State := { s with gpr := s.gpr.set r v }

/-- The segment register of a name (10_state.md R25). -/
def State.seg (s : State) : SegName → SegReg
  | .es => s.es | .cs => s.cs | .ss => s.ss | .ds => s.ds

/-! ## Stopping inside an operation -/

/-- Why an operation does not go on. -/
inductive Stop where
  /-- It raises an exception of the machine. -/
  | exc (e : Exc)
  /-- The model stops. -/
  | fault (f : Fault)
  /-- The model gives it no meaning. -/
  | refuse (r : Refusal)
  deriving DecidableEq, Repr

/-! ## Physical accesses (20_memory.md R75) -/

/-- The number of addresses the physical address of a byte is taken modulo: 2^20 in real address mode
under `source_20bit_wrap`, else 2^24 (20_memory.md R62, R75). -/
def State.addressSpace (s : State) : Nat :=
  if !s.pe && decide (s.plat.addressModel = .source20BitWrap) then 2 ^ 20 else 2 ^ 24

/-- The physical addresses of `n` bytes from `a` on, in the order they are accessed. -/
def State.span (s : State) (a n : Nat) : List Nat :=
  (List.range n).map (fun i => (a + i) % s.addressSpace)

/-- An address lies in a declared device region (20_memory.md R79). -/
def State.isDevice (s : State) (a : Nat) : Bool :=
  s.plat.regions.any (fun r => decide (r.base ≤ a) && decide (a < r.base + r.size))

/-- The bytes of a program text, by physical address: `size` of them from `base` on. DESIGN CHOICE (log 38): a
text that runs past 0FFFFFFh goes on at 000000h, as the bytes of one access do (20_memory.md R75). -/
def textHolds (r : Region) (a : Nat) : Bool :=
  decide ((a + (2 ^ 24 - r.base % 2 ^ 24)) % 2 ^ 24 < r.size)

/-- A byte of the program text, which the spec's rulings make immutable (20_memory.md R84; logs 36, 38). -/
def State.isText (s : State) (a : Nat) : Bool :=
  decide (s.plat.rulings = .spec) && s.plat.program.any (fun r => textHolds r a)

/-- Why a byte may not be stored to, if so: it is a device's (20_memory.md R79), or program text (R84). -/
def State.storeRefusal (s : State) (a : Nat) : Option Refusal :=
  if s.isDevice a then some (.deviceRegion a)
  else if s.isText a then some (.writeToProgramText a)
  else none

/-- One byte of memory read: refused in a device region (R79), a fault where nothing has been written. -/
def State.readByte (s : State) (a : Nat) : Except Stop Byte :=
  if s.isDevice a then .error (.refuse (.deviceRegion a))
  else match s.mem.read a with
    | some b => .ok b
    | none => .error (.fault (.readOfUndefinedState a))

/-- The bytes at the given addresses, in order. -/
def State.readAll (s : State) : List Nat → Except Stop (List Byte)
  | [] => .ok []
  | a :: as =>
    match s.readByte a with
    | .error e => .error e
    | .ok b =>
      match s.readAll as with
      | .error e => .error e
      | .ok bs => .ok (b :: bs)

/-- `MemRead` (20_memory.md R75): the bytes, lowest address first. -/
def State.memRead (s : State) (a n : Nat) : Except Stop (List Byte) := s.readAll (s.span a n)

/-! ## The instruction queues (10_state.md R45, 20_memory.md R84; log 10) -/

/-- The real-address-mode physical address of an offset in a segment (20_memory.md R62). -/
def State.realAddress (s : State) (g : SegName) (off : Word) : Nat :=
  match s.plat.addressModel with
  | .source20BitWrap => ((s.seg g).sel.toNat * 16 + off.toNat) % 2 ^ 20
  | .chipCacheBase => ((s.seg g).base.toNat + off.toNat) % 2 ^ 24

/-- The physical address of an offset in a segment, without checks (20_memory.md R62, R65). -/
def State.linearAddress (s : State) (g : SegName) (off : Word) : Nat :=
  if s.pe then ((s.seg g).base.toNat + off.toNat) % 2 ^ 24 else s.realAddress g off

/-- How many bytes from the current instruction on the queues can hold: the instruction itself (at most 6),
three decoded instructions of at most 10 bytes, and 6 prefetched bytes (10_state.md R45, 20_memory.md R77). -/
def queueReach : Nat := 42

/-- The queues may hold a copy of the byte at this physical address. -/
def State.queueHolds (s : State) (a : Nat) : Bool :=
  (List.range queueReach).any (fun i => s.linearAddress .cs (s.ip + BitVec.ofNat 16 i) == a)

/-- One byte of memory written; where the queues may hold a copy of the old value, that is remembered. -/
def State.storeByte (s : State) (a : Nat) (b : Byte) : State :=
  { s with
    mem := s.mem.write a b
    queued := if s.queueHolds a then s.queued ++ [(a, s.mem.read a)] else s.queued }

/-- Bytes written, in order. -/
def State.storeAll (s : State) : List (Nat × Byte) → State
  | [] => s
  | c :: cs => (s.storeByte c.1 c.2).storeAll cs

/-- `MemWrite` (20_memory.md R75); refused where a byte may not be stored to (R79, R84). -/
def State.memWrite (s : State) (a : Nat) (bs : List Byte) : Except Stop State :=
  match (s.span a bs.length).findSome? s.storeRefusal with
  | some r => .error (.refuse r)
  | none => .ok (s.storeAll ((s.span a bs.length).zip bs))

/-- The values the queues may still hold for a byte, oldest first. -/
def State.staleValues (s : State) (a : Nat) : List (Option Byte) :=
  (s.queued.filter (fun c => c.1 == a)).map (·.2)

/-- One byte of the instruction stream: the byte in memory, or, where a recent store changed it, one of the
values it has had since the queues may have read it, by free choice (20_memory.md R80, R84; log 10). -/
def State.codeByte (s : State) (a : Nat) : Except Stop Byte :=
  match s.staleValues a with
  | [] => s.readByte a
  | v :: vs =>
    match (v :: vs)[Config.queueChoice s.tick a % (vs.length + 2)]? with
    | some (some b) => .ok b
    | some none => .error (.fault (.readOfUndefinedState a))
    | none => s.readByte a

/-! ## Segmented accesses (20_memory.md R76) -/

/-- The kinds of access. -/
inductive Access where
  | read | write | fetch
  deriving DecidableEq, Repr

/-- The exception of a limit or type violation: SS(0) through SS, else GP(0) (20_memory.md R76). -/
def operandExc : SegName → Exc
  | .ss => .ss 0#16
  | _ => .gp 0#16

/-- `SegAccess` (20_memory.md R76): the checks on `n` bytes at an offset, and the physical address of the
first. -/
def State.segAccess (s : State) (g : SegName) (off : Word) (n : Nat) (k : Access) : Except Stop Nat :=
  if 0xFFFF < off.toNat + n - 1 then
    .error (.exc (if s.pe then operandExc g else .overrun))
  else if s.pe then
    if !(s.seg g).valid then .error (.exc (.gp 0#16))
    else if k = .write ∧ !arWritable (s.seg g).access then .error (.exc (operandExc g))
    else if k = .read ∧ (arCode (s.seg g).access && !arBit1 (s.seg g).access) then .error (.exc (.gp 0#16))
    else if k = .fetch ∧ !arCode (s.seg g).access then .error (.exc (.gp 0#16))
    else if !arCode (s.seg g).access && arBit2 (s.seg g).access then
      if (s.seg g).limit.toNat < off.toNat then .ok (((s.seg g).base.toNat + off.toNat) % 2 ^ 24)
      else .error (.exc (operandExc g))
    else if off.toNat + n - 1 ≤ (s.seg g).limit.toNat then
      .ok (((s.seg g).base.toNat + off.toNat) % 2 ^ 24)
    else .error (.exc (operandExc g))
  else .ok (s.realAddress g off)

/-- `SegRead` (20_memory.md R76). -/
def State.segRead (s : State) (g : SegName) (off : Word) (n : Nat) : Except Stop (List Byte) :=
  match s.segAccess g off n .read with
  | .error e => .error e
  | .ok a => s.memRead a n

/-- `SegWrite` (20_memory.md R76). -/
def State.segWrite (s : State) (g : SegName) (off : Word) (bs : List Byte) : Except Stop State :=
  match s.segAccess g off bs.length .write with
  | .error e => .error e
  | .ok a => s.memWrite a bs

/-! ## Instruction fetch (20_memory.md R77) -/

/-- Byte `i` of the instruction at IP: never past offset 0FFFFh, and within the code segment. -/
def State.fetchByte (s : State) (i : Nat) : Except Stop Byte :=
  if 0xFFFF < s.ip.toNat + i then .error (.exc (if s.pe then operandExc .cs else .overrun))
  else match s.segAccess .cs (s.ip + BitVec.ofNat 16 i) 1 .fetch with
    | .error e => .error e
    | .ok a => s.codeByte a

/-- The bytes from the `i`-th on, at most `n`, up to the first that cannot be fetched, and why it cannot. -/
def State.fetchFrom (s : State) (i : Nat) : Nat → List Byte × Option Stop
  | 0 => ([], none)
  | n + 1 =>
    match s.fetchByte i with
    | .error e => ([], some e)
    | .ok b => (b :: (s.fetchFrom (i + 1) n).1, (s.fetchFrom (i + 1) n).2)

/-! ## Descriptor lookup (20_memory.md R67, R70) -/

/-- The fields of a segment descriptor (20_memory.md R67). -/
structure Descriptor where
  limit : Word
  base : Base24
  access : Byte
  deriving DecidableEq, Repr

/-- What `FetchDesc` answers (20_memory.md R70). -/
inductive Lookup where
  | null
  | outOfTable
  | desc (d : Descriptor)
  deriving DecidableEq, Repr

/-- The table a selector's TI names; none for the local table while LDTR names none (20_memory.md R70). -/
def State.tableOf (s : State) (sel : Word) : Option TableReg :=
  if selTI sel then
    if s.ldtr.valid then some { base := s.ldtr.base, limit := s.ldtr.limit } else none
  else some s.gdtr

/-- The physical address of the descriptor a selector names, if it lies in its table: descriptor `index`
exists iff `8 * index + 7` does not exceed the table's limit (20_memory.md R67, R70). -/
def State.descAddr (s : State) (sel : Word) : Option Nat :=
  match s.tableOf sel with
  | none => none
  | some t =>
    if t.limit.toNat < 8 * (selIndex sel).toNat + 7 then none
    else some ((t.base.toNat + 8 * (selIndex sel).toNat) % 2 ^ 24)

/-- A descriptor from its bytes 0 to 5 (20_memory.md R67). -/
def Descriptor.ofBytes (bs : List Byte) : Descriptor :=
  { limit := BitVec.ofNat 16 (leNat bs)
    base := BitVec.ofNat 24 (leNat (bs.drop 2))
    access := BitVec.ofNat 8 (leNat (bs.drop 5)) }

/-- `FetchDesc` (20_memory.md R70). -/
def State.fetchDesc (s : State) (sel : Word) : Except Stop Lookup :=
  if selIsNull sel then .ok .null
  else match s.descAddr sel with
    | none => .ok .outOfTable
    | some a =>
      match s.memRead a 6 with
      | .error e => .error e
      | .ok bs => .ok (.desc (Descriptor.ofBytes bs))

/-! ## The stack -/

/-- One word pushed: SP goes down by 2 and the word is stored through SS (60_exceptions.md R185). -/
def State.push (s : State) (w : Word) : Except Stop State :=
  match s.segWrite .ss (s.gpr.sp - 2#16) (leBytes 2 w.toNat) with
  | .error e => .error e
  | .ok t => .ok { t with gpr := { t.gpr with sp := s.gpr.sp - 2#16 } }

/-- Words pushed in order. All succeed or the machine is as before: no state leaves a failed push
(60_exceptions.md R189; log 13). -/
def State.pushAll (s : State) : List Word → Except Stop State
  | [] => .ok s
  | w :: ws =>
    match s.push w with
    | .error e => .error e
    | .ok t => t.pushAll ws

/-- One word popped (60_exceptions.md R190). -/
def State.pop (s : State) : Except Stop (Word × State) :=
  match s.segRead .ss s.gpr.sp 2 with
  | .error e => .error e
  | .ok bs => .ok (leWord bs, { s with gpr := { s.gpr with sp := s.gpr.sp + 2#16 } })

/-! ## Taking an exception -/

/-- A segment register loaded in real address mode, as CS is by an exception or a return: base = selector
* 16, limit 0FFFFh, readable present code (10_state.md R26; logs 4 and 32). -/
def realCodeSeg (sel : Word) : SegReg :=
  { sel := sel, base := BitVec.ofNat 24 (sel.toNat * 16), limit := 0xFFFF, access := 0x9B, valid := true }

/-- A control transfer to `cs`:`ip`: it empties the instruction queues (20_memory.md R84, 10_state.md R58). -/
def State.transfer (s : State) (cs : SegReg) (ip : Word) : State :=
  { s with cs := cs, ip := ip, queued := [], unflushed := false, tick := s.tick + 1 }

/-- What a fault records (60_exceptions.md R182); no error code in real address mode (R181). -/
def State.record (s : State) (e : Exc) : ExcRecord :=
  { vector := e.vector, code := if s.pe then e.code else none, cs := s.cs.sel, ip := s.ip }

/-- Delivery in real address mode (60_exceptions.md R185): the vector beyond the table is a double fault;
FLAGS, CS and IP are pushed; IF and TF are cleared; IP and CS come from the vector's table entry. -/
def State.deliverReal (s : State) (vector : Nat) : Except Stop State :=
  if s.idtr.limit.toNat < 4 * vector + 3 then .error (.exc .doubleFault)
  else match s.pushAll [s.flags, s.cs.sel, s.ip] with
    | .error e => .error e
    | .ok t =>
      match t.memRead (s.idtr.base.toNat + 4 * vector) 4 with
      | .error e => .error e
      | .ok bs =>
        .ok (({ t with flags := clearIfTf s.flags }).transfer (realCodeSeg (leWord (bs.drop 2))) (leWord bs))

/-- The gates an interrupt table may hold (20_memory.md R69, 60_exceptions.md R186). -/
inductive Gate where
  | task | interrupt | trap
  deriving DecidableEq, Repr

/-- Which gate an access rights byte makes (20_memory.md R68, R69). -/
def gateOf (a : Byte) : Option Gate :=
  if arSegment a then none
  else match (arType a).toNat with
    | 5 => some .task
    | 6 => some .interrupt
    | 7 => some .trap
    | _ => none

/-- CS loaded from the descriptor of a handler that runs at the current privilege level: the selector's RPL
is CPL (10_state.md R43), the cache is the descriptor's, with the accessed bit set (R26, 20_memory.md R68). -/
def State.handlerSeg (s : State) (sel : Word) (d : Descriptor) : SegReg :=
  { sel := selWithRPL sel s.cpl, base := d.base, limit := d.limit, access := arAccessed d.access, valid := true }

/-- A present code segment that runs at the current privilege level, with the handler's first byte within
its limit (20_memory.md R68, 60_exceptions.md R186; log 12). -/
def State.sameLevelHandler (s : State) (d : Descriptor) (ip : Word) : Bool :=
  arSegment d.access && arCode d.access && arPresent d.access
    && (if arBit2 d.access then decide ((arDPL d.access).toNat ≤ s.cpl.toNat) else arDPL d.access = s.cpl)
    && decide (ip.toNat ≤ d.limit.toNat)

/-- The pushes, the accessed bit and the transfer of a delivery at the current privilege level
(60_exceptions.md R186). DESIGN CHOICE (log 12): R186 gives no order; the gate and the descriptor are read
first, then the words are pushed, then the descriptor's access byte as it was read is written back with the
accessed bit set. -/
def State.enterHandler (s : State) (e : Exc) (g : Gate) (sel ip : Word) (d : Descriptor) (addr : Nat) :
    Except Stop State :=
  match s.pushAll ([s.flags, s.cs.sel, s.ip] ++ e.code.toList) with
  | .error x => .error x
  | .ok t =>
    match t.memWrite (addr + 5) [arAccessed d.access] with
    | .error x => .error x
    | .ok u =>
      .ok (({ u with flags := clearForGate (g = Gate.interrupt) s.flags }).transfer (s.handlerSeg sel d) ip)

/-- Delivery in protected mode (60_exceptions.md R186): the gate in the interrupt table; what R186 does not
determine ends the run (R184; log 12). -/
def State.deliverProtected (s : State) (e : Exc) : Except Stop State :=
  if s.idtr.limit.toNat < 8 * e.vector + 7 then
    .error (.exc (.gp (BitVec.ofNat 16 (8 * e.vector + 2))))
  else match s.memRead (s.idtr.base.toNat + 8 * e.vector) 6 with
    | .error x => .error x
    | .ok gate =>
      match gateOf (BitVec.ofNat 8 (leNat (gate.drop 5))) with
      | none => .error (.exc (.gp (BitVec.ofNat 16 (8 * e.vector + 2))))
      | some .task => .error (.fault (.exceptionEndsRun (s.record e)))
      | some g =>
        if !arPresent (BitVec.ofNat 8 (leNat (gate.drop 5))) then .error (.fault (.exceptionEndsRun (s.record e)))
        else match s.fetchDesc (leWord (gate.drop 2)), s.descAddr (leWord (gate.drop 2)) with
        | .error x, _ => .error x
        | .ok (.desc d), some addr =>
          if s.sameLevelHandler d (leWord gate) then
            s.enterHandler e g (leWord (gate.drop 2)) (leWord gate) d addr
          else .error (.fault (.exceptionEndsRun (s.record e)))
        | .ok _, _ => .error (.fault (.exceptionEndsRun (s.record e)))

/-- Delivery of one exception, by mode. -/
def State.deliver (s : State) (e : Exc) : Except Stop State :=
  if s.pe then s.deliverProtected e else s.deliverReal e.vector

/-- The outcome of a step. -/
abbrev Result := Host.Outcome State Fault Refusal

/-- An exception delivered and recorded; a second exception while delivering is the double fault; a further
one shuts the processor down (60_exceptions.md R185, R186, R191). DESIGN CHOICE (log 39): the double fault is
delivered from the state whose exception could not be delivered, so it saves and records that state's CS:IP and
FLAGS; R191 names none, and R189 speaks of the exceptions of R182 only. -/
def State.takeException (s : State) (e : Exc) : Result :=
  match s.deliver e with
  | .ok t => .next { t with lastException := some (s.record e) }
  | .error (.fault f) => .fault f
  | .error (.refuse r) => .refused r
  | .error (.exc _) =>
    match s.deliver .doubleFault with
    | .ok t => .next { t with lastException := some (s.record .doubleFault) }
    | .error (.fault f) => .fault f
    | .error (.refuse r) => .refused r
    | .error (.exc _) => .fault (.shutdown (s.record e))

/-- TAKING AN EXCEPTION, for every instruction and every cause. Under the spec's rulings it ends the run: no
handler is dispatched, nothing is pushed (60_exceptions.md R184); else it is delivered (R185, R186; logs 11,
12, 36). The saved IP is that of the instruction, for vector 16 too (DESIGN CHOICE, log 37). -/
def State.raise (s : State) (e : Exc) : Result :=
  match s.plat.rulings with
  | .spec => .fault (.exceptionEndsRun (s.record e))
  | .chip => s.takeException e

/-- The return from an exception in real address mode: IP, CS and FLAGS are popped (60_exceptions.md R190).
No encoding of the opcode table performs it. DESIGN CHOICE (log 28): all 16 bits of the popped word go into
the status word, NT, IOPL and the reserved bits with them; the spec leaves open whether NT and IOPL can change
in real address mode (91_not_in_source.md N19). -/
def State.returnReal (s : State) : Except Stop State :=
  match s.pop with
  | .error e => .error e
  | .ok (ip, s1) =>
    match s1.pop with
    | .error e => .error e
    | .ok (cs, s2) =>
      match s2.pop with
      | .error e => .error e
      | .ok (f, s3) => .ok (({ s3 with flags := f }).transfer (realCodeSeg cs) ip)

/-! ## How an instruction ends -/

/-- `pc <- next_pc` (40_system_table_and_msw.md R120): IP moves past the instruction, and the queues no
longer hold what lies behind it. -/
def State.advance (s : State) (len : Nat) : State :=
  { s with
    ip := s.ip + BitVec.ofNat 16 len
    queued := s.queued.filter (fun c => ({ s with ip := s.ip + BitVec.ofNat 16 len }).queueHolds c.1)
    tick := s.tick + 1 }

/-- An operation that did not go on, as the outcome of the instruction. -/
def State.stop (s : State) : Stop → Result
  | .exc e => s.raise e
  | .fault f => .fault f
  | .refuse r => .refused r

/-- The end of an instruction of `len` bytes: the effect and the next instruction, or the exception, taken
with the state before the instruction (60_exceptions.md R189). -/
def State.finish (s : State) (len : Nat) : Except Stop State → Result
  | .ok t => .next (t.advance len)
  | .error e => s.stop e

/-- The single-step trap after a completed instruction when TF is set (60_exceptions.md R181 vector 1, R200;
log 17). An exception clears TF, and an instruction that waits has not completed. -/
def State.singleStep (s : State) : Result → Result
  | .next t => if t.tf && t.tick != s.tick then t.raise .singleStep else .next t
  | r => r

/-! ## Shared checks of the instruction rules (40_system_table_and_msw.md R120) -/

/-- What becomes of a protected-mode-only instruction while `unflushed`: refused under the spec's rulings
(70_reset_and_hazards.md R223); else the instruction may have been decoded before the switch, as undefined, by
free choice (log 9). -/
def State.requireFlushed (s : State) : Except Stop Unit :=
  match s.plat.rulings with
  | .spec => .error (.refuse .noQueueFlushAfterPE)
  | .chip => if Config.decodedBeforeSwitch s.tick then .error (.exc .ud) else .ok ()

/-- `RequireProtected`: UD in real address mode; then the check of the mark `unflushed`. -/
def State.requireProtected (s : State) : Except Stop Unit :=
  if !s.pe then .error (.exc .ud)
  else if s.unflushed then s.requireFlushed
  else .ok ()

/-- `RequireCPL0`: GP(0) in protected mode at a level other than 0. -/
def State.requireCPL0 (s : State) : Except Stop Unit :=
  if s.pe && s.cpl != 0#2 then .error (.exc (.gp 0#16)) else .ok ()

end Sys2Proof.Machine
end

