-- ==== Sys2Proof/Machine/Operands.lean ====
section
/-! DEFINITION. The operand forms: effective addresses and their segments (30_encoding.md R93 to R95), the
r/m16 operand read and written, the 6-byte table image (40_system_table_and_msw.md R120, section 2), and
the byte halves of the general registers (10_state.md R21). -/

namespace Sys2Proof.Machine

/-- The register sum of an addressing form (30_encoding.md R93). -/
def State.addrRegs (s : State) : AddrRegs → Word
  | .bxSi => s.gpr.bx + s.gpr.si
  | .bxDi => s.gpr.bx + s.gpr.di
  | .bpSi => s.gpr.bp + s.gpr.si
  | .bpDi => s.gpr.bp + s.gpr.di
  | .si => s.gpr.si
  | .di => s.gpr.di
  | .bp => s.gpr.bp
  | .bx => s.gpr.bx

/-- A displacement as a word: one byte is sign-extended (30_encoding.md R94). -/
def dispWord : Disp → Word
  | .none => 0#16
  | .d8 b => b.signExtend 16
  | .d16 w => w

/-- `EA` (30_encoding.md R93), modulo 2^16. -/
def State.effAddr (s : State) : MemOp → Word
  | .direct w => w
  | .based r d => s.addrRegs r + dispWord d

/-- The forms that use BP (30_encoding.md R95). -/
def usesBP : AddrRegs → Bool
  | .bpSi => true
  | .bpDi => true
  | .bp => true
  | _ => false

/-- `seg(EA)` (30_encoding.md R95): the override, else SS when BP is used, else DS. -/
def operandSeg (ovr : Option SegName) (m : MemOp) : SegName :=
  match ovr with
  | some g => g
  | none =>
    match m with
    | .direct _ => .ds
    | .based r _ => if usesBP r then .ss else .ds

/-- `ReadRM16` (40_system_table_and_msw.md R120). -/
def State.readRM (s : State) (ovr : Option SegName) : RM → Except Stop Word
  | .reg r => .ok (s.reg r)
  | .mem m =>
    match s.segRead (operandSeg ovr m) (s.effAddr m) 2 with
    | .error e => .error e
    | .ok bs => .ok (leWord bs)

/-- `WriteRM16` (40_system_table_and_msw.md R120). -/
def State.writeRM (s : State) (ovr : Option SegName) (rm : RM) (v : Word) : Except Stop State :=
  match rm with
  | .reg r => .ok (s.setReg r v)
  | .mem m => s.segWrite (operandSeg ovr m) (s.effAddr m) (leBytes 2 v.toNat)

/-- The check ARPL makes of a memory destination before it reads (41_access_checking.md R144). -/
def State.checkWritable (s : State) (ovr : Option SegName) : RM → Except Stop Unit
  | .reg _ => .ok ()
  | .mem m =>
    match s.segAccess (operandSeg ovr m) (s.effAddr m) 2 .write with
    | .error e => .error e
    | .ok _ => .ok ()

/-- The table register of a 6-byte image: bytes 0,1 the limit, bytes 2,3,4 the base, byte 5 ignored
(40_system_table_and_msw.md R122, R124). -/
def tableOfImage (bs : List Byte) : TableReg :=
  { base := BitVec.ofNat 24 (leNat (bs.drop 2)), limit := BitVec.ofNat 16 (leNat bs) }

/-- The 6-byte image of a table register, with a given byte 5 (40_system_table_and_msw.md R123, R125). -/
def imageOfTable (t : TableReg) (b5 : Byte) : List Byte :=
  leBytes 2 t.limit.toNat ++ leBytes 3 t.base.toNat ++ [b5]

/-- The 6-byte operand of LGDT and LIDT; a register is illegal, and the privilege is checked before the
operand is read (40_system_table_and_msw.md R122, R124). -/
def State.readTable (s : State) (ovr : Option SegName) : RM → Except Stop TableReg
  | .reg _ => .error (.exc .ud)
  | .mem m =>
    match s.requireCPL0 with
    | .error e => .error e
    | .ok _ =>
      match s.segRead (operandSeg ovr m) (s.effAddr m) 6 with
      | .error e => .error e
      | .ok bs => .ok (tableOfImage bs)

/-- The 6-byte store of SGDT and SIDT; a register is illegal; byte 5 is a free value
(40_system_table_and_msw.md R123, R125; log 7). -/
def State.writeTable (s : State) (ovr : Option SegName) (rm : RM) (t : TableReg) : Except Stop State :=
  match rm with
  | .reg _ => .error (.exc .ud)
  | .mem m => s.segWrite (operandSeg ovr m) (s.effAddr m) (imageOfTable t (Config.imageByte5 s.tick))

/-! ## Byte halves (10_state.md R21, R22) -/

/-- The general register a byte half belongs to. -/
def byteWhole : Reg8 → Reg16
  | .al => .ax | .cl => .cx | .dl => .dx | .bl => .bx
  | .ah => .ax | .ch => .cx | .dh => .dx | .bh => .bx

/-- The H half is bits 15 to 8. -/
def byteIsHigh : Reg8 → Bool
  | .ah => true | .ch => true | .dh => true | .bh => true
  | _ => false

/-- A byte half read. -/
def Gpr.getByte (g : Gpr) (r : Reg8) : Byte :=
  (g.get (byteWhole r)).extractLsb' (if byteIsHigh r then 8 else 0) 8

/-- A byte half written, which leaves the other half. -/
def Gpr.setByte (g : Gpr) (r : Reg8) (b : Byte) : Gpr :=
  g.set (byteWhole r) (if byteIsHigh r then b ++ (g.get (byteWhole r)).extractLsb' 0 8 else (g.get (byteWhole r)).extractLsb' 8 8 ++ b)

end Sys2Proof.Machine
end

