-- ==== Sys2Proof/Machine/AccessCheck.lean ====
section
/-! DEFINITION. LAR, LSL, ARPL, VERR and VERW: testing selectors (41_access_checking.md R140 to R146). -/

namespace Sys2Proof.Machine

/-- The descriptor a selector operand names, looked up in protected mode only (R141, R142, R145, R146). -/
def State.lookupOperand (s : State) (ovr : Option SegName) (rm : RM) : Except Stop (Word × Lookup) :=
  match s.requireProtected with
  | .error e => .error e
  | .ok _ =>
    match s.readRM ovr rm with
    | .error e => .error e
    | .ok sel =>
      match s.fetchDesc sel with
      | .error e => .error e
      | .ok l => .ok (sel, l)

/-- A test of a descriptor that a selector names; a selector that names none fails it (R140). -/
def descTest (test : Descriptor → Bool) : Lookup → Option Descriptor
  | .desc d => if test d then some d else none
  | _ => none

/-- The descriptor LAR accepts (R141). -/
def State.larTest (s : State) (sel : Word) (d : Descriptor) : Bool :=
  larType d.access && arVisible d.access s.cpl (selRPL sel)

/-- The descriptor LSL accepts (R142). -/
def State.lslTest (s : State) (sel : Word) (d : Descriptor) : Bool :=
  lslType d.access && arVisible d.access s.cpl (selRPL sel)

/-- The descriptor VERR accepts (R145). -/
def State.verrTest (s : State) (sel : Word) (d : Descriptor) : Bool :=
  arReadable d.access && arVisible d.access s.cpl (selRPL sel)

/-- The descriptor VERW accepts: no conforming exception, data only (R146). -/
def State.verwTest (s : State) (sel : Word) (d : Descriptor) : Bool :=
  arWritable d.access && arPrivilegeOk d.access s.cpl (selRPL sel)

/-- LAR (R141): the access rights byte in bits 15:8, or ZF = 0 and nothing else. -/
def larEffect (ovr : Option SegName) (reg : Reg16) (rm : RM) (s : State) : Except Stop State :=
  match s.lookupOperand ovr rm with
  | .error e => .error e
  | .ok (sel, l) =>
    match descTest (s.larTest sel) l with
    | some d => .ok ((s.setReg reg (d.access ++ 0#8)).setZF true)
    | none => .ok (s.setZF false)

/-- LAR. -/
def execLar (ovr : Option SegName) (reg : Reg16) (rm : RM) (s : State) : Result :=
  s.finish (Instr.lar ovr reg rm).length (larEffect ovr reg rm s)

/-- LSL (R142): the limit field as stored, or ZF = 0 and nothing else. -/
def lslEffect (ovr : Option SegName) (reg : Reg16) (rm : RM) (s : State) : Except Stop State :=
  match s.lookupOperand ovr rm with
  | .error e => .error e
  | .ok (sel, l) =>
    match descTest (s.lslTest sel) l with
    | some d => .ok ((s.setReg reg d.limit).setZF true)
    | none => .ok (s.setZF false)

/-- LSL. -/
def execLsl (ovr : Option SegName) (reg : Reg16) (rm : RM) (s : State) : Result :=
  s.finish (Instr.lsl ovr reg rm).length (lslEffect ovr reg rm s)

/-- VERR (R145): ZF says whether the segment can be read. -/
def verrEffect (ovr : Option SegName) (rm : RM) (s : State) : Except Stop State :=
  match s.lookupOperand ovr rm with
  | .error e => .error e
  | .ok (sel, l) => .ok (s.setZF (descTest (s.verrTest sel) l).isSome)

/-- VERR. -/
def execVerr (ovr : Option SegName) (rm : RM) (s : State) : Result :=
  s.finish (Instr.verr ovr rm).length (verrEffect ovr rm s)

/-- VERW (R146): ZF says whether the segment can be written. -/
def verwEffect (ovr : Option SegName) (rm : RM) (s : State) : Except Stop State :=
  match s.lookupOperand ovr rm with
  | .error e => .error e
  | .ok (sel, l) => .ok (s.setZF (descTest (s.verwTest sel) l).isSome)

/-- VERW. -/
def execVerw (ovr : Option SegName) (rm : RM) (s : State) : Result :=
  s.finish (Instr.verw ovr rm).length (verwEffect ovr rm s)

/-- ARPL (R144): the destination's RPL is raised to the source's where it is lower; a memory destination
must be writable even where it is not written. -/
def arplEffect (ovr : Option SegName) (reg : Reg16) (rm : RM) (s : State) : Except Stop State :=
  match s.requireProtected with
  | .error e => .error e
  | .ok _ =>
    match s.checkWritable ovr rm with
    | .error e => .error e
    | .ok _ =>
      match s.readRM ovr rm with
      | .error e => .error e
      | .ok dst =>
        if (selRPL dst).toNat < (selRPL (s.reg reg)).toNat then
          match s.writeRM ovr rm (selWithRPL dst (selRPL (s.reg reg))) with
          | .error e => .error e
          | .ok t => .ok (t.setZF true)
        else .ok (s.setZF false)

/-- ARPL. -/
def execArpl (ovr : Option SegName) (reg : Reg16) (rm : RM) (s : State) : Result :=
  s.finish (Instr.arpl ovr reg rm).length (arplEffect ovr reg rm s)

end Sys2Proof.Machine
end

