-- ==== Sys2Proof/Machine/Extension.lean ====
section
/-! DEFINITION. WAIT and ESC: the instructions of the processor extension
(42_referenced_instructions.md R160, R161). -/

namespace Sys2Proof.Machine

/-- WAIT (R160): exception 7 when MP and TS are set; else, under the spec's rulings, refused without the
premise that the coprocessor is neither busy nor in error; else the processor is held while the busy input is
active (the machine stays as it is, at the WAIT); then a pending coprocessor error is exception 16
(60_exceptions.md R181), which saves the IP of the WAIT itself (DESIGN CHOICE, log 37); else nothing but the
next instruction (log 15). -/
def execWait (ovr : Option SegName) (s : State) : Result :=
  if s.waitTraps then s.raise .nm
  else if s.plat.rulings = .spec ∧ (s.plat.npxBusy || s.plat.npxError) then .refused .waitNeedsBusyPremise
  else if s.plat.npxBusy then .next s
  else if s.plat.npxError then s.raise .npxError
  else .next (s.advance (Instr.wait ovr).length)

/-- ESC (R161): exception 7 when EM or TS is set, before any look at the operand; else, but under the spec's
rulings, a pending coprocessor error is exception 16 (60_exceptions.md R181; log 16); else the instruction is the
coprocessor's, which the spec excludes by name (00_scope.md R5 item 3). DESIGN CHOICE (log 37): the busy input
does not hold ESC before the error input is tested, and exception 16 saves the IP of the ESC itself. -/
def execEsc (_ovr : Option SegName) (_x _y : BitVec 3) (_rm : RM) (s : State) : Result :=
  if s.escTraps then s.raise .nm
  else if s.plat.rulings = .chip ∧ s.plat.npxError then s.raise .npxError
  else .refused .processorExtensionNotModelled

end Sys2Proof.Machine
end

