-- ==== Sys2Proof/Machine/StatusWord.lean ====
section
/-! DEFINITION. CLTS, LMSW and SMSW: the machine status word (40_system_table_and_msw.md R121, R128, R129). -/

namespace Sys2Proof.Machine

/-- CLTS (R121): privileged; TS becomes 0. -/
def cltsEffect (s : State) : Except Stop State :=
  match s.requireCPL0 with
  | .error e => .error e
  | .ok _ => .ok { s with msw := clearTS s.msw }

/-- CLTS. -/
def execClts (ovr : Option SegName) (s : State) : Result :=
  s.finish (Instr.clts ovr).length (cltsEffect s)

/-- LMSW (R128): privileged; PE can be set but not cleared; setting it marks `unflushed`
(70_reset_and_hazards.md R223). -/
def lmswEffect (ovr : Option SegName) (rm : RM) (s : State) : Except Stop State :=
  match s.requireCPL0 with
  | .error e => .error e
  | .ok _ =>
    match s.readRM ovr rm with
    | .error e => .error e
    | .ok src =>
      .ok { s with
        msw := loadMsw s.msw src
        unflushed := s.unflushed || (!s.pe && src.getLsbD 0) }

/-- LMSW. -/
def execLmsw (ovr : Option SegName) (rm : RM) (s : State) : Result :=
  s.finish (Instr.lmsw ovr rm).length (lmswEffect ovr rm s)

/-- SMSW (R129): unprivileged; the whole MSW is stored, bits 15:4 as they read. -/
def execSmsw (ovr : Option SegName) (rm : RM) (s : State) : Result :=
  s.finish (Instr.smsw ovr rm).length (s.writeRM ovr rm s.msw)

end Sys2Proof.Machine
end

