-- ==== Sys2Proof/Machine/SystemTable.lean ====
section
/-! DEFINITION. LGDT, SGDT, LIDT, SIDT, LLDT and SLDT: the descriptor-table registers
(40_system_table_and_msw.md R122 to R127). -/

namespace Sys2Proof.Machine

/-- LGDT (R122): any base and limit are accepted. -/
def lgdtEffect (ovr : Option SegName) (rm : RM) (s : State) : Except Stop State :=
  match s.readTable ovr rm with
  | .error e => .error e
  | .ok t => .ok { s with gdtr := t }

/-- LGDT. -/
def execLgdt (ovr : Option SegName) (rm : RM) (s : State) : Result :=
  s.finish (Instr.lgdt ovr rm).length (lgdtEffect ovr rm s)

/-- SGDT (R123): unprivileged. -/
def execSgdt (ovr : Option SegName) (rm : RM) (s : State) : Result :=
  s.finish (Instr.sgdt ovr rm).length (s.writeTable ovr rm s.gdtr)

/-- LIDT (R124). -/
def lidtEffect (ovr : Option SegName) (rm : RM) (s : State) : Except Stop State :=
  match s.readTable ovr rm with
  | .error e => .error e
  | .ok t => .ok { s with idtr := t }

/-- LIDT. -/
def execLidt (ovr : Option SegName) (rm : RM) (s : State) : Result :=
  s.finish (Instr.lidt ovr rm).length (lidtEffect ovr rm s)

/-- SIDT (R125): unprivileged. -/
def execSidt (ovr : Option SegName) (rm : RM) (s : State) : Result :=
  s.finish (Instr.sidt ovr rm).length (s.writeTable ovr rm s.idtr)

/-- LLDT with its selector read (R126): a null selector marks LDTR invalid; else the selector names the
global table, lies in it, and names a present LDT descriptor. -/
def loadLdt (s : State) (sel : Word) : Except Stop State :=
  if selIsNull sel then .ok { s with ldtr := { s.ldtr with sel := sel, valid := false } }
  else if selTI sel then .error (.exc (.gp (selErrorCode sel)))
  else match s.fetchDesc sel with
    | .error e => .error e
    | .ok (.desc d) =>
      if !arIsLdt d.access then .error (.exc (.gp (selErrorCode sel)))
      else if !arPresent d.access then .error (.exc (.np (selErrorCode sel)))
      else .ok { s with ldtr := { sel := sel, base := d.base, limit := d.limit, valid := true } }
    | .ok _ => .error (.exc (.gp (selErrorCode sel)))

/-- LLDT (R126): protected mode only, privileged. -/
def lldtEffect (ovr : Option SegName) (rm : RM) (s : State) : Except Stop State :=
  match s.requireProtected with
  | .error e => .error e
  | .ok _ =>
    match s.requireCPL0 with
    | .error e => .error e
    | .ok _ =>
      match s.readRM ovr rm with
      | .error e => .error e
      | .ok sel => loadLdt s sel

/-- LLDT. -/
def execLldt (ovr : Option SegName) (rm : RM) (s : State) : Result :=
  s.finish (Instr.lldt ovr rm).length (lldtEffect ovr rm s)

/-- SLDT (R127): protected mode only, unprivileged; the visible selector is stored. -/
def sldtEffect (ovr : Option SegName) (rm : RM) (s : State) : Except Stop State :=
  match s.requireProtected with
  | .error e => .error e
  | .ok _ => s.writeRM ovr rm s.ldtr.sel

/-- SLDT. -/
def execSldt (ovr : Option SegName) (rm : RM) (s : State) : Result :=
  s.finish (Instr.sldt ovr rm).length (sldtEffect ovr rm s)

end Sys2Proof.Machine
end

