-- ==== Sys2Proof/Machine/Dispatch.lean ====
section
/-! DEFINITION. What each instruction does: one arm per constructor of Instr, each a call of its meaning. -/

namespace Sys2Proof.Machine

def exec (i : Instr) (s : State) : Host.Outcome State Fault Refusal :=
  match i with
  | .clts ovr => Sys2Proof.Machine.execClts ovr s
  | .lgdt ovr rm => Sys2Proof.Machine.execLgdt ovr rm s
  | .sgdt ovr rm => Sys2Proof.Machine.execSgdt ovr rm s
  | .lidt ovr rm => Sys2Proof.Machine.execLidt ovr rm s
  | .sidt ovr rm => Sys2Proof.Machine.execSidt ovr rm s
  | .lldt ovr rm => Sys2Proof.Machine.execLldt ovr rm s
  | .sldt ovr rm => Sys2Proof.Machine.execSldt ovr rm s
  | .lmsw ovr rm => Sys2Proof.Machine.execLmsw ovr rm s
  | .smsw ovr rm => Sys2Proof.Machine.execSmsw ovr rm s
  | .lar ovr reg rm => Sys2Proof.Machine.execLar ovr reg rm s
  | .lsl ovr reg rm => Sys2Proof.Machine.execLsl ovr reg rm s
  | .arpl ovr reg rm => Sys2Proof.Machine.execArpl ovr reg rm s
  | .verr ovr rm => Sys2Proof.Machine.execVerr ovr rm s
  | .verw ovr rm => Sys2Proof.Machine.execVerw ovr rm s
  | .wait ovr => Sys2Proof.Machine.execWait ovr s
  | .esc ovr x y rm => Sys2Proof.Machine.execEsc ovr x y rm s

end Sys2Proof.Machine
end

