-- ==== Sys2Proof/Machine/Fetch.lean ====
section
/-! DEFINITION. Fetching and decoding the next instruction (20_memory.md R77, 30_encoding.md R100, R101,
60_exceptions.md R188), placing one in memory, the program of a run and where the run ends (00_scope.md R12). -/

namespace Sys2Proof.Machine

/-- What stands at IP. -/
inductive Fetched where
  | instr (i : Instr)
  /-- A byte of the instruction cannot be fetched. -/
  | stopped (e : Stop)
  | rejected (r : Reject)
  deriving DecidableEq, Repr

/-- The instruction at IP: only the bytes the decoder needs are looked at, in ascending order (R77). The last
arm is not reached: no instruction is longer than `maxInstrLength` (R102). -/
def State.fetched (s : State) : Fetched :=
  match decode (s.fetchFrom 0 maxInstrLength).1 with
  | .instr i => .instr i
  | .reject r => .rejected r
  | .needMore =>
    match (s.fetchFrom 0 maxInstrLength).2 with
    | some e => .stopped e
    | none => .rejected .opcodeNotInScope

/-- What the machine does with bytes that are no instruction of the table (30_encoding.md R99, R100, R101;
90_conflicts.md C11): the group `0F 00` raises UD in real address mode whatever its `reg` field. -/
def State.rejectBytes (s : State) : Reject → Result
  | .opcodeNotInScope => .refused .opcodeNotInScope
  | .prefixNotInScope => .refused .prefixNotInScope
  | .group0NotInScope => if s.pe then .refused .opcodeNotInScope else s.raise .ud

/-- The end of a run (00_scope.md R12): the fetch address is the first byte after the program, and no exception
has been recorded. It is no event of the machine: `step` goes on fetching as the chip does (log 34). DESIGN CHOICE
(log 40): that byte's address is taken modulo the address space, as the fetch address is, so modulo 2^20 in real
address mode under `source_20bit_wrap`, though the program's bytes are bound at 24-bit addresses. -/
def State.runEnded (s : State) : Bool :=
  match s.plat.program with
  | none => false
  | some p => decide (s.linearAddress .cs s.ip = (p.base + p.size) % s.addressSpace) && s.lastException.isNone

/-- Bytes written at consecutive physical addresses, modulo 2^24. DESIGN CHOICE (log 38): the spec does not say
where a program that runs past 0FFFFFFh goes on. -/
def Memory.load (m : Memory) (base : Nat) (bs : List Byte) : Memory :=
  ((List.range bs.length).zip bs).foldl (fun m c => m.write ((base + c.1) % 2 ^ 24) c.2) m

/-- A program bound at a physical address, with nothing in the instruction queues: its bytes stand in memory,
and the run's parameter says where (00_scope.md R12, 20_memory.md R84). -/
def State.bindProgram (s : State) (base : Nat) (bs : List Byte) : State :=
  { s with
    mem := s.mem.load base bs
    queued := []
    plat := { s.plat with program := some { base := base, size := bs.length } } }

/-- Code bytes stored at CS:IP, with nothing in the instruction queues (log 20). -/
def State.placeCode (s : State) (bs : List Byte) : State :=
  { s with
    mem := ((List.range bs.length).zip bs).foldl
      (fun m c => m.write (s.linearAddress .cs (s.ip + BitVec.ofNat 16 c.1)) c.2) s.mem
    queued := [] }

end Sys2Proof.Machine
end

