-- ==== Sys2Proof/Machine/Step.lean ====
section
/-! DEFINITION. One step of the machine: fetch, decode, execute, and the single-step trap. -/

namespace Sys2Proof.Machine

/-- One step (00_scope.md R11, 60_exceptions.md R188). -/
def step (s : State) : Host.Outcome State Fault Refusal :=
  match s.fetched with
  | .instr i => s.singleStep (exec i s)
  | .stopped e => s.stop e
  | .rejected r => s.rejectBytes r

/-- A state with an instruction of the opcode table stored where the next step fetches it. -/
def State.withFetchWord (s : State) (nbits w : Nat) : State := s.placeCode (tableWordBytes nbits w)

end Sys2Proof.Machine
end

