-- ==== Sys2Proof/Machine/Run.lean ====
section
/-! DEFINITION. A run of the machine: steps until the program's end, a fault or a refusal (00_scope.md R12,
60_exceptions.md R184). -/

namespace Sys2Proof.Machine

/-- Where a run of a number of steps stands. -/
inductive RunResult where
  /-- The fetch address reached the first byte after the program, with no fault and no refusal. -/
  | ended (t : State)
  /-- A fault ended it. -/
  | fault (f : Fault)
  /-- A refusal ended it. -/
  | refused (r : Refusal)
  /-- It has not ended yet. -/
  | going (t : State)
  deriving DecidableEq, Repr

/-- A run of at most `n` steps. -/
def run : Nat → State → RunResult
  | 0, s => if s.runEnded then .ended s else .going s
  | n + 1, s =>
    if s.runEnded then .ended s
    else match step s with
      | .next t => run n t
      | .fault f => .fault f
      | .refused r => .refused r

end Sys2Proof.Machine
end

