-- ==== Sys2Proof/Safety.lean ====
section
/-! DEFINITION. What statements about the machine are made of: the invariant of its states, the conditions
under which an instruction runs, and what an instruction leaves unchanged. -/

namespace Sys2Proof.Machine

/-! ## The invariant -/

/-- The reserved bits of the status word read as R29 says: bit 1 is 1, bits 3, 5 and 15 are 0. -/
def flagsReserved (f : Word) : Prop :=
  f.getLsbD 1 = true ∧ f.getLsbD 3 = false ∧ f.getLsbD 5 = false ∧ f.getLsbD 15 = false

/-- The states a run reaches: memory is canonical and within the 2^24 bytes (20_memory.md R60); CPL is 0 in
real address mode (10_state.md R43); `unflushed` is set only in protected mode (70_reset_and_hazards.md
R223); the status word's reserved bits read as R29 says. -/
structure State.Inv (s : State) : Prop where
  memory : s.mem.wf
  realLevel : s.pe = false → s.cpl = 0#2
  unflushedProtected : s.unflushed = true → s.pe = true
  flags : flagsReserved s.flags

/-! ## When an instruction runs -/

/-- The privileged instructions may run: real address mode, or level 0 (40_system_table_and_msw.md R120). -/
def State.privileged (s : State) : Prop := s.pe = false ∨ s.cpl = 0#2

/-- The protected-mode-only instructions run by their rules: protected mode, with the instruction queues
emptied since PE was set (40_system_table_and_msw.md R120, 70_reset_and_hazards.md R223). -/
def State.protectedReady (s : State) : Prop := s.pe = true ∧ s.unflushed = false

/-- No device region holds one of the `n` bytes at a physical address (20_memory.md R79). -/
def State.plainSpan (s : State) (a n : Nat) : Prop := ∀ x ∈ s.span a n, s.isDevice x = false

/-- `n` bytes at a physical address can be stored to: no device region holds one, and none is program text
that the spec's rulings make immutable (20_memory.md R79, R84). -/
def State.storableSpan (s : State) (a n : Nat) : Prop :=
  s.plainSpan a n ∧ ∀ x ∈ s.span a n, s.isText x = false

/-- A store of `n` bytes at a physical address is refused for `r`: its first byte that may not be stored to is a
device's (20_memory.md R79), or program text that the spec's rulings make immutable (R84). -/
def State.StoreRefused (s : State) (a n : Nat) (r : Refusal) : Prop :=
  ∃ k, k < n ∧ s.storableSpan a k ∧
    (s.isDevice ((a + k) % s.addressSpace) = true ∧ r = .deviceRegion ((a + k) % s.addressSpace) ∨
      s.isDevice ((a + k) % s.addressSpace) = false ∧ s.isText ((a + k) % s.addressSpace) = true ∧
        r = .writeToProgramText ((a + k) % s.addressSpace))

/-- `n` bytes at a physical address can be read: each has been written, and no device region holds one
(20_memory.md R75, R79). -/
def State.readableSpan (s : State) (a n : Nat) : Prop :=
  s.plainSpan a n ∧ ∀ x ∈ s.span a n, (s.mem.read x).isSome = true

/-! ## What an instruction leaves unchanged -/

/-- The instruction has completed: IP is past it, and what no instruction of the table writes is as before:
the segment registers and their caches, CPL, the record of exceptions, the platform. -/
structure Completed (i : Instr) (s t : State) : Prop where
  ip : t.ip = s.ip + BitVec.ofNat 16 i.length
  es : t.es = s.es
  cs : t.cs = s.cs
  ss : t.ss = s.ss
  ds : t.ds = s.ds
  cpl : t.cpl = s.cpl
  lastException : t.lastException = s.lastException
  plat : t.plat = s.plat

/-- GDTR, IDTR and LDTR are as before. -/
def SameTables (s t : State) : Prop := t.gdtr = s.gdtr ∧ t.idtr = s.idtr ∧ t.ldtr = s.ldtr

/-- The machine status word and the mark `unflushed` are as before. -/
def SameMode (s t : State) : Prop := t.msw = s.msw ∧ t.unflushed = s.unflushed

/-- Every byte of memory reads as before. -/
def SameMemory (s t : State) : Prop := ∀ a, t.mem.read a = s.mem.read a

/-- Every byte of memory outside the `n` bytes of an access at `a` reads as before. -/
def SameMemoryBut (s t : State) (a n : Nat) : Prop := ∀ x, x ∉ s.span a n → t.mem.read x = s.mem.read x

/-- The bytes `bs` stand at `a`, lowest address first, and every other byte of memory reads as before. -/
def StoredAt (s t : State) (a : Nat) (bs : List Byte) : Prop :=
  (s.span a bs.length).map t.mem.read = bs.map some ∧ SameMemoryBut s t a bs.length

/-- Every flag but ZF, and every other bit of the status word, is as before, and ZF is `b`. -/
def OnlyZF (s t : State) (b : Bool) : Prop :=
  ∀ i, t.flags.getLsbD i = if i = 6 then b else s.flags.getLsbD i

/-- Every general register but `r` is as before, and `r` holds `v`. -/
def OnlyReg (s t : State) (r : Reg16) (v : Word) : Prop :=
  ∀ q, t.reg q = if q = r then v else s.reg q

/-! ## The spec's conditions, in their own words -/

/-- The general registers, the status word, the machine status word and its mark, and the tables are as
before: what an instruction that only stores to memory leaves. -/
def SameRegisters (s t : State) : Prop :=
  t.gpr = s.gpr ∧ t.flags = s.flags ∧ SameMode s t ∧ SameTables s t

/-- Row `rm` of the effective-address table, without the displacement (30_encoding.md R93). -/
def eaRow (s : State) : Nat → Word
  | 0 => s.gpr.bx + s.gpr.si
  | 1 => s.gpr.bx + s.gpr.di
  | 2 => s.gpr.bp + s.gpr.si
  | 3 => s.gpr.bp + s.gpr.di
  | 4 => s.gpr.si
  | 5 => s.gpr.di
  | 6 => s.gpr.bp
  | _ => s.gpr.bx

/-- A conforming code segment (S, E, C), or a DPL no more trusted than CPL and RPL
(41_access_checking.md R140). -/
def Visible (a : Byte) (cpl rpl : BitVec 2) : Prop :=
  (a.getLsbD 4 = true ∧ a.getLsbD 3 = true ∧ a.getLsbD 2 = true) ∨
  (cpl.toNat ≤ a.toNat / 32 % 4 ∧ rpl.toNat ≤ a.toNat / 32 % 4)

/-- A code or data segment, a system type 1 to 5, or 6 or 7 where the implementation accepts them
(41_access_checking.md R141). -/
def LarAccepts (a : Byte) : Prop :=
  a.getLsbD 4 = true ∨ (1 ≤ a.toNat % 16 ∧ a.toNat % 16 ≤ 5) ∨
  ((a.toNat % 16 = 6 ∨ a.toNat % 16 = 7) ∧ Config.larTypes67Valid = true)

/-- A code or data segment, or a system type 1 to 3 (41_access_checking.md R142). -/
def LslAccepts (a : Byte) : Prop :=
  a.getLsbD 4 = true ∨ (1 ≤ a.toNat % 16 ∧ a.toNat % 16 ≤ 3)

/-- A data segment, or a readable code segment (41_access_checking.md R145). -/
def VerrAccepts (a : Byte) : Prop :=
  a.getLsbD 4 = true ∧ (a.getLsbD 3 = false ∨ a.getLsbD 1 = true)

/-- A writable data segment whose DPL is no more trusted than CPL and RPL (41_access_checking.md R146). -/
def VerwAccepts (a : Byte) (cpl rpl : BitVec 2) : Prop :=
  a.getLsbD 4 = true ∧ a.getLsbD 3 = false ∧ a.getLsbD 1 = true ∧
  cpl.toNat ≤ a.toNat / 32 % 4 ∧ rpl.toNat ≤ a.toNat / 32 % 4

/-- A selector names a descriptor that a condition accepts (20_memory.md R70). -/
def Names (l : Lookup) (accepts : Descriptor → Prop) : Prop := ∃ d, l = .desc d ∧ accepts d

/-- The instructions that exist in protected mode only (30_encoding.md R99). -/
def protectedOnly : Instr → Prop
  | .lldt _ _ => True
  | .sldt _ _ => True
  | .lar _ _ _ => True
  | .lsl _ _ _ => True
  | .arpl _ _ _ => True
  | .verr _ _ => True
  | .verw _ _ => True
  | _ => False

/-- Where a protected-mode-only instruction with an r/m16 operand traps: UD in real address mode, and the
exception of a memory operand it may not access (41_access_checking.md R141 to R146). -/
def OperandTraps (s : State) (ovr : Option SegName) (i : RM → Instr) (k : Access) : Prop :=
  (s.pe = false → ∀ rm, exec (i rm) s = s.raise .ud) ∧
  (s.protectedReady → ∀ m e, s.segAccess (operandSeg ovr m) (s.effAddr m) 2 k = .error (.exc e) →
    exec (i (.mem m)) s = s.raise e)

/-! ## Code, runs and deliveries -/

/-- The bytes `bs` stand in memory from CS:IP on, where the code segment reaches over them
(20_memory.md R77). -/
def State.CodeAt (s : State) (bs : List Byte) : Prop :=
  ∀ k b, bs[k]? = some b → s.ip.toNat + k ≤ 0xFFFF ∧
    ∃ a, s.segAccess .cs (s.ip + BitVec.ofNat 16 k) 1 .fetch = .ok a ∧ s.isDevice a = false ∧
      s.mem.read a = some b

/-- `t` is where `s` stands after `k` steps, none of them from the end of the run (00_scope.md R12). -/
def Reaches : Nat → State → State → Prop
  | 0, s, t => s = t
  | k + 1, s, t => s.runEnded = false ∧ ∃ u, step s = .next u ∧ Reaches k u t

/-- A handler that a gate may enter at the current privilege level: a present code segment, conforming and no
less trusted or of the same level, that reaches over its first byte (60_exceptions.md R186, 20_memory.md R68;
log 12). -/
def State.HandlerHere (s : State) (d : Descriptor) (ip : Word) : Prop :=
  d.access.getLsbD 7 = true ∧ d.access.getLsbD 4 = true ∧ d.access.getLsbD 3 = true ∧
  (d.access.getLsbD 2 = false ∧ d.access.toNat / 32 % 4 = s.cpl.toNat ∨
    d.access.getLsbD 2 = true ∧ d.access.toNat / 32 % 4 ≤ s.cpl.toNat) ∧
  ip.toNat ≤ d.limit.toNat


/-- Where the `k`-th word of a delivery is pushed (60_exceptions.md R185). -/
def State.pushAddress (s : State) (k : Nat) : Nat := s.realAddress .ss (s.gpr.sp - BitVec.ofNat 16 (2 * k))

/-- Exceptions are delivered (log 36), and a delivery of vector `n` in real address mode meets no second
exception: the vector lies in the table, no pushed word straddles offset 0FFFFh, the stack bytes are memory,
and the vector's entry is written memory (60_exceptions.md R185). -/
structure State.RealDeliverable (s : State) (n : Nat) : Prop where
  delivered : s.plat.rulings = .chip
  real : s.pe = false
  vector : 4 * n + 3 ≤ s.idtr.limit.toNat
  stack : s.gpr.sp ≠ 1#16 ∧ s.gpr.sp ≠ 3#16 ∧ s.gpr.sp ≠ 5#16
  flags : s.storableSpan (s.pushAddress 1) 2
  code : s.storableSpan (s.pushAddress 2) 2
  ip : s.storableSpan (s.pushAddress 3) 2
  entry : s.readableSpan (s.idtr.base.toNat + 4 * n) 4

end Sys2Proof.Machine
end

