-- ==== Sys2Proof/Certificates/Slice0/Obligations.lean ====
section
/-! DEFINITION. The statements about the machine, one `def Obligations.<Name> : Prop` each, listed in
OBLIGATIONS.json. A statement about a free value holds for every value of it. -/

open Sys2Proof Sys2Proof.Machine

/-! ## Reset and the invariant -/

/-- The values the spec states for reset (10_state.md R58, 70_reset_and_hazards.md R221, R222), on every
platform: CS's cache is present readable code, the others' present writable data (that they are valid: log 4),
and no exception is recorded.
The values the model chooses (logs 1, 2) are not stated; CPL = 0 is the spec's decision D20. -/
def Obligations.ResetStateHasTheSpecValues : Prop :=
  ∀ p : Platform,
    (State.resetOn p).ip = 0xFFF0#16 ∧ (State.resetOn p).flags = 0x0002#16 ∧
    (State.resetOn p).msw = 0xFFF0#16 ∧ (State.resetOn p).pe = false ∧
    (State.resetOn p).cs.sel = 0xF000#16 ∧ (State.resetOn p).cs.limit = 0xFFFF#16 ∧
    (p.addressModel = .source20BitWrap → (State.resetOn p).cs.base = 0x0F0000#24) ∧
    (p.addressModel = .chipCacheBase → (State.resetOn p).cs.base = 0xFF0000#24) ∧
    (State.resetOn p).cs.valid = true ∧ (State.resetOn p).cs.access.getLsbD 7 = true ∧
    (State.resetOn p).cs.access.getLsbD 4 = true ∧ (State.resetOn p).cs.access.getLsbD 3 = true ∧
    (State.resetOn p).cs.access.getLsbD 1 = true ∧
    (p.addressModel = .source20BitWrap → (State.resetOn p).linearAddress .cs (State.resetOn p).ip = 0xFFFF0) ∧
    (p.addressModel = .chipCacheBase → (State.resetOn p).linearAddress .cs (State.resetOn p).ip = 0xFFFFF0) ∧
    (∀ g, g ≠ .cs → ((State.resetOn p).seg g).sel = 0#16 ∧ ((State.resetOn p).seg g).base = 0#24 ∧
      ((State.resetOn p).seg g).limit = 0xFFFF#16 ∧ ((State.resetOn p).seg g).valid = true ∧
      ((State.resetOn p).seg g).access.getLsbD 7 = true ∧ ((State.resetOn p).seg g).access.getLsbD 4 = true ∧
      ((State.resetOn p).seg g).access.getLsbD 3 = false ∧ ((State.resetOn p).seg g).access.getLsbD 1 = true) ∧
    (State.resetOn p).idtr.base = 0#24 ∧ (State.resetOn p).idtr.limit = 0x03FF#16 ∧
    (State.resetOn p).ldtr.valid = false ∧ (State.resetOn p).cpl = 0#2 ∧ (State.resetOn p).unflushed = false ∧
    (State.resetOn p).lastException = none

/-- The reset state meets the invariant. -/
def Obligations.ResetStateMeetsTheInvariant : Prop := ∀ p : Platform, (State.resetOn p).Inv

/-- Every step keeps the invariant: canonical memory of 2^24 bytes (R60), CPL 0 in real address mode (R43),
`unflushed` only in protected mode (R223), the status word's reserved bits (R29). -/
def Obligations.EveryStepKeepsTheInvariant : Prop :=
  ∀ s t : State, s.Inv → step s = .next t → t.Inv

/-! ## Rules of the whole machine -/

/-- PE (10_state.md R34): no step clears it, reset does, and LMSW sets it from real address mode. -/
def Obligations.ProtectionEnableIsClearedOnlyByReset : Prop :=
  (∀ s t : State, s.pe = true → step s = .next t → t.pe = true) ∧
  (∀ p : Platform, (State.resetOn p).pe = false) ∧
  (∀ (s : State) ovr rm src, s.pe = false → s.readRM ovr rm = .ok src → src.getLsbD 0 = true →
    ∃ t, exec (.lmsw ovr rm) s = .next t ∧ t.pe = true)

/-- No step changes CPL (10_state.md R43, 60_exceptions.md R194), nor the platform's parameters. -/
def Obligations.NoStepChangesThePrivilegeLevel : Prop :=
  ∀ s t : State, step s = .next t → t.cpl = s.cpl ∧ t.plat = s.plat

/-- The MSW changes only through CLTS and LMSW (10_state.md R37), and bits 15:4 never (R33). -/
def Obligations.OnlyCltsAndLmswChangeTheStatusWordRegister : Prop :=
  ∀ s t : State, step s = .next t →
    (∀ i, 4 ≤ i → t.msw.getLsbD i = s.msw.getLsbD i) ∧
    (t.msw ≠ s.msw → ∃ i, s.fetched = .instr i ∧ ((∃ o, i = .clts o) ∨ ∃ o rm, i = .lmsw o rm))

/-- GDTR, IDTR and LDTR change only by LGDT, LIDT and LLDT (10_state.md R39 to R41, 20_memory.md R83). -/
def Obligations.TableRegistersChangeOnlyByTheirLoads : Prop :=
  ∀ s t : State, step s = .next t →
    (t.gdtr ≠ s.gdtr → ∃ o rm, s.fetched = .instr (.lgdt o rm)) ∧
    (t.idtr ≠ s.idtr → ∃ o rm, s.fetched = .instr (.lidt o rm)) ∧
    (t.ldtr ≠ s.ldtr → ∃ o rm, s.fetched = .instr (.lldt o rm))

/-- Code at a level other than 0 in protected mode cannot change the MSW or a table register
(60_exceptions.md R193, R196). -/
def Obligations.LessTrustedCodeCannotChangeTheSystemRegisters : Prop :=
  ∀ s t : State, s.pe = true → s.cpl ≠ 0#2 → step s = .next t → t.msw = s.msw ∧ SameTables s t

/-- DS, SS and ES and their caches never change, and CS only by taking an exception in this step: of the state
before it, or the single-step exception of the state that the instruction left (20_memory.md R83, 10_state.md
R25). That an exception is taken, and does not end the run, rests on logs 11, 12 and 36. -/
def Obligations.SegmentCachesChangeOnlyByTakingAnException : Prop :=
  ∀ s t : State, step s = .next t →
    t.ds = s.ds ∧ t.ss = s.ss ∧ t.es = s.es ∧
    (t.cs ≠ s.cs → (∃ e, s.raise e = .next t) ∨
      ∃ i u, s.fetched = .instr i ∧ exec i s = .next u ∧ u.cs = s.cs ∧ u.raise .singleStep = .next t)

/-- No step changes a status bit but ZF and the three that taking an exception clears: TF, IF, NT
(10_state.md R29). -/
def Obligations.NoStepChangesTheOtherFlags : Prop :=
  ∀ s t : State, step s = .next t →
    ∀ i, i ≠ 6 → i ≠ 8 → i ≠ 9 → i ≠ 14 → t.flags.getLsbD i = s.flags.getLsbD i

/-- Under the 20-bit reading, a step that stays in real address mode changes no byte from 100000h on
(20_memory.md R61, R62). -/
def Obligations.RealModeChangesNothingAboveOneMegabyte : Prop :=
  ∀ s t : State, s.plat.addressModel = .source20BitWrap → s.pe = false → t.pe = false → step s = .next t →
    ∀ a, 2 ^ 20 ≤ a → t.mem.read a = s.mem.read a

/-! ## Encoding -/

/-- Decoding the encoding of a well-formed instruction gives it back, whatever follows (30_encoding.md R91 to
R98, R101). -/
def Obligations.DecodeOfEncodeGivesTheInstruction : Prop :=
  ∀ (i : Instr) (rest : List Byte), i.wf = true → decode (encode i ++ rest) = .instr i

/-- Bytes that decode are the encoding of the instruction they decode to, followed by the rest. -/
def Obligations.DecodedBytesAreTheEncoding : Prop :=
  ∀ (bs : List Byte) (i : Instr), decode bs = .instr i → i.wf = true ∧ ∃ rest, bs = encode i ++ rest

/-- `ilen` (30_encoding.md R102) is the number of bytes of the encoding, 1 to 6. -/
def Obligations.EncodingLengthIsIlen : Prop :=
  ∀ i : Instr, (encode i).length = i.length ∧ 1 ≤ i.length ∧ i.length ≤ 6

/-- Words written out from the encodings of 30_encoding.md and 95_test_vectors.md section 3. -/
def Obligations.WordsOfTheSpecDecode : Prop :=
  decode [0x0F#8, 0x06#8] = .instr (.clts none) ∧
  decode [0x0F#8, 0x01#8, 0x16#8, 0x00#8, 0x05#8] = .instr (.lgdt none (.mem (.direct 0x0500#16))) ∧
  decode [0x26#8, 0x0F#8, 0x01#8, 0x34#8] = .instr (.lmsw (some .es) (.mem (.based .si .none))) ∧
  decode [0x63#8, 0x46#8, 0x06#8] = .instr (.arpl none .ax (.mem (.based .bp (.d8 0x06#8)))) ∧
  decode [0x0F#8, 0x02#8, 0xC2#8] = .instr (.lar none .ax (.reg .dx)) ∧
  decode [0x3E#8, 0x0F#8, 0x00#8, 0x94#8, 0x00#8, 0x80#8] =
    .instr (.lldt (some .ds) (.mem (.based .si (.d16 0x8000#16)))) ∧
  decode [0x9B#8] = .instr (.wait none) ∧
  decode [0xD9#8, 0x06#8, 0x00#8, 0x05#8] = .instr (.esc none 1#3 0#3 (.mem (.direct 0x0500#16)))

/-- The operand of a ModRM byte (30_encoding.md R92 to R94): the register `rm` for mod 11b; the direct address;
else row `rm` of the table plus the sign-extended byte or the little-endian word after it, modulo 2^16. -/
def Obligations.ModRMSelectsTheTabledOperand : Prop :=
  ∀ (s : State) (modrm b0 b1 : Byte) (rest : List Byte),
    (modrm.toNat / 64 = 3 → ∃ r, decodeRM modrm (b0 :: b1 :: rest) = some (.reg r) ∧
      r.bits.toNat = modrm.toNat % 8) ∧
    (modrm.toNat / 64 = 0 → modrm.toNat % 8 = 6 → ∃ m, decodeRM modrm (b0 :: b1 :: rest) = some (.mem m) ∧
      s.effAddr m = b1 ++ b0) ∧
    (modrm.toNat / 64 = 0 → modrm.toNat % 8 ≠ 6 → ∃ m, decodeRM modrm (b0 :: b1 :: rest) = some (.mem m) ∧
      s.effAddr m = eaRow s (modrm.toNat % 8)) ∧
    (modrm.toNat / 64 = 1 → ∃ m, decodeRM modrm (b0 :: b1 :: rest) = some (.mem m) ∧
      s.effAddr m = eaRow s (modrm.toNat % 8) + b0.signExtend 16) ∧
    (modrm.toNat / 64 = 2 → ∃ m, decodeRM modrm (b0 :: b1 :: rest) = some (.mem m) ∧
      s.effAddr m = eaRow s (modrm.toNat % 8) + (b1 ++ b0))

/-- The segment of a memory operand (30_encoding.md R95): SS when the address uses BP, else DS, and the
override in its place; the four override bytes. -/
def Obligations.OperandSegmentIsDefaultOrOverride : Prop :=
  (∀ (modrm b0 b1 : Byte) (rest : List Byte) (m : MemOp), decodeRM modrm (b0 :: b1 :: rest) = some (.mem m) →
    (∀ g, operandSeg (some g) m = g) ∧
    (operandSeg none m =
      if modrm.toNat % 8 = 2 ∨ modrm.toNat % 8 = 3 ∨ (modrm.toNat % 8 = 6 ∧ modrm.toNat / 64 ≠ 0)
      then .ss else .ds)) ∧
  SegName.ofOverride 0x26#8 = some .es ∧ SegName.ofOverride 0x2E#8 = some .cs ∧
  SegName.ofOverride 0x36#8 = some .ss ∧ SegName.ofOverride 0x3E#8 = some .ds

/-- At most one segment override is admitted; LOCK, a repeat byte and a second override are refused by name
(30_encoding.md R101). -/
def Obligations.OnlyOneOverrideByteIsAdmitted : Prop :=
  (∀ (b : Byte) (rest : List Byte), b = 0xF0#8 ∨ b = 0xF2#8 ∨ b = 0xF3#8 →
    decode (b :: rest) = .reject .prefixNotInScope) ∧
  (∀ (o b : Byte) (rest : List Byte), (o = 0x26#8 ∨ o = 0x2E#8 ∨ o = 0x36#8 ∨ o = 0x3E#8) →
    (b = 0x26#8 ∨ b = 0x2E#8 ∨ b = 0x36#8 ∨ b = 0x3E#8 ∨ b = 0xF0#8 ∨ b = 0xF2#8 ∨ b = 0xF3#8) →
    decode (o :: b :: rest) = .reject .prefixNotInScope) ∧
  (∀ g : SegName, decode [g.overrideByte, 0x0F#8, 0x06#8] = .instr (.clts (some g)) ∧
    decode [g.overrideByte, 0x9B#8] = .instr (.wait (some g)))

/-! ## The step -/

/-- A step runs the decoded instruction: what `exec` answers is what the step answers, but that after an
instruction that completed with TF set the single-step exception is taken (60_exceptions.md R181; log 17). -/
def Obligations.StepRunsTheFetchedInstruction : Prop :=
  ∀ (s : State) (i : Instr), s.fetched = .instr i →
    (∀ t, exec i s = .next t → t.tf = false ∨ t.tick = s.tick → step s = .next t) ∧
    (∀ t, exec i s = .next t → t.tf = true → t.tick ≠ s.tick → step s = t.raise .singleStep) ∧
    (∀ f, exec i s = .fault f → step s = .fault f) ∧
    (∀ r, exec i s = .refused r → step s = .refused r)

/-- The instruction whose encoding stands in memory at CS:IP is the one fetched, where the code segment
reaches over it and no recent store has changed bytes the queues hold (20_memory.md R77, R84). Where the bytes so
far are no whole instruction and the next one cannot be fetched, the step stops for that byte (R75 to R77, R79,
60_exceptions.md R182, R188): past offset 0FFFFh with the overrun in real address mode and GP(0) in protected
mode, where the code segment does not give it with GP(0), at a device's with the refusal, and at one that nothing
has written with the fault. -/
def Obligations.TheInstructionAtIpIsFetched : Prop :=
  (∀ (s : State) (i : Instr), i.wf = true → s.queued = [] →
    s.CodeAt (encode i) → s.fetched = .instr i) ∧
  (∀ (s : State) (bs : List Byte), s.queued = [] → bs.length < 6 → s.CodeAt bs → decode bs = .needMore →
    (0xFFFF < s.ip.toNat + bs.length → step s = s.raise (if s.pe then .gp 0#16 else .overrun)) ∧
    (s.ip.toNat + bs.length ≤ 0xFFFF →
      (∀ st, s.segAccess .cs (s.ip + BitVec.ofNat 16 bs.length) 1 .fetch = .error st →
        s.pe = true ∧ step s = s.raise (.gp 0#16)) ∧
      (∀ a, s.segAccess .cs (s.ip + BitVec.ofNat 16 bs.length) 1 .fetch = .ok a →
        (s.isDevice a = true → step s = .refused (.deviceRegion a)) ∧
        (s.isDevice a = false → s.mem.read a = none → step s = .fault (.readOfUndefinedState a)))))

/-- A byte of the instruction stream is the byte in memory, or a value it had when the queues may have read
it; where nothing recent was stored, it is the byte in memory (20_memory.md R80, R84; log 10). -/
def Obligations.FetchedByteIsCurrentOrQueued : Prop :=
  ∀ (s : State) (a : Nat),
    (∀ b, s.codeByte a = .ok b → s.mem.read a = some b ∨ (a, some b) ∈ s.queued) ∧
    ((∀ c ∈ s.queued, c.1 ≠ a) → s.codeByte a = s.readByte a)

/-- Bytes that are no instruction (30_encoding.md R99, R100; 90_conflicts.md C11), with or without an override
before them: another first byte, another second byte after `0F`, `0F 00 /1`, `/3`, `/6`, `/7`, and `0F 01 /5`,
`/7`. Where such bytes stand at CS:IP the step refuses them by name, but that the group `0F 00` raises UD in real
address mode. -/
def Obligations.BytesOutsideTheTableAreRefusedOrUndefined : Prop :=
  (∀ (ovr : Option SegName) (b modrm : Byte) (rest : List Byte),
    (b ∉ [0x0F#8, 0x63#8, 0x9B#8, 0x26#8, 0x2E#8, 0x36#8, 0x3E#8, 0xF0#8, 0xF2#8, 0xF3#8] → b.toNat / 8 ≠ 27 →
      decode (overrideBytes ovr ++ b :: rest) = .reject .opcodeNotInScope) ∧
    (b ∉ [0x00#8, 0x01#8, 0x02#8, 0x03#8, 0x06#8] →
      decode (overrideBytes ovr ++ 0x0F#8 :: b :: rest) = .reject .opcodeNotInScope) ∧
    (modrm.toNat / 8 % 8 ∈ [1, 3, 6, 7] →
      decode (overrideBytes ovr ++ 0x0F#8 :: 0x00#8 :: modrm :: rest) = .reject .group0NotInScope) ∧
    (modrm.toNat / 8 % 8 ∈ [5, 7] →
      decode (overrideBytes ovr ++ 0x0F#8 :: 0x01#8 :: modrm :: rest) = .reject .opcodeNotInScope)) ∧
  (∀ (s : State) (bs : List Byte) (r : Reject), s.queued = [] → bs.length ≤ 6 → s.CodeAt bs →
    decode bs = .reject r →
    step s = match r with
      | .opcodeNotInScope => .refused .opcodeNotInScope
      | .prefixNotInScope => .refused .prefixNotInScope
      | .group0NotInScope => if s.pe then .refused .opcodeNotInScope else s.raise .ud) ∧
  ∀ s : State,
    (s.fetched = .rejected .opcodeNotInScope → step s = .refused .opcodeNotInScope) ∧
    (s.fetched = .rejected .prefixNotInScope → step s = .refused .prefixNotInScope) ∧
    (s.fetched = .rejected .group0NotInScope → s.pe = false → step s = s.raise .ud) ∧
    (s.fetched = .rejected .group0NotInScope → s.pe = true → step s = .refused .opcodeNotInScope)

/-! ## Memory -/

/-- Bytes stored are the bytes read back, and no other byte changes (20_memory.md R72, R75, R80): a word has
its low byte at the lower address. The store is performed where no byte is a device's or immutable text; else it
is refused for the first that is (R79, R84; logs 19, 36). -/
def Obligations.StoredBytesReadBack : Prop :=
  (∀ (s t : State) (a : Nat) (bs : List Byte), bs.length ≤ 2 ^ 20 → s.memWrite a bs = .ok t →
    StoredAt s t a bs ∧ t.memRead a bs.length = .ok bs) ∧
  (∀ (s : State) (a : Nat) (bs : List Byte),
    (s.storableSpan a bs.length → ∃ t, s.memWrite a bs = .ok t) ∧
    (∀ k x, k < bs.length → x = (a + k) % s.addressSpace → s.storableSpan a k →
      (s.isDevice x = true → s.memWrite a bs = .error (.refuse (.deviceRegion x))) ∧
      (s.isDevice x = false → s.isText x = true → s.memWrite a bs = .error (.refuse (.writeToProgramText x))))) ∧
  (∀ w : Word, leBytes 2 w.toNat = [w.extractLsb' 0 8, w.extractLsb' 8 8] ∧
    leWord [w.extractLsb' 0 8, w.extractLsb' 8 8] = w)

/-- The segmented access in real address mode (20_memory.md R62, R76): vector 13 without an error code when
the bytes run past offset 0FFFFh, else the address of each model, and no other check. -/
def Obligations.RealModeAccessChecksOnlyTheOffset : Prop :=
  ∀ (s : State) (g : SegName) (off : Word) (n : Nat) (k : Access), 1 ≤ n → s.pe = false →
    (0xFFFF < off.toNat + n - 1 → s.segAccess g off n k = .error (.exc .overrun)) ∧
    (off.toNat + n - 1 ≤ 0xFFFF → s.plat.addressModel = .source20BitWrap →
      s.segAccess g off n k = .ok (((s.seg g).sel.toNat * 16 + off.toNat) % 2 ^ 20)) ∧
    (off.toNat + n - 1 ≤ 0xFFFF → s.plat.addressModel = .chipCacheBase →
      s.segAccess g off n k = .ok (((s.seg g).base.toNat + off.toNat) % 2 ^ 24))

/-- The segmented access in protected mode (20_memory.md R65, R76) succeeds exactly when its four checks
pass, at cache base plus offset modulo 2^24. The first check that fails gives the exception: the range, the
write type and the limit SS(0) through SS and GP(0) through another, the rest GP(0) through any. -/
def Obligations.ProtectedAccessSucceedsExactlyWhenChecksPass : Prop :=
  ∀ (s : State) (g : SegName) (off : Word) (n : Nat) (k : Access), 1 ≤ n → s.pe = true →
    (∀ a, s.segAccess g off n k = .ok a ↔
      a = ((s.seg g).base.toNat + off.toNat) % 2 ^ 24 ∧ off.toNat + n - 1 ≤ 0xFFFF ∧ (s.seg g).valid = true ∧
      (k = .write → (s.seg g).access.getLsbD 4 = true ∧ (s.seg g).access.getLsbD 3 = false ∧
        (s.seg g).access.getLsbD 1 = true) ∧
      (k = .read → (s.seg g).access.getLsbD 3 = false ∨ (s.seg g).access.getLsbD 1 = true) ∧
      (k = .fetch → (s.seg g).access.getLsbD 3 = true) ∧
      (if (s.seg g).access.getLsbD 3 = false ∧ (s.seg g).access.getLsbD 2 = true
        then (s.seg g).limit.toNat < off.toNat else off.toNat + n - 1 ≤ (s.seg g).limit.toNat)) ∧
    (∀ e, s.segAccess g off n k = .error e → e = .exc (.gp 0#16) ∨ (g = .ss ∧ e = .exc (.ss 0#16))) ∧
    (0xFFFF < off.toNat + n - 1 →
      s.segAccess g off n k = .error (.exc (if g = .ss then .ss 0#16 else .gp 0#16))) ∧
    (off.toNat + n - 1 ≤ 0xFFFF →
      ((s.seg g).valid = false → s.segAccess g off n k = .error (.exc (.gp 0#16))) ∧
      ((s.seg g).valid = true →
        (k = .write → ¬ ((s.seg g).access.getLsbD 4 = true ∧ (s.seg g).access.getLsbD 3 = false ∧
            (s.seg g).access.getLsbD 1 = true) →
          s.segAccess g off n k = .error (.exc (if g = .ss then .ss 0#16 else .gp 0#16))) ∧
        (k = .read → (s.seg g).access.getLsbD 3 = true → (s.seg g).access.getLsbD 1 = false →
          s.segAccess g off n k = .error (.exc (.gp 0#16))) ∧
        (k = .fetch → (s.seg g).access.getLsbD 3 = false → s.segAccess g off n k = .error (.exc (.gp 0#16))) ∧
        ((k = .write → (s.seg g).access.getLsbD 4 = true ∧ (s.seg g).access.getLsbD 3 = false ∧
            (s.seg g).access.getLsbD 1 = true) →
          (k = .read → (s.seg g).access.getLsbD 3 = false ∨ (s.seg g).access.getLsbD 1 = true) →
          (k = .fetch → (s.seg g).access.getLsbD 3 = true) →
          ¬ (if (s.seg g).access.getLsbD 3 = false ∧ (s.seg g).access.getLsbD 2 = true
            then (s.seg g).limit.toNat < off.toNat else off.toNat + n - 1 ≤ (s.seg g).limit.toNat) →
          s.segAccess g off n k = .error (.exc (if g = .ss then .ss 0#16 else .gp 0#16)))))

/-- A read through a segment in real address mode answers the bytes memory holds (20_memory.md R75, R76). -/
def Obligations.RealModeOperandReadsItsBytes : Prop :=
  ∀ (s : State) (g : SegName) (off : Word) (n : Nat), 1 ≤ n → s.pe = false → off.toNat + n - 1 ≤ 0xFFFF →
    s.readableSpan (s.realAddress g off) n →
    ∃ bs, s.segRead g off n = .ok bs ∧ (s.span (s.realAddress g off) n).map s.mem.read = bs.map some

/-- The selector's fields (20_memory.md R66): index, table indicator and RPL make it up, and the null
selectors are 0000h to 0003h. -/
def Obligations.SelectorIsIndexTableAndRpl : Prop :=
  ∀ sel : Word,
    sel.toNat = 8 * (selIndex sel).toNat + 4 * (selTI sel).toNat + (selRPL sel).toNat ∧
    (selIsNull sel = true ↔ sel.toNat ≤ 3)

/-- `FetchDesc` (20_memory.md R67, R70): null; out of table; or the limit, base and access byte of the
descriptor's bytes 0 to 5. -/
def Obligations.DescriptorLookupFollowsTheTables : Prop :=
  ∀ (s : State) (sel : Word),
    (sel.toNat ≤ 3 → s.fetchDesc sel = .ok .null) ∧
    (selTI sel = true → s.ldtr.valid = false → s.fetchDesc sel = .ok .outOfTable) ∧
    (3 < sel.toNat → selTI sel = false → s.gdtr.limit.toNat < 8 * (sel.toNat / 8) + 7 →
      s.fetchDesc sel = .ok .outOfTable) ∧
    (selTI sel = true → s.ldtr.valid = true → s.ldtr.limit.toNat < 8 * (sel.toNat / 8) + 7 →
      s.fetchDesc sel = .ok .outOfTable) ∧
    (∀ (a : Nat) (b0 b1 b2 b3 b4 b5 : Byte), 3 < sel.toNat →
      (selTI sel = false ∧ 8 * (sel.toNat / 8) + 7 ≤ s.gdtr.limit.toNat ∧
          a = (s.gdtr.base.toNat + 8 * (sel.toNat / 8)) % 2 ^ 24 ∨
        selTI sel = true ∧ s.ldtr.valid = true ∧ 8 * (sel.toNat / 8) + 7 ≤ s.ldtr.limit.toNat ∧
          a = (s.ldtr.base.toNat + 8 * (sel.toNat / 8)) % 2 ^ 24) →
      s.plainSpan a 6 → (s.span a 6).map s.mem.read = [b0, b1, b2, b3, b4, b5].map some →
      s.fetchDesc sel = .ok (.desc { limit := b1 ++ b0, base := b4 ++ b3 ++ b2, access := b5 }))

/-- The byte halves alias the registers: AX, CX, DX and BX are their H half above their L half; a half written
is read back, and no other half and no other register changes. Which bits a half is, and that it aliases the
whole, is the spec's own inference from D0's figure (10_state.md R21). -/
def Obligations.ByteHalvesAliasTheRegisters : Prop :=
  (∀ g : Gpr, g.ax = g.getByte .ah ++ g.getByte .al ∧ g.cx = g.getByte .ch ++ g.getByte .cl ∧
    g.dx = g.getByte .dh ++ g.getByte .dl ∧ g.bx = g.getByte .bh ++ g.getByte .bl) ∧
  (∀ (g : Gpr) (r q : Reg8) (b : Byte), (g.setByte r b).getByte q = if q = r then b else g.getByte q) ∧
  (∀ (g : Gpr) (r : Reg8) (b : Byte), (g.setByte r b).sp = g.sp ∧ (g.setByte r b).bp = g.bp ∧
    (g.setByte r b).si = g.si ∧ (g.setByte r b).di = g.di)

/-! ## Machine status word instructions -/

/-- CLTS (40_system_table_and_msw.md R121), `0F 06`: TS becomes 0 and nothing else changes; GP(0) in protected
mode at a level other than 0. -/
def Obligations.CltsClearsTaskSwitched : Prop :=
  encode (.clts none) = [0x0F#8, 0x06#8] ∧ ∀ (s : State) (ovr : Option SegName),
    (s.privileged → ∃ t, exec (.clts ovr) s = .next t ∧ Completed (.clts ovr) s t ∧
      (∀ i, t.msw.getLsbD i = if i = 3 then false else s.msw.getLsbD i) ∧ t.unflushed = s.unflushed ∧
      t.gpr = s.gpr ∧ t.flags = s.flags ∧ SameTables s t ∧ SameMemory s t) ∧
    (s.pe = true → s.cpl ≠ 0#2 → exec (.clts ovr) s = s.raise (.gp 0#16))

/-- LMSW (40_system_table_and_msw.md R128), `0F 01 /6` (30_encoding.md R97): PE is set by bit 0 and never
cleared; MP, EM, TS are bits 1 to 3; bits 15:4 stay; setting PE marks `unflushed`; nothing else changes. -/
def Obligations.LmswLoadsTheLowFourBits : Prop :=
  (∀ (ovr : Option SegName) (rm : RM),
    encode (.lmsw ovr rm) = overrideBytes ovr ++ [0x0F#8, 0x01#8] ++ rm.encode 6#3) ∧
  ∀ (s : State) (ovr : Option SegName) (rm : RM) (src : Word), s.readRM ovr rm = .ok src →
    (s.privileged → ∃ t, exec (.lmsw ovr rm) s = .next t ∧ Completed (.lmsw ovr rm) s t ∧
      t.pe = (s.pe || src.getLsbD 0) ∧ t.mp = src.getLsbD 1 ∧ t.em = src.getLsbD 2 ∧ t.ts = src.getLsbD 3 ∧
      (∀ i, 4 ≤ i → t.msw.getLsbD i = s.msw.getLsbD i) ∧
      (t.unflushed = true ↔ s.unflushed = true ∨ (s.pe = false ∧ t.pe = true)) ∧
      t.gpr = s.gpr ∧ t.flags = s.flags ∧ SameTables s t ∧ SameMemory s t) ∧
    (s.pe = true → s.cpl ≠ 0#2 → exec (.lmsw ovr rm) s = s.raise (.gp 0#16))

/-- SMSW (40_system_table_and_msw.md R129), `0F 01 /4`, stores the MSW in a register or a word of memory, at any
level in either mode, and changes nothing else; a word that may not be written is its exception. -/
def Obligations.SmswStoresTheStatusWordRegister : Prop :=
  ∀ (s : State) (ovr : Option SegName),
    (∀ r, ∃ t, exec (.smsw ovr (.reg r)) s = .next t ∧ Completed (.smsw ovr (.reg r)) s t ∧
      OnlyReg s t r s.msw ∧ t.flags = s.flags ∧ SameMode s t ∧ SameTables s t ∧ SameMemory s t) ∧
    (∀ m a, s.segAccess (operandSeg ovr m) (s.effAddr m) 2 .write = .ok a → s.storableSpan a 2 →
      ∃ t, exec (.smsw ovr (.mem m)) s = .next t ∧ Completed (.smsw ovr (.mem m)) s t ∧
        StoredAt s t a [s.msw.extractLsb' 0 8, s.msw.extractLsb' 8 8] ∧ SameRegisters s t) ∧
    (∀ m e, s.segAccess (operandSeg ovr m) (s.effAddr m) 2 .write = .error (.exc e) →
      exec (.smsw ovr (.mem m)) s = s.raise e) ∧
    (∀ rm, encode (.smsw ovr rm) = overrideBytes ovr ++ [0x0F#8, 0x01#8] ++ rm.encode 4#3)

/-! ## Descriptor-table register instructions -/

/-- LGDT and LIDT (40_system_table_and_msw.md R122, R124), `0F 01 /2` and `/3`, load limit and base from the
image's bytes 0 to 4, ignore byte 5, and change nothing else; UD for a register, GP(0) in protected mode at a
level other than 0, and the exception of an operand that may not be read. -/
def Obligations.LgdtAndLidtLoadTheTableRegister : Prop :=
  ∀ (s : State) (ovr : Option SegName) (m : MemOp),
    (∀ b0 b1 b2 b3 b4 b5 : Byte, s.privileged →
      s.segRead (operandSeg ovr m) (s.effAddr m) 6 = .ok [b0, b1, b2, b3, b4, b5] →
      (∃ t, exec (.lgdt ovr (.mem m)) s = .next t ∧ Completed (.lgdt ovr (.mem m)) s t ∧
        t.gdtr.limit = b1 ++ b0 ∧ t.gdtr.base = b4 ++ b3 ++ b2 ∧ t.idtr = s.idtr ∧ t.ldtr = s.ldtr ∧
        t.gpr = s.gpr ∧ t.flags = s.flags ∧ SameMode s t ∧ SameMemory s t) ∧
      (∃ t, exec (.lidt ovr (.mem m)) s = .next t ∧ Completed (.lidt ovr (.mem m)) s t ∧
        t.idtr.limit = b1 ++ b0 ∧ t.idtr.base = b4 ++ b3 ++ b2 ∧ t.gdtr = s.gdtr ∧ t.ldtr = s.ldtr ∧
        t.gpr = s.gpr ∧ t.flags = s.flags ∧ SameMode s t ∧ SameMemory s t)) ∧
    (∀ r, exec (.lgdt ovr (.reg r)) s = s.raise .ud ∧ exec (.lidt ovr (.reg r)) s = s.raise .ud) ∧
    (s.pe = true → s.cpl ≠ 0#2 →
      exec (.lgdt ovr (.mem m)) s = s.raise (.gp 0#16) ∧ exec (.lidt ovr (.mem m)) s = s.raise (.gp 0#16)) ∧
    (∀ e, s.privileged → s.segAccess (operandSeg ovr m) (s.effAddr m) 6 .read = .error (.exc e) →
      exec (.lgdt ovr (.mem m)) s = s.raise e ∧ exec (.lidt ovr (.mem m)) s = s.raise e) ∧
    encode (.lgdt ovr (.mem m)) = overrideBytes ovr ++ [0x0F#8, 0x01#8] ++ (RM.mem m).encode 2#3 ∧
    encode (.lidt ovr (.mem m)) = overrideBytes ovr ++ [0x0F#8, 0x01#8] ++ (RM.mem m).encode 3#3

/-- SGDT and SIDT (40_system_table_and_msw.md R123, R125), `0F 01 /0` and `/1` (30_encoding.md R97), store limit,
base and one byte of any value (log 7), at any level in either mode, and change nothing else. -/
def Obligations.SgdtAndSidtStoreTheTableRegister : Prop :=
  (∀ (ovr : Option SegName) (rm : RM),
    encode (.sgdt ovr rm) = overrideBytes ovr ++ [0x0F#8, 0x01#8] ++ rm.encode 0#3 ∧
    encode (.sidt ovr rm) = overrideBytes ovr ++ [0x0F#8, 0x01#8] ++ rm.encode 1#3) ∧
  ∀ (s : State) (ovr : Option SegName) (m : MemOp) (a : Nat),
    s.segAccess (operandSeg ovr m) (s.effAddr m) 6 .write = .ok a → s.storableSpan a 6 →
    (∃ t b5, exec (.sgdt ovr (.mem m)) s = .next t ∧ Completed (.sgdt ovr (.mem m)) s t ∧
      StoredAt s t a [s.gdtr.limit.extractLsb' 0 8, s.gdtr.limit.extractLsb' 8 8, s.gdtr.base.extractLsb' 0 8,
        s.gdtr.base.extractLsb' 8 8, s.gdtr.base.extractLsb' 16 8, b5] ∧ SameRegisters s t) ∧
    (∃ t b5, exec (.sidt ovr (.mem m)) s = .next t ∧ Completed (.sidt ovr (.mem m)) s t ∧
      StoredAt s t a [s.idtr.limit.extractLsb' 0 8, s.idtr.limit.extractLsb' 8 8, s.idtr.base.extractLsb' 0 8,
        s.idtr.base.extractLsb' 8 8, s.idtr.base.extractLsb' 16 8, b5] ∧ SameRegisters s t)

/-- LLDT (40_system_table_and_msw.md R126), `0F 00 /2` (30_encoding.md R97), of a null selector marks LDTR
invalid; of a selector of a present LDT descriptor of the global table it loads LDTR; and nothing else changes. -/
def Obligations.LldtLoadsTheLocalTableRegister : Prop :=
  (∀ (ovr : Option SegName) (rm : RM),
    encode (.lldt ovr rm) = overrideBytes ovr ++ [0x0F#8, 0x00#8] ++ rm.encode 2#3) ∧
  ∀ (s : State) (ovr : Option SegName) (rm : RM) (sel : Word), s.protectedReady → s.cpl = 0#2 →
    s.readRM ovr rm = .ok sel →
    (sel.toNat ≤ 3 → ∃ t, exec (.lldt ovr rm) s = .next t ∧ Completed (.lldt ovr rm) s t ∧
      t.ldtr = { s.ldtr with sel := sel, valid := false } ∧ t.gdtr = s.gdtr ∧ t.idtr = s.idtr ∧
      t.gpr = s.gpr ∧ t.flags = s.flags ∧ SameMode s t ∧ SameMemory s t) ∧
    (∀ d, 3 < sel.toNat → selTI sel = false → s.fetchDesc sel = .ok (.desc d) → d.access.getLsbD 4 = false →
      d.access.toNat % 16 = 2 → d.access.getLsbD 7 = true →
      ∃ t, exec (.lldt ovr rm) s = .next t ∧ Completed (.lldt ovr rm) s t ∧
        t.ldtr = { sel := sel, base := d.base, limit := d.limit, valid := true } ∧
        t.gdtr = s.gdtr ∧ t.idtr = s.idtr ∧ t.gpr = s.gpr ∧ t.flags = s.flags ∧ SameMode s t ∧ SameMemory s t)

/-- LLDT's selector checks (40_system_table_and_msw.md R126, 60_exceptions.md R183): GP or NP with the
selector, its two low bits cleared. -/
def Obligations.LldtChecksItsSelector : Prop :=
  ∀ (s : State) (ovr : Option SegName) (rm : RM) (sel : Word), s.protectedReady → s.cpl = 0#2 →
    s.readRM ovr rm = .ok sel →
    (selTI sel = true → exec (.lldt ovr rm) s = s.raise (.gp (sel &&& 0xFFFC#16))) ∧
    (selTI sel = false → s.fetchDesc sel = .ok .outOfTable →
      exec (.lldt ovr rm) s = s.raise (.gp (sel &&& 0xFFFC#16))) ∧
    (∀ d, selTI sel = false → s.fetchDesc sel = .ok (.desc d) →
      (d.access.getLsbD 4 = true ∨ d.access.toNat % 16 ≠ 2 →
        exec (.lldt ovr rm) s = s.raise (.gp (sel &&& 0xFFFC#16))) ∧
      (d.access.getLsbD 4 = false → d.access.toNat % 16 = 2 → d.access.getLsbD 7 = false →
        exec (.lldt ovr rm) s = s.raise (.np (sel &&& 0xFFFC#16))))

/-- SLDT (40_system_table_and_msw.md R127), `0F 00 /0` (30_encoding.md R97), stores LDTR's visible selector in a
register or a word of memory, at any level, and changes nothing else. -/
def Obligations.SldtStoresTheLocalTableSelector : Prop :=
  (∀ (ovr : Option SegName) (rm : RM),
    encode (.sldt ovr rm) = overrideBytes ovr ++ [0x0F#8, 0x00#8] ++ rm.encode 0#3) ∧
  ∀ (s : State) (ovr : Option SegName), s.protectedReady →
    (∀ r, ∃ t, exec (.sldt ovr (.reg r)) s = .next t ∧ Completed (.sldt ovr (.reg r)) s t ∧
      OnlyReg s t r s.ldtr.sel ∧ t.flags = s.flags ∧ SameMode s t ∧ SameTables s t ∧ SameMemory s t) ∧
    (∀ m a, s.segAccess (operandSeg ovr m) (s.effAddr m) 2 .write = .ok a → s.storableSpan a 2 →
      ∃ t, exec (.sldt ovr (.mem m)) s = .next t ∧ Completed (.sldt ovr (.mem m)) s t ∧
        StoredAt s t a [s.ldtr.sel.extractLsb' 0 8, s.ldtr.sel.extractLsb' 8 8] ∧ SameRegisters s t)

/-! ## Instructions that test selectors -/

/-- LAR (41_access_checking.md R141): the access byte in bits 15:8 and ZF = 1 for an accepted, visible
descriptor; else ZF = 0 and no register changes. Whether types 6 and 7 are accepted is free (log 8). UD in real
address mode; a memory operand that may not be read is its exception. -/
def Obligations.LarLoadsAccessRights : Prop :=
  (∀ (s : State) (ovr : Option SegName) (reg : Reg16), OperandTraps s ovr (.lar ovr reg) .read ∧
    ∀ rm, encode (.lar ovr reg rm) = overrideBytes ovr ++ [0x0F#8, 0x02#8] ++ rm.encode reg.bits) ∧
  ∀ (s : State) (ovr : Option SegName) (reg : Reg16) (rm : RM) (sel : Word) (l : Lookup), s.protectedReady →
    s.readRM ovr rm = .ok sel → s.fetchDesc sel = .ok l →
    (∀ d, l = .desc d → LarAccepts d.access → Visible d.access s.cpl (sel.extractLsb' 0 2) →
      ∃ t, exec (.lar ovr reg rm) s = .next t ∧ Completed (.lar ovr reg rm) s t ∧
        OnlyReg s t reg (d.access ++ 0#8) ∧ OnlyZF s t true ∧ SameMode s t ∧ SameTables s t ∧ SameMemory s t) ∧
    (¬ Names l (fun d => LarAccepts d.access ∧ Visible d.access s.cpl (sel.extractLsb' 0 2)) →
      ∃ t, exec (.lar ovr reg rm) s = .next t ∧ Completed (.lar ovr reg rm) s t ∧
        t.gpr = s.gpr ∧ OnlyZF s t false ∧ SameMode s t ∧ SameTables s t ∧ SameMemory s t)

/-- LSL (41_access_checking.md R142): the limit and ZF = 1 for an accepted, visible descriptor; else
ZF = 0 and no register changes. UD in real address mode; a memory operand that may not be read is its exception. -/
def Obligations.LslLoadsTheSegmentLimit : Prop :=
  (∀ (s : State) (ovr : Option SegName) (reg : Reg16), OperandTraps s ovr (.lsl ovr reg) .read ∧
    ∀ rm, encode (.lsl ovr reg rm) = overrideBytes ovr ++ [0x0F#8, 0x03#8] ++ rm.encode reg.bits) ∧
  ∀ (s : State) (ovr : Option SegName) (reg : Reg16) (rm : RM) (sel : Word) (l : Lookup), s.protectedReady →
    s.readRM ovr rm = .ok sel → s.fetchDesc sel = .ok l →
    (∀ d, l = .desc d → LslAccepts d.access → Visible d.access s.cpl (sel.extractLsb' 0 2) →
      ∃ t, exec (.lsl ovr reg rm) s = .next t ∧ Completed (.lsl ovr reg rm) s t ∧
        OnlyReg s t reg d.limit ∧ OnlyZF s t true ∧ SameMode s t ∧ SameTables s t ∧ SameMemory s t) ∧
    (¬ Names l (fun d => LslAccepts d.access ∧ Visible d.access s.cpl (sel.extractLsb' 0 2)) →
      ∃ t, exec (.lsl ovr reg rm) s = .next t ∧ Completed (.lsl ovr reg rm) s t ∧
        t.gpr = s.gpr ∧ OnlyZF s t false ∧ SameMode s t ∧ SameTables s t ∧ SameMemory s t)

/-- VERR (41_access_checking.md R145): ZF says whether the selector names a visible data segment or
readable code segment, and nothing else changes. UD and operand exceptions as for LAR. -/
def Obligations.VerrSetsZfForAReadableSegment : Prop :=
  (∀ (s : State) (ovr : Option SegName), OperandTraps s ovr (.verr ovr) .read ∧
    ∀ rm, encode (.verr ovr rm) = overrideBytes ovr ++ [0x0F#8, 0x00#8] ++ rm.encode 4#3) ∧
  ∀ (s : State) (ovr : Option SegName) (rm : RM) (sel : Word) (l : Lookup), s.protectedReady →
    s.readRM ovr rm = .ok sel → s.fetchDesc sel = .ok l →
    ∃ t b, exec (.verr ovr rm) s = .next t ∧ Completed (.verr ovr rm) s t ∧ OnlyZF s t b ∧
      (b = true ↔ Names l (fun d => VerrAccepts d.access ∧ Visible d.access s.cpl (sel.extractLsb' 0 2))) ∧
      t.gpr = s.gpr ∧ SameMode s t ∧ SameTables s t ∧ SameMemory s t

/-- VERW (41_access_checking.md R146): ZF says whether the selector names a writable data segment at a level
it may use, and nothing else changes. UD and operand exceptions as for LAR. -/
def Obligations.VerwSetsZfForAWritableSegment : Prop :=
  (∀ (s : State) (ovr : Option SegName), OperandTraps s ovr (.verw ovr) .read ∧
    ∀ rm, encode (.verw ovr rm) = overrideBytes ovr ++ [0x0F#8, 0x00#8] ++ rm.encode 5#3) ∧
  ∀ (s : State) (ovr : Option SegName) (rm : RM) (sel : Word) (l : Lookup), s.protectedReady →
    s.readRM ovr rm = .ok sel → s.fetchDesc sel = .ok l →
    ∃ t b, exec (.verw ovr rm) s = .next t ∧ Completed (.verw ovr rm) s t ∧ OnlyZF s t b ∧
      (b = true ↔ Names l (fun d => VerwAccepts d.access s.cpl (sel.extractLsb' 0 2))) ∧
      t.gpr = s.gpr ∧ SameMode s t ∧ SameTables s t ∧ SameMemory s t

/-- ARPL (41_access_checking.md R144): where the destination's RPL is below the source's, it is raised and
ZF = 1; else ZF = 0 and the destination is not written; nothing else changes. UD in real address mode. That a
destination that may not be written is its exception, whatever the levels, is the spec's decision D11 (log 24). -/
def Obligations.ArplRaisesTheRequestedPrivilegeLevel : Prop :=
  (∀ (s : State) (ovr : Option SegName) (reg : Reg16), OperandTraps s ovr (.arpl ovr reg) .write ∧
    ∀ rm, encode (.arpl ovr reg rm) = overrideBytes ovr ++ [0x63#8] ++ rm.encode reg.bits) ∧
  ∀ (s : State) (ovr : Option SegName) (reg : Reg16) (rm : RM) (dst : Word), s.protectedReady →
    s.readRM ovr rm = .ok dst →
    (dst.toNat % 4 < (s.reg reg).toNat % 4 →
      (∀ r, rm = .reg r → ∃ t, exec (.arpl ovr reg rm) s = .next t ∧ Completed (.arpl ovr reg rm) s t ∧
        OnlyReg s t r (dst.extractLsb' 2 14 ++ (s.reg reg).extractLsb' 0 2) ∧ OnlyZF s t true ∧
        SameMode s t ∧ SameTables s t ∧ SameMemory s t) ∧
      (∀ m a, rm = .mem m → s.segAccess (operandSeg ovr m) (s.effAddr m) 2 .write = .ok a → s.storableSpan a 2 →
        ∃ t, exec (.arpl ovr reg rm) s = .next t ∧ Completed (.arpl ovr reg rm) s t ∧
          StoredAt s t a (wordBytes (dst.extractLsb' 2 14 ++ (s.reg reg).extractLsb' 0 2)) ∧
          OnlyZF s t true ∧ t.gpr = s.gpr ∧ SameMode s t ∧ SameTables s t)) ∧
    ((s.reg reg).toNat % 4 ≤ dst.toNat % 4 →
      (∀ m, rm = .mem m → ∃ a, s.segAccess (operandSeg ovr m) (s.effAddr m) 2 .write = .ok a) →
      ∃ t, exec (.arpl ovr reg rm) s = .next t ∧ Completed (.arpl ovr reg rm) s t ∧
        t.gpr = s.gpr ∧ OnlyZF s t false ∧ SameMode s t ∧ SameTables s t ∧ SameMemory s t)

/-- What LAR, LSL, VERR and VERW make of a descriptor the code may not see does not depend on the
descriptor: less trusted code learns nothing of it (60_exceptions.md R196, 41_access_checking.md R140). -/
def Obligations.InvisibleDescriptorRevealsNothing : Prop :=
  ∀ (s : State) (mem' : Memory) (ovr : Option SegName) (reg : Reg16) (rm : RM) (sel : Word) (d d' : Descriptor),
    s.protectedReady → s.readRM ovr rm = .ok sel → ({ s with mem := mem' }).readRM ovr rm = .ok sel →
    s.fetchDesc sel = .ok (.desc d) → ({ s with mem := mem' }).fetchDesc sel = .ok (.desc d') →
    ¬ Visible d.access s.cpl (sel.extractLsb' 0 2) → ¬ Visible d'.access s.cpl (sel.extractLsb' 0 2) →
    ∀ i, i = Instr.lar ovr reg rm ∨ i = Instr.lsl ovr reg rm ∨ i = Instr.verr ovr rm ∨ i = Instr.verw ovr rm →
      ∃ t, exec i s = .next t ∧ exec i { s with mem := mem' } = .next { t with mem := mem' }

/-! ## Where instructions trap -/

/-- In real address mode the protected-mode-only instructions raise UD (30_encoding.md R99). -/
def Obligations.ProtectedOnlyInstructionsAreUndefinedInRealMode : Prop :=
  ∀ (s : State) (i : Instr), s.pe = false → protectedOnly i → exec i s = s.raise .ud

/-- LGDT, SGDT, LIDT and SIDT with a register operand raise UD in both modes (30_encoding.md R99). -/
def Obligations.TableInstructionsWithARegisterAreUndefined : Prop :=
  ∀ (s : State) (ovr : Option SegName) (r : Reg16),
    exec (.lgdt ovr (.reg r)) s = s.raise .ud ∧ exec (.sgdt ovr (.reg r)) s = s.raise .ud ∧
    exec (.lidt ovr (.reg r)) s = s.raise .ud ∧ exec (.sidt ovr (.reg r)) s = s.raise .ud

/-- The privileged instructions raise GP(0) in protected mode at a level other than 0, before the operand is
read (40_system_table_and_msw.md R120, 60_exceptions.md R188, R193). -/
def Obligations.PrivilegedInstructionsTrapAtOtherLevels : Prop :=
  ∀ (s : State) (ovr : Option SegName) (rm : RM) (m : MemOp), s.pe = true → s.cpl ≠ 0#2 →
    exec (.clts ovr) s = s.raise (.gp 0#16) ∧ exec (.lmsw ovr rm) s = s.raise (.gp 0#16) ∧
    exec (.lgdt ovr (.mem m)) s = s.raise (.gp 0#16) ∧ exec (.lidt ovr (.mem m)) s = s.raise (.gp 0#16) ∧
    (s.unflushed = false → exec (.lldt ovr rm) s = s.raise (.gp 0#16))

/-- An exception on the memory operand is the instruction's exception, and nothing is read or written
(20_memory.md R76, 60_exceptions.md R182, R189). An instruction whose store is refused, for a device's byte or for
immutable program text (20_memory.md R79, R84; logs 19, 36), is refused for the first such byte; ARPL reads its
destination first, and is refused for a device's byte there. -/
def Obligations.OperandExceptionsAreTaken : Prop :=
  ∀ (s : State) (ovr : Option SegName) (reg : Reg16) (m : MemOp) (e : Exc),
    (s.segAccess (operandSeg ovr m) (s.effAddr m) 6 .read = .error (.exc e) → s.privileged →
      exec (.lgdt ovr (.mem m)) s = s.raise e ∧ exec (.lidt ovr (.mem m)) s = s.raise e) ∧
    (s.segAccess (operandSeg ovr m) (s.effAddr m) 6 .write = .error (.exc e) →
      exec (.sgdt ovr (.mem m)) s = s.raise e ∧ exec (.sidt ovr (.mem m)) s = s.raise e) ∧
    (s.segAccess (operandSeg ovr m) (s.effAddr m) 2 .read = .error (.exc e) →
      (s.privileged → exec (.lmsw ovr (.mem m)) s = s.raise e) ∧
      (s.protectedReady → (s.cpl = 0#2 → exec (.lldt ovr (.mem m)) s = s.raise e) ∧
        exec (.lar ovr reg (.mem m)) s = s.raise e ∧ exec (.lsl ovr reg (.mem m)) s = s.raise e ∧
        exec (.verr ovr (.mem m)) s = s.raise e ∧ exec (.verw ovr (.mem m)) s = s.raise e)) ∧
    (s.segAccess (operandSeg ovr m) (s.effAddr m) 2 .write = .error (.exc e) →
      exec (.smsw ovr (.mem m)) s = s.raise e ∧
      (s.protectedReady → exec (.sldt ovr (.mem m)) s = s.raise e ∧
        exec (.arpl ovr reg (.mem m)) s = s.raise e)) ∧
    (∀ a r, s.segAccess (operandSeg ovr m) (s.effAddr m) 6 .write = .ok a → s.StoreRefused a 6 r →
      exec (.sgdt ovr (.mem m)) s = .refused r ∧ exec (.sidt ovr (.mem m)) s = .refused r) ∧
    (∀ a r, s.segAccess (operandSeg ovr m) (s.effAddr m) 2 .write = .ok a → s.StoreRefused a 2 r →
      exec (.smsw ovr (.mem m)) s = .refused r ∧
      (s.protectedReady → exec (.sldt ovr (.mem m)) s = .refused r ∧
        (∀ dst, s.readRM ovr (.mem m) = .ok dst → dst.toNat % 4 < (s.reg reg).toNat % 4 →
          exec (.arpl ovr reg (.mem m)) s = .refused r))) ∧
    (∀ a k, s.segAccess (operandSeg ovr m) (s.effAddr m) 2 .write = .ok a →
      s.segAccess (operandSeg ovr m) (s.effAddr m) 2 .read = .ok a → k < 2 → s.readableSpan a k →
      s.isDevice ((a + k) % s.addressSpace) = true → s.protectedReady →
      exec (.arpl ovr reg (.mem m)) s = .refused (.deviceRegion ((a + k) % s.addressSpace)))

/-- A protected-mode-only instruction after PE was set and before the queues are emptied. The spec refuses it
(70_reset_and_hazards.md R223, D28), and so does the model under the spec's rulings. By the model's own choice
(logs 9, 36) under the chip's rulings it either raises UD, as decoded before the switch, or does what it does once
the queues are emptied: it completes, with the mark still set, or stops for the same reason. For SLDT to a
register the effect is written out. -/
def Obligations.UnflushedInstructionTrapsOrRuns : Prop :=
  ∀ s : State, s.pe = true → s.unflushed = true →
    (s.plat.rulings = .spec → ∀ i, protectedOnly i → exec i s = .refused .noQueueFlushAfterPE) ∧
    (s.plat.rulings = .chip → ∀ i, protectedOnly i →
      exec i s = s.raise .ud ∨
      (∃ t, exec i { s with unflushed := false } = .next t ∧ Completed i s t ∧
        exec i s = .next { t with unflushed := true }) ∨
      (∃ st, exec i { s with unflushed := false } = State.stop { s with unflushed := false } st ∧
        exec i s = s.stop st)) ∧
    (s.plat.rulings = .chip → ∀ (ovr : Option SegName) (r : Reg16),
      exec (.sldt ovr (.reg r)) s = s.raise .ud ∨
      ∃ t, exec (.sldt ovr (.reg r)) s = .next t ∧ Completed (.sldt ovr (.reg r)) s t ∧
        OnlyReg s t r s.ldtr.sel ∧ t.flags = s.flags ∧ SameMode s t ∧ SameTables s t ∧ SameMemory s t)

/-! ## WAIT and ESC -/

/-- WAIT (42_referenced_instructions.md R160, 10_state.md R38): exception 7 exactly when MP and TS are set;
else it only goes on where the coprocessor is neither busy nor in error. Where it is, WAIT is refused under the
spec's rulings; under the chip's it holds the machine while busy, and then raises exception 16 on an error: the
model's choice (logs 15, 36, 37). -/
def Obligations.WaitTrapsHoldsOrGoesOn : Prop :=
  ∀ (s : State) (ovr : Option SegName),
    (s.mp = true → s.ts = true → exec (.wait ovr) s = s.raise .nm) ∧
    (s.mp = false ∨ s.ts = false →
      (s.plat.rulings = .spec → s.plat.npxBusy = true ∨ s.plat.npxError = true →
        exec (.wait ovr) s = .refused .waitNeedsBusyPremise) ∧
      (s.plat.rulings = .chip → s.plat.npxBusy = true → exec (.wait ovr) s = .next s) ∧
      (s.plat.rulings = .chip → s.plat.npxBusy = false → s.plat.npxError = true →
        exec (.wait ovr) s = s.raise .npxError) ∧
      (s.plat.npxBusy = false → s.plat.npxError = false →
        ∃ t, exec (.wait ovr) s = .next t ∧ Completed (.wait ovr) s t ∧ SameRegisters s t ∧ SameMemory s t))

/-- ESC (42_referenced_instructions.md R161, 10_state.md R38): with EM or TS set its effect is exception 7, in
real address mode a next state at the handler with no operand looked at; else under the chip's rulings the
coprocessor's error is exception 16, whether it is busy or not (logs 16, 36, 37), and else the instruction is the
coprocessor's and refused. -/
def Obligations.EscTakesExceptionSeven : Prop :=
  ∀ (s : State) (ovr : Option SegName) (x y : BitVec 3) (rm : RM),
    (s.em = true ∨ s.ts = true → exec (.esc ovr x y rm) s = s.raise .nm ∧
      (s.RealDeliverable 7 → ∃ t, exec (.esc ovr x y rm) s = .next t ∧
        t.lastException = some { vector := 7, code := none, cs := s.cs.sel, ip := s.ip } ∧
        t.gpr.sp = s.gpr.sp - 6#16 ∧ (∀ r, r ≠ .sp → t.reg r = s.reg r) ∧ t.msw = s.msw ∧ SameTables s t)) ∧
    (s.em = false → s.ts = false →
      (s.plat.rulings = .chip → s.plat.npxError = true → exec (.esc ovr x y rm) s = s.raise .npxError) ∧
      (s.plat.rulings = .spec ∨ s.plat.npxError = false →
        exec (.esc ovr x y rm) s = .refused .processorExtensionNotModelled))

/-- When the flags of the MSW raise exception 7 (10_state.md R38), which has no error code: for ESC with EM or
TS set, for WAIT with MP and TS set. Otherwise neither raises it: what they do then is not R38's, and rests on
logs 15 (hold) and 16 (exception 16), the model's choices. -/
def Obligations.ExceptionSevenFollowsTheStatusWordFlags : Prop :=
  Exc.nm.vector = 7 ∧ Exc.nm.code = none ∧
  ∀ (s : State) (ovr : Option SegName) (x y : BitVec 3) (rm : RM),
    (s.em = true ∨ s.ts = true → exec (.esc ovr x y rm) s = s.raise .nm) ∧
    (¬ (s.em = true ∨ s.ts = true) → exec (.esc ovr x y rm) s = s.raise .npxError ∨
      exec (.esc ovr x y rm) s = .refused .processorExtensionNotModelled) ∧
    (s.mp = true ∧ s.ts = true → exec (.wait ovr) s = s.raise .nm) ∧
    (¬ (s.mp = true ∧ s.ts = true) → exec (.wait ovr) s = .next s ∨ exec (.wait ovr) s = s.raise .npxError ∨
      exec (.wait ovr) s = .refused .waitNeedsBusyPremise ∨
      exec (.wait ovr) s = .next (s.advance (Instr.wait ovr).length))

/-! ## Taking an exception -/

/-- Delivery in real address mode (60_exceptions.md R185; log 11): FLAGS, CS and the instruction's IP are
pushed, IF and TF cleared, CS:IP loaded from the vector's entry, CS's cache with it (log 32); the record is kept;
nothing else changes. -/
def Obligations.RealModeDeliveryFollowsTheSequence : Prop :=
  ∀ (s : State) (e : Exc), s.RealDeliverable e.vector →
    ∃ t b0 b1 b2 b3, s.raise e = .next t ∧
      (s.span (s.idtr.base.toNat + 4 * e.vector) 4).map t.mem.read = [b0, b1, b2, b3].map some ∧
      t.ip = b1 ++ b0 ∧ t.cs.sel = b3 ++ b2 ∧ t.cs.base.toNat = 16 * (b3 ++ b2 : Word).toNat ∧
      t.cs.limit = 0xFFFF#16 ∧ t.cs.access = 0x9B#8 ∧ t.cs.valid = true ∧
      t.gpr.sp = s.gpr.sp - 6#16 ∧ (∀ r, r ≠ .sp → t.reg r = s.reg r) ∧
      (s.span (s.pushAddress 1) 2).map t.mem.read = (wordBytes s.flags).map some ∧
      (s.span (s.pushAddress 2) 2).map t.mem.read = (wordBytes s.cs.sel).map some ∧
      (s.span (s.pushAddress 3) 2).map t.mem.read = (wordBytes s.ip).map some ∧
      (∀ x, x ∉ s.span (s.pushAddress 1) 2 → x ∉ s.span (s.pushAddress 2) 2 →
        x ∉ s.span (s.pushAddress 3) 2 → t.mem.read x = s.mem.read x) ∧
      (∀ i, t.flags.getLsbD i = if i = 8 ∨ i = 9 then false else s.flags.getLsbD i) ∧
      t.lastException = some { vector := e.vector, code := none, cs := s.cs.sel, ip := s.ip } ∧
      t.queued = [] ∧ t.unflushed = false ∧ t.msw = s.msw ∧ SameTables s t ∧ t.cpl = s.cpl ∧
      t.ds = s.ds ∧ t.ss = s.ss ∧ t.es = s.es

/-- A vector beyond the table in real address mode is the double fault, and one whose double fault cannot be
delivered either, for the table or for a stack that wraps (SP of 1, 3 or 5), shuts the processor down
(60_exceptions.md R181, R185, R191; log 13), where exceptions are delivered (log 36). The double fault records
the CS:IP of the exception it replaces (the model's choice, log 39). -/
def Obligations.UndeliverableExceptionsDoubleFaultOrShutDown : Prop :=
  ∀ (s : State) (e : Exc), s.plat.rulings = .chip → s.pe = false →
    (s.idtr.limit.toNat < 4 * e.vector + 3 → s.RealDeliverable 8 →
      ∃ t, s.raise e = .next t ∧
        t.lastException = some { vector := 8, code := none, cs := s.cs.sel, ip := s.ip }) ∧
    (s.idtr.limit.toNat < 4 * e.vector + 3 → s.idtr.limit.toNat < 35 →
      s.raise e = .fault (.shutdown { vector := e.vector, code := none, cs := s.cs.sel, ip := s.ip })) ∧
    (s.gpr.sp = 1#16 ∨ s.gpr.sp = 3#16 ∧ s.storableSpan (s.pushAddress 1) 2 ∨
        s.gpr.sp = 5#16 ∧ s.storableSpan (s.pushAddress 1) 2 ∧ s.storableSpan (s.pushAddress 2) 2 →
      s.raise e = .fault (.shutdown { vector := e.vector, code := none, cs := s.cs.sel, ip := s.ip }))

/-- Delivery in protected mode through an interrupt or trap gate to code of the current level: CS's cache is the
handler's descriptor, its access rights byte with the accessed bit set (60_exceptions.md R186, 20_memory.md R67,
R68, 10_state.md R26; logs 12, 36). -/
def Obligations.ProtectedDeliveryEntersASameLevelHandler : Prop :=
  ∀ (s u : State) (e : Exc) (g0 g1 g2 g3 g4 g5 : Byte) (d : Descriptor) (a : Nat),
    s.plat.rulings = .chip → s.pe = true → 8 * e.vector + 7 ≤ s.idtr.limit.toNat →
    s.memRead (s.idtr.base.toNat + 8 * e.vector) 6 = .ok [g0, g1, g2, g3, g4, g5] →
    g5.getLsbD 7 = true → g5.getLsbD 4 = false → g5.toNat % 16 = 6 ∨ g5.toNat % 16 = 7 →
    s.fetchDesc (g3 ++ g2) = .ok (.desc d) → s.descAddr (g3 ++ g2) = some a →
    s.HandlerHere d (g1 ++ g0) →
    s.pushAll ([s.flags, s.cs.sel, s.ip] ++ e.code.toList) = .ok u → s.storableSpan (a + 5) 1 →
    ∃ t, s.raise e = .next t ∧ t.ip = g1 ++ g0 ∧ t.cs.base = d.base ∧ t.cs.limit = d.limit ∧
      t.cs.sel = (g3 ++ g2 : Word).extractLsb' 2 14 ++ s.cpl ∧ t.cs.access = d.access ||| 1#8 ∧
      t.cs.valid = true ∧ t.cpl = s.cpl ∧
      t.gpr = u.gpr ∧ (∀ x, x ≠ (a + 5) % 2 ^ 24 → t.mem.read x = u.mem.read x) ∧
      t.mem.read ((a + 5) % 2 ^ 24) = some (d.access ||| 1#8) ∧
      (∀ i, t.flags.getLsbD i =
        if i = 8 ∨ i = 14 ∨ (i = 9 ∧ g5.toNat % 16 = 6) then false else s.flags.getLsbD i) ∧
      t.lastException = some { vector := e.vector, code := e.code, cs := s.cs.sel, ip := s.ip } ∧
      t.queued = [] ∧ t.unflushed = false ∧ t.msw = s.msw ∧ SameTables s t ∧
      t.ds = s.ds ∧ t.ss = s.ss ∧ t.es = s.es

/-- What taking an exception leaves in either mode, once it answers a next state (60_exceptions.md R185, R186,
R189): every register but SP, the MSW, the tables, CPL, DS, SS, ES, and the flags but TF, IF, NT. -/
def Obligations.TakingAnExceptionLeavesTheRest : Prop :=
  ∀ (s t : State) (e : Exc), s.raise e = .next t →
    (∀ r, r ≠ .sp → t.reg r = s.reg r) ∧ t.msw = s.msw ∧ SameTables s t ∧ t.cpl = s.cpl ∧
    t.ds = s.ds ∧ t.ss = s.ss ∧ t.es = s.es ∧ t.tf = false ∧
    (∀ i, i ≠ 8 → i ≠ 9 → i ≠ 14 → t.flags.getLsbD i = s.flags.getLsbD i) ∧
    (t.lastException = some (s.record e) ∨ t.lastException = some (s.record .doubleFault))

/-- The return undoes the delivery in real address mode (60_exceptions.md R185, R190; logs 11, 28): IP, CS,
FLAGS and every general register are as before the exception. -/
def Obligations.ReturnUndoesRealModeDelivery : Prop :=
  ∀ (s t : State) (n : Nat), s.pe = false → s.deliverReal n = .ok t →
    ∃ u, t.returnReal = .ok u ∧ u.ip = s.ip ∧ u.cs.sel = s.cs.sel ∧ u.flags = s.flags ∧ u.gpr = s.gpr ∧
      u.msw = s.msw ∧ SameTables s u ∧ u.ds = s.ds ∧ u.ss = s.ss ∧ u.es = s.es ∧ SameMemory t u

/-! ## Operands, the end of a run, and exceptions that are not delivered -/

/-- The r/m16 operand (40_system_table_and_msw.md R120, 20_memory.md R72, R75, R76) in either mode: the register,
or the little-endian word at the segment's offset. The first byte of an access that is a device's is refused
(R79), the first that nothing has written is the fault of R75 (log 3); and an instruction whose operand or
descriptor cannot be read stops for that reason: with that fault, that refusal, or that exception taken. -/
def Obligations.OperandIsTheRegisterOrTheWordOfMemory : Prop :=
  ∀ (s : State) (ovr : Option SegName),
    (∀ f, s.stop (.fault f) = .fault f) ∧ (∀ r, s.stop (.refuse r) = .refused r) ∧
    (∀ e, s.stop (.exc e) = s.raise e) ∧
    (∀ r, s.readRM ovr (.reg r) = .ok (s.reg r)) ∧
    (∀ m a b0 b1, s.segAccess (operandSeg ovr m) (s.effAddr m) 2 .read = .ok a → s.plainSpan a 2 →
      s.mem.read (a % s.addressSpace) = some b0 → s.mem.read ((a + 1) % s.addressSpace) = some b1 →
      s.readRM ovr (.mem m) = .ok (b1 ++ b0)) ∧
    (∀ m e, s.segAccess (operandSeg ovr m) (s.effAddr m) 2 .read = .error (.exc e) →
      s.readRM ovr (.mem m) = .error (.exc e)) ∧
    (∀ g off n a k x, s.segAccess g off n .read = .ok a → k < n → x = (a + k) % s.addressSpace →
      s.readableSpan a k →
      (s.isDevice x = true → s.segRead g off n = .error (.refuse (.deviceRegion x))) ∧
      (s.isDevice x = false → s.mem.read x = none → s.segRead g off n = .error (.fault (.readOfUndefinedState x)))) ∧
    (∀ m st, s.privileged → s.segRead (operandSeg ovr m) (s.effAddr m) 6 = .error st →
      exec (.lgdt ovr (.mem m)) s = s.stop st ∧ exec (.lidt ovr (.mem m)) s = s.stop st) ∧
    (∀ rm reg st, s.readRM ovr rm = .error st →
      (s.privileged → exec (.lmsw ovr rm) s = s.stop st) ∧
      (s.protectedReady → (s.cpl = 0#2 → exec (.lldt ovr rm) s = s.stop st) ∧
        exec (.lar ovr reg rm) s = s.stop st ∧ exec (.lsl ovr reg rm) s = s.stop st ∧
        exec (.verr ovr rm) s = s.stop st ∧ exec (.verw ovr rm) s = s.stop st ∧
        (s.checkWritable ovr rm = .ok () → exec (.arpl ovr reg rm) s = s.stop st))) ∧
    (∀ rm reg sel st, s.protectedReady → s.readRM ovr rm = .ok sel → s.fetchDesc sel = .error st →
      exec (.lar ovr reg rm) s = s.stop st ∧ exec (.lsl ovr reg rm) s = s.stop st ∧
      exec (.verr ovr rm) s = s.stop st ∧ exec (.verw ovr rm) s = s.stop st ∧
      (s.cpl = 0#2 → selTI sel = false → exec (.lldt ovr rm) s = s.stop st))

/-- Under the spec's rulings (log 36) an exception ends the run with its vector, error code, CS and IP
(60_exceptions.md R184, D8); so a step that goes on records none, enters no handler, clears no mark `unflushed`
(70_reset_and_hazards.md R223, D28) and writes no byte of the program text (20_memory.md R84, D7), which wraps
past 0FFFFFFh (the model's choice, log 38). -/
def Obligations.TheSpecRulingsStopTheRun : Prop :=
  ∀ s : State, s.plat.rulings = .spec →
    (∀ e, s.raise e = .fault (.exceptionEndsRun
      { vector := e.vector, code := if s.pe then e.code else none, cs := s.cs.sel, ip := s.ip })) ∧
    (∀ t, step s = .next t → t.lastException = s.lastException ∧ t.cs = s.cs ∧
      (s.unflushed = true → t.unflushed = true) ∧ (∀ i, i ≠ 6 → t.flags.getLsbD i = s.flags.getLsbD i) ∧
      (∀ p k, s.plat.program = some p → k < p.size →
        t.mem.read ((p.base + k) % 2 ^ 24) = s.mem.read ((p.base + k) % 2 ^ 24)))

/-- The end of a run (00_scope.md R12, D18; log 34): where the fetch address is the first byte after the program,
taken modulo the address space (the model's choice, log 40), and no exception is recorded, and there only. A run ends in the first state on its way for which that holds, or
with the fault or refusal of the first step that has one. Bytes bound as the program stand in memory, from its
base on modulo 2^24 (the model's choice, log 38), and nothing else changes there. -/
def Obligations.ARunEndsAfterItsProgram : Prop :=
  (∀ s : State, s.runEnded = true ↔ ∃ p, s.plat.program = some p ∧ s.lastException = none ∧
    s.linearAddress .cs s.ip = (p.base + p.size) % s.addressSpace) ∧
  (∀ (n : Nat) (s t : State), run n s = .ended t ↔ t.runEnded = true ∧ ∃ k, k ≤ n ∧ Reaches k s t) ∧
  (∀ (n : Nat) (s : State) (f : Fault), run n s = .fault f ↔
    ∃ k u, k < n ∧ Reaches k s u ∧ u.runEnded = false ∧ step u = .fault f) ∧
  (∀ (n : Nat) (s : State) (r : Refusal), run n s = .refused r ↔
    ∃ k u, k < n ∧ Reaches k s u ∧ u.runEnded = false ∧ step u = .refused r) ∧
  (∀ (s : State) (base : Nat) (bs : List Byte), bs.length ≤ 2 ^ 24 →
    (s.bindProgram base bs).plat.program = some { base := base, size := bs.length } ∧
    (∀ k b, bs[k]? = some b → (s.bindProgram base bs).mem.read ((base + k) % 2 ^ 24) = some b) ∧
    (∀ x, (∀ k, k < bs.length → x ≠ (base + k) % 2 ^ 24) → (s.bindProgram base bs).mem.read x = s.mem.read x))

/-- An exception in protected mode that is not delivered through its gate (60_exceptions.md R184, R186, R191; log
12), where exceptions are delivered (log 36). The double fault is that of the same state (the model's choice, log
39). A vector beyond the table, or an entry that is no gate, is GP while
delivering and so the double fault, or shutdown where the table does not hold that one either. A task gate, a gate
not present, and a handler that is no present code segment of the current level end the run. -/
def Obligations.UndeliverableExceptionsInProtectedMode : Prop :=
  ∀ (s : State) (e : Exc), s.plat.rulings = .chip → s.pe = true →
    (s.idtr.limit.toNat < 8 * e.vector + 7 →
      (s.idtr.limit.toNat < 71 → s.raise e = .fault (.shutdown (s.record e))) ∧
      (∀ t, s.raise .doubleFault = .next t → s.raise e = .next t)) ∧
    (∀ g0 g1 g2 g3 g4 g5 : Byte, 8 * e.vector + 7 ≤ s.idtr.limit.toNat →
      s.memRead (s.idtr.base.toNat + 8 * e.vector) 6 = .ok [g0, g1, g2, g3, g4, g5] →
      (g5.getLsbD 4 = true ∨ g5.toNat % 16 ∉ [5, 6, 7] →
        (s.idtr.limit.toNat < 71 → s.raise e = .fault (.shutdown (s.record e))) ∧
        (∀ t, s.raise .doubleFault = .next t → s.raise e = .next t)) ∧
      (g5.getLsbD 4 = false → g5.toNat % 16 = 5 → s.raise e = .fault (.exceptionEndsRun (s.record e))) ∧
      (g5.getLsbD 4 = false → g5.toNat % 16 = 6 ∨ g5.toNat % 16 = 7 →
        (g5.getLsbD 7 = false → s.raise e = .fault (.exceptionEndsRun (s.record e))) ∧
        (∀ l, g5.getLsbD 7 = true → s.fetchDesc (g3 ++ g2) = .ok l →
          ¬ Names l (fun d => s.HandlerHere d (g1 ++ g0)) →
          s.raise e = .fault (.exceptionEndsRun (s.record e)))))
end

