-- ==== Sys2Proof/Laws/State.lean ====
section
/-! SUPPORT. One lemma per field per state update, so that no proof unfolds a record update. -/

namespace Sys2Proof.Machine

variable (s : State)

/-! ### setReg -/

@[simp] theorem State.setReg_gpr (r : Reg16) (v : Word) : (s.setReg r v).gpr = s.gpr.set r v := rfl
@[simp] theorem State.setReg_ip (r : Reg16) (v : Word) : (s.setReg r v).ip = s.ip := rfl
@[simp] theorem State.setReg_flags (r : Reg16) (v : Word) : (s.setReg r v).flags = s.flags := rfl
@[simp] theorem State.setReg_msw (r : Reg16) (v : Word) : (s.setReg r v).msw = s.msw := rfl
@[simp] theorem State.setReg_es (r : Reg16) (v : Word) : (s.setReg r v).es = s.es := rfl
@[simp] theorem State.setReg_cs (r : Reg16) (v : Word) : (s.setReg r v).cs = s.cs := rfl
@[simp] theorem State.setReg_ss (r : Reg16) (v : Word) : (s.setReg r v).ss = s.ss := rfl
@[simp] theorem State.setReg_ds (r : Reg16) (v : Word) : (s.setReg r v).ds = s.ds := rfl
@[simp] theorem State.setReg_gdtr (r : Reg16) (v : Word) : (s.setReg r v).gdtr = s.gdtr := rfl
@[simp] theorem State.setReg_idtr (r : Reg16) (v : Word) : (s.setReg r v).idtr = s.idtr := rfl
@[simp] theorem State.setReg_ldtr (r : Reg16) (v : Word) : (s.setReg r v).ldtr = s.ldtr := rfl
@[simp] theorem State.setReg_cpl (r : Reg16) (v : Word) : (s.setReg r v).cpl = s.cpl := rfl
@[simp] theorem State.setReg_mem (r : Reg16) (v : Word) : (s.setReg r v).mem = s.mem := rfl
@[simp] theorem State.setReg_unflushed (r : Reg16) (v : Word) : (s.setReg r v).unflushed = s.unflushed := rfl
@[simp] theorem State.setReg_queued (r : Reg16) (v : Word) : (s.setReg r v).queued = s.queued := rfl
@[simp] theorem State.setReg_lastException (r : Reg16) (v : Word) : (s.setReg r v).lastException = s.lastException := rfl
@[simp] theorem State.setReg_plat (r : Reg16) (v : Word) : (s.setReg r v).plat = s.plat := rfl
@[simp] theorem State.setReg_tick (r : Reg16) (v : Word) : (s.setReg r v).tick = s.tick := rfl

/-! ### setZF -/

@[simp] theorem State.setZF_gpr (b : Bool) : (s.setZF b).gpr = s.gpr := rfl
@[simp] theorem State.setZF_ip (b : Bool) : (s.setZF b).ip = s.ip := rfl
@[simp] theorem State.setZF_flags (b : Bool) : (s.setZF b).flags = putBit s.flags 6 b := rfl
@[simp] theorem State.setZF_msw (b : Bool) : (s.setZF b).msw = s.msw := rfl
@[simp] theorem State.setZF_es (b : Bool) : (s.setZF b).es = s.es := rfl
@[simp] theorem State.setZF_cs (b : Bool) : (s.setZF b).cs = s.cs := rfl
@[simp] theorem State.setZF_ss (b : Bool) : (s.setZF b).ss = s.ss := rfl
@[simp] theorem State.setZF_ds (b : Bool) : (s.setZF b).ds = s.ds := rfl
@[simp] theorem State.setZF_gdtr (b : Bool) : (s.setZF b).gdtr = s.gdtr := rfl
@[simp] theorem State.setZF_idtr (b : Bool) : (s.setZF b).idtr = s.idtr := rfl
@[simp] theorem State.setZF_ldtr (b : Bool) : (s.setZF b).ldtr = s.ldtr := rfl
@[simp] theorem State.setZF_cpl (b : Bool) : (s.setZF b).cpl = s.cpl := rfl
@[simp] theorem State.setZF_mem (b : Bool) : (s.setZF b).mem = s.mem := rfl
@[simp] theorem State.setZF_unflushed (b : Bool) : (s.setZF b).unflushed = s.unflushed := rfl
@[simp] theorem State.setZF_queued (b : Bool) : (s.setZF b).queued = s.queued := rfl
@[simp] theorem State.setZF_lastException (b : Bool) : (s.setZF b).lastException = s.lastException := rfl
@[simp] theorem State.setZF_plat (b : Bool) : (s.setZF b).plat = s.plat := rfl
@[simp] theorem State.setZF_tick (b : Bool) : (s.setZF b).tick = s.tick := rfl

/-! ### storeByte -/

@[simp] theorem State.storeByte_gpr (a : Nat) (b : Byte) : (s.storeByte a b).gpr = s.gpr := rfl
@[simp] theorem State.storeByte_ip (a : Nat) (b : Byte) : (s.storeByte a b).ip = s.ip := rfl
@[simp] theorem State.storeByte_flags (a : Nat) (b : Byte) : (s.storeByte a b).flags = s.flags := rfl
@[simp] theorem State.storeByte_msw (a : Nat) (b : Byte) : (s.storeByte a b).msw = s.msw := rfl
@[simp] theorem State.storeByte_es (a : Nat) (b : Byte) : (s.storeByte a b).es = s.es := rfl
@[simp] theorem State.storeByte_cs (a : Nat) (b : Byte) : (s.storeByte a b).cs = s.cs := rfl
@[simp] theorem State.storeByte_ss (a : Nat) (b : Byte) : (s.storeByte a b).ss = s.ss := rfl
@[simp] theorem State.storeByte_ds (a : Nat) (b : Byte) : (s.storeByte a b).ds = s.ds := rfl
@[simp] theorem State.storeByte_gdtr (a : Nat) (b : Byte) : (s.storeByte a b).gdtr = s.gdtr := rfl
@[simp] theorem State.storeByte_idtr (a : Nat) (b : Byte) : (s.storeByte a b).idtr = s.idtr := rfl
@[simp] theorem State.storeByte_ldtr (a : Nat) (b : Byte) : (s.storeByte a b).ldtr = s.ldtr := rfl
@[simp] theorem State.storeByte_cpl (a : Nat) (b : Byte) : (s.storeByte a b).cpl = s.cpl := rfl
@[simp] theorem State.storeByte_mem (a : Nat) (b : Byte) : (s.storeByte a b).mem = s.mem.write a b := rfl
@[simp] theorem State.storeByte_unflushed (a : Nat) (b : Byte) : (s.storeByte a b).unflushed = s.unflushed := rfl
@[simp] theorem State.storeByte_queued (a : Nat) (b : Byte) : (s.storeByte a b).queued = if s.queueHolds a then s.queued ++ [(a, s.mem.read a)] else s.queued := rfl
@[simp] theorem State.storeByte_lastException (a : Nat) (b : Byte) : (s.storeByte a b).lastException = s.lastException := rfl
@[simp] theorem State.storeByte_plat (a : Nat) (b : Byte) : (s.storeByte a b).plat = s.plat := rfl
@[simp] theorem State.storeByte_tick (a : Nat) (b : Byte) : (s.storeByte a b).tick = s.tick := rfl

/-! ### transfer -/

@[simp] theorem State.transfer_gpr (c : SegReg) (ip : Word) : (s.transfer c ip).gpr = s.gpr := rfl
@[simp] theorem State.transfer_ip (c : SegReg) (ip : Word) : (s.transfer c ip).ip = ip := rfl
@[simp] theorem State.transfer_flags (c : SegReg) (ip : Word) : (s.transfer c ip).flags = s.flags := rfl
@[simp] theorem State.transfer_msw (c : SegReg) (ip : Word) : (s.transfer c ip).msw = s.msw := rfl
@[simp] theorem State.transfer_es (c : SegReg) (ip : Word) : (s.transfer c ip).es = s.es := rfl
@[simp] theorem State.transfer_cs (c : SegReg) (ip : Word) : (s.transfer c ip).cs = c := rfl
@[simp] theorem State.transfer_ss (c : SegReg) (ip : Word) : (s.transfer c ip).ss = s.ss := rfl
@[simp] theorem State.transfer_ds (c : SegReg) (ip : Word) : (s.transfer c ip).ds = s.ds := rfl
@[simp] theorem State.transfer_gdtr (c : SegReg) (ip : Word) : (s.transfer c ip).gdtr = s.gdtr := rfl
@[simp] theorem State.transfer_idtr (c : SegReg) (ip : Word) : (s.transfer c ip).idtr = s.idtr := rfl
@[simp] theorem State.transfer_ldtr (c : SegReg) (ip : Word) : (s.transfer c ip).ldtr = s.ldtr := rfl
@[simp] theorem State.transfer_cpl (c : SegReg) (ip : Word) : (s.transfer c ip).cpl = s.cpl := rfl
@[simp] theorem State.transfer_mem (c : SegReg) (ip : Word) : (s.transfer c ip).mem = s.mem := rfl
@[simp] theorem State.transfer_unflushed (c : SegReg) (ip : Word) : (s.transfer c ip).unflushed = false := rfl
@[simp] theorem State.transfer_queued (c : SegReg) (ip : Word) : (s.transfer c ip).queued = [] := rfl
@[simp] theorem State.transfer_lastException (c : SegReg) (ip : Word) : (s.transfer c ip).lastException = s.lastException := rfl
@[simp] theorem State.transfer_plat (c : SegReg) (ip : Word) : (s.transfer c ip).plat = s.plat := rfl
@[simp] theorem State.transfer_tick (c : SegReg) (ip : Word) : (s.transfer c ip).tick = s.tick + 1 := rfl

/-! ### advance -/

@[simp] theorem State.advance_gpr (n : Nat) : (s.advance n).gpr = s.gpr := rfl
@[simp] theorem State.advance_ip (n : Nat) : (s.advance n).ip = s.ip + BitVec.ofNat 16 n := rfl
@[simp] theorem State.advance_flags (n : Nat) : (s.advance n).flags = s.flags := rfl
@[simp] theorem State.advance_msw (n : Nat) : (s.advance n).msw = s.msw := rfl
@[simp] theorem State.advance_es (n : Nat) : (s.advance n).es = s.es := rfl
@[simp] theorem State.advance_cs (n : Nat) : (s.advance n).cs = s.cs := rfl
@[simp] theorem State.advance_ss (n : Nat) : (s.advance n).ss = s.ss := rfl
@[simp] theorem State.advance_ds (n : Nat) : (s.advance n).ds = s.ds := rfl
@[simp] theorem State.advance_gdtr (n : Nat) : (s.advance n).gdtr = s.gdtr := rfl
@[simp] theorem State.advance_idtr (n : Nat) : (s.advance n).idtr = s.idtr := rfl
@[simp] theorem State.advance_ldtr (n : Nat) : (s.advance n).ldtr = s.ldtr := rfl
@[simp] theorem State.advance_cpl (n : Nat) : (s.advance n).cpl = s.cpl := rfl
@[simp] theorem State.advance_mem (n : Nat) : (s.advance n).mem = s.mem := rfl
@[simp] theorem State.advance_unflushed (n : Nat) : (s.advance n).unflushed = s.unflushed := rfl
@[simp] theorem State.advance_lastException (n : Nat) : (s.advance n).lastException = s.lastException := rfl
@[simp] theorem State.advance_plat (n : Nat) : (s.advance n).plat = s.plat := rfl
@[simp] theorem State.advance_tick (n : Nat) : (s.advance n).tick = s.tick + 1 := rfl

/-! ### Register files -/

theorem Gpr.get_set (g : Gpr) (r q : Reg16) (v : Word) :
    (g.set r v).get q = if q = r then v else g.get q := by
  cases r <;> cases q <;> rfl

@[simp] theorem Gpr.get_set_same (g : Gpr) (r : Reg16) (v : Word) : (g.set r v).get r = v := by
  simp [Gpr.get_set]

@[simp] theorem State.setReg_reg (r q : Reg16) (v : Word) :
    (s.setReg r v).reg q = if q = r then v else s.reg q := Gpr.get_set s.gpr r q v

/-! ### What the derived readings depend on -/

theorem State.pe_congr {s t : State} (h : t.msw = s.msw) : t.pe = s.pe := by simp [State.pe, h]

theorem State.addressSpace_congr {s t : State} (h : t.msw = s.msw) (hp : t.plat = s.plat) :
    t.addressSpace = s.addressSpace := by simp [State.addressSpace, State.pe, h, hp]

theorem State.span_congr {s t : State} (h : t.msw = s.msw) (hp : t.plat = s.plat) (a n : Nat) :
    t.span a n = s.span a n := by simp [State.span, State.addressSpace_congr h hp]

theorem State.isDevice_congr {s t : State} (hp : t.plat = s.plat) (a : Nat) :
    t.isDevice a = s.isDevice a := by simp [State.isDevice, hp]

theorem State.addressSpace_pos : 0 < s.addressSpace := by
  unfold State.addressSpace; split <;> decide

theorem State.addressSpace_le : s.addressSpace ≤ 2 ^ 24 := by
  unfold State.addressSpace; split <;> decide

theorem State.addressSpace_ge : 2 ^ 20 ≤ s.addressSpace := by
  unfold State.addressSpace; split <;> decide

end Sys2Proof.Machine
end

