-- ==== Sys2Proof/Laws/Memory.lean ====
section
/-! SUPPORT. The laws of memory as data, and of the physical accesses: reading after writing, what a write
leaves, and that every memory operation keeps the canonical form. -/

namespace Sys2Proof.Machine

/-! ### One byte -/

theorem Memory.read_write (m : Memory) (a x : Nat) (v : Byte) :
    (m.write a v).read x = if x = a then some v else m.read x := by
  induction m with
  | nil => simp [Memory.write, Memory.read]
  | cons c m ih =>
    obtain ⟨k, w⟩ := c
    simp only [Memory.write]
    split
    · next h => subst h; by_cases hx : x = a <;> simp [Memory.read, hx]
    · next h =>
      split
      · by_cases hx : x = a <;> simp [Memory.read, hx]
      · simp only [Memory.read, ih]
        by_cases hx : x = k
        · subst hx; simp [Ne.symm h]
        · simp [hx]

@[simp] theorem Memory.read_write_same (m : Memory) (a : Nat) (v : Byte) :
    (m.write a v).read a = some v := by simp [Memory.read_write]

theorem Memory.read_write_other (m : Memory) {a x : Nat} (v : Byte) (h : x ≠ a) :
    (m.write a v).read x = m.read x := by simp [Memory.read_write, h]

theorem Memory.mem_write {m : Memory} {a : Nat} {v : Byte} {c : Host.Cell} (h : c ∈ m.write a v) :
    c = (a, v) ∨ c ∈ m := by
  induction m with
  | nil => simpa [Memory.write] using h
  | cons d m ih =>
    obtain ⟨k, w⟩ := d
    simp only [Memory.write] at h
    split at h
    · rcases List.mem_cons.1 h with h | h <;> simp [h]
    · split at h
      · rcases List.mem_cons.1 h with h | h
        · exact .inl h
        · exact .inr h
      · rcases List.mem_cons.1 h with h | h
        · simp [h]
        · rcases ih h with h | h <;> simp [h]

/-- A write keeps the addresses strictly rising. -/
theorem Memory.write_sorted {m : Memory} (a : Nat) (v : Byte) (h : m.Pairwise (fun c d => c.1 < d.1)) :
    (m.write a v).Pairwise (fun c d => c.1 < d.1) := by
  induction m with
  | nil => simp [Memory.write]
  | cons d m ih =>
    obtain ⟨k, w⟩ := d
    have hk := (List.pairwise_cons.1 h).1
    have hm := (List.pairwise_cons.1 h).2
    simp only [Memory.write]
    split
    · next e => subst e; exact List.pairwise_cons.2 ⟨hk, hm⟩
    · split
      · next hlt =>
        refine List.pairwise_cons.2 ⟨fun c hc => ?_, h⟩
        rcases List.mem_cons.1 hc with rfl | hc
        · exact hlt
        · exact Nat.lt_trans hlt (hk c hc)
      · refine List.pairwise_cons.2 ⟨fun c hc => ?_, ih hm⟩
        rcases Memory.mem_write hc with rfl | hc
        · show k < a; omega
        · exact hk c hc

/-- Every write to an address that exists keeps the canonical form. -/
theorem Memory.write_wf {m : Memory} {a : Nat} {v : Byte} (ha : a < 2 ^ 24) (h : m.wf) : (m.write a v).wf :=
  ⟨Memory.write_sorted a v h.1, fun c hc => by
    rcases Memory.mem_write hc with rfl | hc
    · exact ha
    · exact h.2 c hc⟩

/-- Binding a program keeps the canonical form. -/
theorem Memory.load_wf {m : Memory} (base : Nat) (bs : List Byte) (h : m.wf) : (m.load base bs).wf := by
  unfold Memory.load
  generalize (List.range bs.length).zip bs = cs
  induction cs generalizing m with
  | nil => exact h
  | cons c cs ih => exact ih (Memory.write_wf (Nat.mod_lt _ (by decide)) h)

/-- Reset memory has the canonical form. -/
theorem State.reset_mem_wf (p : Platform) : (State.resetOn p).mem.wf := by
  simp [State.resetOn, Memory.wf]

/-! ### Bytes and words -/

@[simp] theorem leBytes_length (n v : Nat) : (leBytes n v).length = n := by
  induction n generalizing v with
  | zero => rfl
  | succ n ih => simp [leBytes, ih]

theorem leNat_leBytes (n v : Nat) : leNat (leBytes n v) = v % 256 ^ n := by
  induction n generalizing v with
  | zero => simp [leBytes, leNat, Nat.mod_one]
  | succ n ih =>
    have hb : (BitVec.ofNat 8 v).toNat = v % 256 := rfl
    rw [leBytes, leNat, ih, hb, Nat.pow_succ', Nat.mod_mul]

@[simp] theorem leWord_leBytes (w : Word) : leWord (leBytes 2 w.toNat) = w := by
  have := w.isLt
  simp only [leWord, leNat_leBytes]
  apply BitVec.eq_of_toNat_eq
  simp only [BitVec.toNat_ofNat]
  omega

/-! ### The addresses of an access -/

theorem State.mem_span {s : State} {a n x : Nat} :
    x ∈ s.span a n ↔ ∃ i, i < n ∧ (a + i) % s.addressSpace = x := by
  simp [State.span]

theorem State.lt_of_mem_span {s : State} {a n x : Nat} (h : x ∈ s.span a n) : x < s.addressSpace := by
  obtain ⟨i, -, rfl⟩ := State.mem_span.1 h
  exact Nat.mod_lt _ s.addressSpace_pos

@[simp] theorem State.span_length (s : State) (a n : Nat) : (s.span a n).length = n := by
  simp [State.span]

/-- The bytes of one access have different addresses, up to a mebibyte. -/
theorem State.span_nodup (s : State) (a n : Nat) (h : n ≤ 2 ^ 20) : (s.span a n).Nodup := by
  have hs := s.addressSpace_ge
  unfold State.span
  rw [List.nodup_map_iff_inj_on List.nodup_range]
  intro i hi j hj he
  rw [List.mem_range] at hi hj
  have := (Nat.ModEq.add_left_cancel' a (show a + i ≡ a + j [MOD s.addressSpace] from he))
  exact Nat.ModEq.eq_of_lt_of_lt this (by omega) (by omega)

/-! ### Stores -/

/-- What a store of bytes leaves: everything but memory and the instruction queues. -/
structure SameButMemory (s t : State) : Prop where
  gpr : t.gpr = s.gpr
  ip : t.ip = s.ip
  flags : t.flags = s.flags
  msw : t.msw = s.msw
  es : t.es = s.es
  cs : t.cs = s.cs
  ss : t.ss = s.ss
  ds : t.ds = s.ds
  gdtr : t.gdtr = s.gdtr
  idtr : t.idtr = s.idtr
  ldtr : t.ldtr = s.ldtr
  cpl : t.cpl = s.cpl
  unflushed : t.unflushed = s.unflushed
  lastException : t.lastException = s.lastException
  plat : t.plat = s.plat
  tick : t.tick = s.tick

theorem SameButMemory.refl (s : State) : SameButMemory s s := by constructor <;> rfl

theorem SameButMemory.trans {s t u : State} (h : SameButMemory s t) (k : SameButMemory t u) :
    SameButMemory s u := by
  constructor
  · exact k.gpr.trans h.gpr
  · exact k.ip.trans h.ip
  · exact k.flags.trans h.flags
  · exact k.msw.trans h.msw
  · exact k.es.trans h.es
  · exact k.cs.trans h.cs
  · exact k.ss.trans h.ss
  · exact k.ds.trans h.ds
  · exact k.gdtr.trans h.gdtr
  · exact k.idtr.trans h.idtr
  · exact k.ldtr.trans h.ldtr
  · exact k.cpl.trans h.cpl
  · exact k.unflushed.trans h.unflushed
  · exact k.lastException.trans h.lastException
  · exact k.plat.trans h.plat
  · exact k.tick.trans h.tick

theorem State.storeAll_same (s : State) (cs : List (Nat × Byte)) : SameButMemory s (s.storeAll cs) := by
  induction cs generalizing s with
  | nil => exact .refl s
  | cons c cs ih =>
    exact SameButMemory.trans (by constructor <;> rfl) (ih (s.storeByte c.1 c.2))

theorem State.storeAll_read_other (s : State) (cs : List (Nat × Byte)) {x : Nat} (h : ∀ c ∈ cs, c.1 ≠ x) :
    (s.storeAll cs).mem.read x = s.mem.read x := by
  induction cs generalizing s with
  | nil => rfl
  | cons c cs ih =>
    rw [State.storeAll, ih _ (fun d hd => h d (by simp [hd])), State.storeByte_mem,
      Memory.read_write_other _ _ (Ne.symm (h c (by simp)))]

theorem State.storeAll_wf (s : State) (cs : List (Nat × Byte)) (h : ∀ c ∈ cs, c.1 < 2 ^ 24) (hm : s.mem.wf) :
    (s.storeAll cs).mem.wf := by
  induction cs generalizing s with
  | nil => exact hm
  | cons c cs ih =>
    exact ih _ (fun d hd => h d (by simp [hd])) (Memory.write_wf (h c (by simp)) hm)

/-- A byte stored at addresses without repeats is the one read there. -/
theorem State.storeAll_read_zip (s : State) (as : List Nat) (bs : List Byte) (hn : as.Nodup)
    (hl : as.length = bs.length) (i : Nat) (hi : i < bs.length) :
    (s.storeAll (as.zip bs)).mem.read (as[i]'(hl ▸ hi)) = some bs[i] := by
  induction as generalizing s bs i with
  | nil => simp at hl; omega
  | cons a as ih =>
    cases bs with
    | nil => simp at hi
    | cons b bs =>
      have hn' := List.nodup_cons.1 hn
      simp only [List.zip_cons_cons, State.storeAll]
      cases i with
      | zero =>
        simp only [List.getElem_cons_zero]
        rw [State.storeAll_read_other]
        · simp
        · rintro ⟨x, y⟩ hc rfl
          exact hn'.1 (List.of_mem_zip hc).1
      | succ i =>
        simp only [List.getElem_cons_succ]
        exact ih _ bs hn'.2 (by simpa using hl) i (by simpa using hi)

/-- ALL THAT `memWrite` CAN DO when it answers a state. -/
theorem State.memWrite_ok {s t : State} {a : Nat} {bs : List Byte} (h : s.memWrite a bs = .ok t) :
    SameButMemory s t ∧ (∀ x, x ∉ s.span a bs.length → t.mem.read x = s.mem.read x) ∧
      (s.mem.wf → t.mem.wf) ∧ t = s.storeAll ((s.span a bs.length).zip bs) := by
  unfold State.memWrite at h
  split at h
  · cases h
  · cases h
    refine ⟨s.storeAll_same _, fun x hx => ?_, fun hm => ?_, rfl⟩
    · refine s.storeAll_read_other _ ?_
      rintro ⟨y, b⟩ hc rfl
      exact hx (List.of_mem_zip hc).1
    · refine s.storeAll_wf _ ?_ hm
      rintro ⟨y, b⟩ hc
      exact Nat.lt_of_lt_of_le (State.lt_of_mem_span (List.of_mem_zip hc).1) s.addressSpace_le

/-- A byte may be stored to exactly where it is neither a device's nor program text. -/
theorem State.storeRefusal_eq_none {s : State} {a : Nat} :
    s.storeRefusal a = none ↔ s.isDevice a = false ∧ s.isText a = false := by
  unfold State.storeRefusal
  cases s.isDevice a <;> cases s.isText a <;> simp

/-- A store that is performed touches no program text. -/
theorem State.memWrite_text {s t : State} {a x : Nat} {bs : List Byte} (h : s.memWrite a bs = .ok t)
    (hx : s.isText x = true) : t.mem.read x = s.mem.read x := by
  refine (State.memWrite_ok h).2.1 x fun hm => ?_
  unfold State.memWrite at h
  split at h
  · cases h
  · next hn =>
    have := (State.storeRefusal_eq_none.1 (List.findSome?_eq_none_iff.1 hn x hm)).2
    simp [hx] at this

/-- `memWrite` answers a state where every byte may be stored to. -/
theorem State.memWrite_of_storable {s : State} {a : Nat} {bs : List Byte}
    (h : ∀ x ∈ s.span a bs.length, s.storeRefusal x = none) :
    s.memWrite a bs = .ok (s.storeAll ((s.span a bs.length).zip bs)) := by
  unfold State.memWrite
  rw [List.findSome?_eq_none_iff.2 h]

/-- The byte stored at each address of an access. -/
theorem State.memWrite_read {s t : State} {a : Nat} {bs : List Byte} (h : s.memWrite a bs = .ok t)
    (hl : bs.length ≤ 2 ^ 20) (i : Nat) (hi : i < bs.length) :
    t.mem.read ((a + i) % s.addressSpace) = some bs[i] := by
  obtain ⟨-, -, -, rfl⟩ := State.memWrite_ok h
  have h' := s.storeAll_read_zip (s.span a bs.length) bs (s.span_nodup a _ hl) (State.span_length s a _) i hi
  have hg : (s.span a bs.length)[i]'(by rw [State.span_length]; exact hi) = (a + i) % s.addressSpace := by
    unfold State.span
    rw [List.getElem_map, List.getElem_range]
  rw [← hg]
  exact h'

/-! ### Reads -/

/-- `readAll` answers the bytes of memory, where all are there and none is a device's. -/
theorem State.readAll_ok_iff {s : State} {as : List Nat} {bs : List Byte} :
    s.readAll as = .ok bs ↔ (∀ a ∈ as, s.isDevice a = false) ∧ as.map s.mem.read = bs.map some := by
  induction as generalizing bs with
  | nil => cases bs <;> simp [State.readAll]
  | cons a as ih =>
    simp only [State.readAll, State.readByte]
    by_cases hd : s.isDevice a
    · simp [hd]
    · cases hr : s.mem.read a with
      | none => cases bs <;> simp [hd, hr]
      | some b =>
        cases bs with
        | nil => cases hs : s.readAll as <;> simp [hd]
        | cons b' bs' =>
          have hi := @ih bs'
          cases hs : s.readAll as with
          | error e =>
            rw [hs] at hi
            have hn : ¬((∀ a ∈ as, s.isDevice a = false) ∧ as.map s.mem.read = bs'.map some) :=
              fun h => by cases hi.2 h
            simp only [hd, hr, List.map_cons, List.cons.injEq, List.mem_cons]
            constructor
            · intro h; cases h
            · rintro ⟨h, -, h'⟩
              exact absurd ⟨fun x hx => h x (.inr hx), h'⟩ hn
          | ok bs'' =>
            simp only [hs, Except.ok.injEq] at hi
            simp [hd, hr, hi, and_left_comm]

/-- `MemRead` answers `bs` exactly where memory holds those bytes and no device does. -/
theorem State.memRead_ok_iff {s : State} {a n : Nat} {bs : List Byte} :
    s.memRead a n = .ok bs ↔
      (∀ x ∈ s.span a n, s.isDevice x = false) ∧ (s.span a n).map s.mem.read = bs.map some :=
  State.readAll_ok_iff

theorem State.memRead_length {s : State} {a n : Nat} {bs : List Byte} (h : s.memRead a n = .ok bs) :
    bs.length = n := by
  have := congrArg List.length (State.memRead_ok_iff.1 h).2
  simpa using this.symm

end Sys2Proof.Machine
end

