-- ==== Sys2Proof/Laws/Ops.lean ====
section
/-! SUPPORT. What each shared operation can do when it answers a state: stores, pushes, operands, taking an
exception, and how an instruction ends. -/

namespace Sys2Proof.Machine

/-! ### Bits -/

theorem putBit_getLsbD (w : Word) (i j : Nat) (b : Bool) (hi : i < 16) :
    (putBit w i b).getLsbD j = if j = i then b else w.getLsbD j := by
  by_cases hj : j < 16
  · by_cases h : j = i
    · subst h; cases b <;> simp [putBit, hj]
    · have hz : (1#16 <<< i).getLsbD j = false := by
        simp only [BitVec.getLsbD_shiftLeft, BitVec.getLsbD_one, hj, decide_true, Bool.true_and]
        by_cases hlt : j < i
        · simp [hlt]
        · have : j - i ≠ 0 := by omega
          simp [this]
      cases b <;> simp only [putBit, Bool.false_eq_true, if_false, if_true, BitVec.getLsbD_and, BitVec.getLsbD_or,
        BitVec.getLsbD_not, hz, hj, h, decide_true, Bool.not_false, Bool.and_true, Bool.or_false]
  · have h : j ≠ i := by omega
    simp [h, BitVec.getLsbD_of_ge _ _ (Nat.le_of_not_lt hj)]

theorem putBit_getElem (w : Word) (i j : Nat) (b : Bool) (hi : i < 16) (hj : j < 16) :
    (putBit w i b)[j] = if j = i then b else w[j] := by
  rw [← BitVec.getLsbD_eq_getElem, ← BitVec.getLsbD_eq_getElem]
  exact putBit_getLsbD w i j b hi

theorem setZF_onlyZF (s : State) (b : Bool) : OnlyZF s (s.setZF b) b := fun i => by
  simp [putBit_getLsbD]

theorem flagsReserved_putBit {f : Word} {i : Nat} (b : Bool) (hi : i < 16)
    (h : i ≠ 1 ∧ i ≠ 3 ∧ i ≠ 5 ∧ i ≠ 15) (hf : flagsReserved f) : flagsReserved (putBit f i b) := by
  obtain ⟨h1, h3, h5, h15⟩ := h
  simpa [flagsReserved, putBit_getElem _ _ _ _ hi, Ne.symm h1, Ne.symm h3, Ne.symm h5, Ne.symm h15] using hf

/-! ### Segmented stores and the stack -/

theorem State.segWrite_ok {s t : State} {g : SegName} {off : Word} {bs : List Byte}
    (h : s.segWrite g off bs = .ok t) :
    ∃ a, s.segAccess g off bs.length .write = .ok a ∧ s.memWrite a bs = .ok t := by
  unfold State.segWrite at h
  cases ha : s.segAccess g off bs.length .write with
  | error e => simp [ha] at h
  | ok a => exact ⟨a, rfl, by simpa [ha] using h⟩

theorem State.segRead_ok {s : State} {g : SegName} {off : Word} {n : Nat} {bs : List Byte}
    (h : s.segRead g off n = .ok bs) :
    ∃ a, s.segAccess g off n .read = .ok a ∧ s.memRead a n = .ok bs := by
  unfold State.segRead at h
  cases ha : s.segAccess g off n .read with
  | error e => simp [ha] at h
  | ok a => exact ⟨a, rfl, by simpa [ha] using h⟩

/-- What pushes leave: everything but SP, memory and the instruction queues. -/
structure SameButStack (s t : State) : Prop where
  regs : ∀ r, r ≠ .sp → t.reg r = s.reg r
  ip : t.ip = s.ip
  flags : t.flags = s.flags
  msw : t.msw = s.msw
  es : t.es = s.es
  cs : t.cs = s.cs
  ss : t.ss = s.ss
  ds : t.ds = s.ds
  gdtr : t.gdtr = s.gdtr
  idtr : t.idtr = s.idtr
  ldtr : t.ldtr = s.ldtr
  cpl : t.cpl = s.cpl
  unflushed : t.unflushed = s.unflushed
  lastException : t.lastException = s.lastException
  plat : t.plat = s.plat
  tick : t.tick = s.tick
  wf : s.mem.wf → t.mem.wf
  high : ∀ x, s.addressSpace ≤ x → t.mem.read x = s.mem.read x

theorem SameButStack.refl (s : State) : SameButStack s s := by constructor <;> intros <;> first | rfl | assumption

theorem SameButStack.trans {s t u : State} (h : SameButStack s t) (k : SameButStack t u) : SameButStack s u where
  regs r hr := (k.regs r hr).trans (h.regs r hr)
  ip := k.ip.trans h.ip
  flags := k.flags.trans h.flags
  msw := k.msw.trans h.msw
  es := k.es.trans h.es
  cs := k.cs.trans h.cs
  ss := k.ss.trans h.ss
  ds := k.ds.trans h.ds
  gdtr := k.gdtr.trans h.gdtr
  idtr := k.idtr.trans h.idtr
  ldtr := k.ldtr.trans h.ldtr
  cpl := k.cpl.trans h.cpl
  unflushed := k.unflushed.trans h.unflushed
  lastException := k.lastException.trans h.lastException
  plat := k.plat.trans h.plat
  tick := k.tick.trans h.tick
  wf hw := k.wf (h.wf hw)
  high x hx := (k.high x (by rw [State.addressSpace_congr h.msw h.plat]; exact hx)).trans (h.high x hx)

theorem SameButStack.of_memWrite {s t : State} {a : Nat} {bs : List Byte} (h : s.memWrite a bs = .ok t) :
    SameButStack s t := by
  obtain ⟨hs, hr, hw, -⟩ := State.memWrite_ok h
  constructor
  case regs => intro r _; simp [State.reg, hs.gpr]
  case wf => exact hw
  case high => exact fun x hx => hr x (fun hm => absurd (State.lt_of_mem_span hm) (by omega))
  all_goals (cases hs; assumption)

theorem State.push_ok {s t : State} {w : Word} (h : s.push w = .ok t) :
    ∃ a u, s.segAccess .ss (s.gpr.sp - 2#16) 2 .write = .ok a ∧ s.memWrite a (leBytes 2 w.toNat) = .ok u ∧
      t = { u with gpr := { u.gpr with sp := s.gpr.sp - 2#16 } } := by
  unfold State.push at h
  cases hs : s.segWrite .ss (s.gpr.sp - 2#16) (leBytes 2 w.toNat) with
  | error e => simp [hs] at h
  | ok u =>
    obtain ⟨a, ha, hw⟩ := State.segWrite_ok hs
    simp only [hs, Except.ok.injEq] at h
    exact ⟨a, u, by simpa using ha, hw, h.symm⟩

theorem State.push_same {s t : State} {w : Word} (h : s.push w = .ok t) : SameButStack s t := by
  obtain ⟨a, u, -, hw, rfl⟩ := State.push_ok h
  refine (SameButStack.of_memWrite hw).trans ?_
  constructor
  case regs => intro r hr; cases r <;> first | rfl | exact absurd rfl hr
  all_goals (intros; first | rfl | assumption)

theorem State.pushAll_same {s t : State} {ws : List Word} (h : s.pushAll ws = .ok t) : SameButStack s t := by
  induction ws generalizing s with
  | nil => cases h; exact .refl _
  | cons w ws ih =>
    simp only [State.pushAll] at h
    cases hp : s.push w with
    | error e => simp [hp] at h
    | ok u => exact (State.push_same hp).trans (ih (by simpa [hp] using h))

/-! ### Operands -/

/-- ALL THAT writing an r/m16 operand CAN DO: one register, or a word of memory. -/
theorem State.writeRM_ok {s t : State} {ovr : Option SegName} {rm : RM} {v : Word} (h : s.writeRM ovr rm v = .ok t) :
    (∃ r, rm = .reg r ∧ t = s.setReg r v) ∨
    (∃ m a, rm = .mem m ∧ s.segAccess (operandSeg ovr m) (s.effAddr m) 2 .write = .ok a ∧
      s.memWrite a (leBytes 2 v.toNat) = .ok t) := by
  cases rm with
  | reg r => cases h; exact .inl ⟨r, rfl, rfl⟩
  | mem m =>
    obtain ⟨a, ha, hw⟩ := State.segWrite_ok h
    exact .inr ⟨m, a, rfl, by simpa using ha, hw⟩

/-- What an effect leaves of the system registers, memory's form and memory above the address space. -/
structure SameSystem (s t : State) : Prop where
  ip : t.ip = s.ip
  es : t.es = s.es
  cs : t.cs = s.cs
  ss : t.ss = s.ss
  ds : t.ds = s.ds
  cpl : t.cpl = s.cpl
  lastException : t.lastException = s.lastException
  plat : t.plat = s.plat
  tick : t.tick = s.tick
  wf : s.mem.wf → t.mem.wf
  high : ∀ x, s.addressSpace ≤ x → t.mem.read x = s.mem.read x

theorem SameButStack.system {s t : State} (h : SameButStack s t) : SameSystem s t :=
  ⟨h.ip, h.es, h.cs, h.ss, h.ds, h.cpl, h.lastException, h.plat, h.tick, h.wf, h.high⟩

theorem State.writeRM_same {s t : State} {ovr : Option SegName} {rm : RM} {v : Word}
    (h : s.writeRM ovr rm v = .ok t) :
    SameSystem s t ∧ t.flags = s.flags ∧ t.msw = s.msw ∧ t.unflushed = s.unflushed ∧ SameTables s t := by
  rcases State.writeRM_ok h with ⟨r, -, rfl⟩ | ⟨m, a, -, -, hw⟩
  · exact ⟨⟨rfl, rfl, rfl, rfl, rfl, rfl, rfl, rfl, rfl, id, fun _ _ => rfl⟩, rfl, rfl, rfl, rfl, rfl, rfl⟩
  · have k := SameButStack.of_memWrite hw
    exact ⟨k.system, k.flags, k.msw, k.unflushed, k.gdtr, k.idtr, k.ldtr⟩

/-- ALL THAT the 6-byte store of SGDT and SIDT CAN DO. -/
theorem State.writeTable_ok {s t : State} {ovr : Option SegName} {rm : RM} {r : TableReg}
    (h : s.writeTable ovr rm r = .ok t) :
    ∃ m a, rm = .mem m ∧ s.segAccess (operandSeg ovr m) (s.effAddr m) 6 .write = .ok a ∧
      s.memWrite a (imageOfTable r (Config.imageByte5 s.tick)) = .ok t := by
  cases rm with
  | reg r => cases h
  | mem m =>
    obtain ⟨a, ha, hw⟩ := State.segWrite_ok h
    exact ⟨m, a, rfl, by simpa [imageOfTable] using ha, hw⟩

/-! ### Taking an exception -/

/-- What taking an exception leaves: everything but SP, the flags it clears, CS:IP, the pushed words, the
queues and the record. -/
structure Entered (s t : State) : Prop where
  regs : ∀ r, r ≠ .sp → t.reg r = s.reg r
  flags : ∀ i, i ≠ 8 → i ≠ 9 → i ≠ 14 → t.flags.getLsbD i = s.flags.getLsbD i
  tf : t.tf = false
  msw : t.msw = s.msw
  es : t.es = s.es
  ss : t.ss = s.ss
  ds : t.ds = s.ds
  gdtr : t.gdtr = s.gdtr
  idtr : t.idtr = s.idtr
  ldtr : t.ldtr = s.ldtr
  cpl : t.cpl = s.cpl
  unflushed : t.unflushed = false
  queued : t.queued = []
  plat : t.plat = s.plat
  tick : t.tick = s.tick + 1
  wf : s.mem.wf → t.mem.wf
  high : ∀ x, s.addressSpace ≤ x → t.mem.read x = s.mem.read x

theorem SameButStack.enter {s t : State} (h : SameButStack s t) {f : Word} (cs : SegReg) (ip : Word)
    (hf : ∀ i, i ≠ 8 → i ≠ 9 → i ≠ 14 → f.getLsbD i = s.flags.getLsbD i) (ht : f.getLsbD 8 = false) :
    Entered s (({ t with flags := f }).transfer cs ip) where
  regs := h.regs
  flags := hf
  tf := ht
  msw := h.msw
  es := h.es
  ss := h.ss
  ds := h.ds
  gdtr := h.gdtr
  idtr := h.idtr
  ldtr := h.ldtr
  cpl := h.cpl
  unflushed := rfl
  queued := rfl
  plat := h.plat
  tick := by simp [h.tick]
  wf := h.wf
  high := h.high

theorem State.deliverReal_entered {s t : State} {n : Nat} (h : s.deliverReal n = .ok t) : Entered s t := by
  unfold State.deliverReal at h
  split at h
  · cases h
  · split at h
    · cases h
    · next u hp =>
      split at h
      · cases h
      · cases h
        refine (State.pushAll_same hp).enter _ _ (fun i h8 h9 _ => ?_) ?_
        · simp [clearIfTf, putBit_getLsbD, h8, h9]
        · simp only [clearIfTf, putBit_getLsbD _ _ _ _ (show 8 < 16 by decide), if_true]

theorem State.enterHandler_entered {s t : State} {e : Exc} {g : Gate} {sel ip : Word} {d : Descriptor} {a : Nat}
    (h : s.enterHandler e g sel ip d a = .ok t) : Entered s t := by
  unfold State.enterHandler at h
  split at h
  · cases h
  · next u hp =>
    split at h
    · cases h
    · next v hw =>
      cases h
      refine ((State.pushAll_same hp).trans (SameButStack.of_memWrite hw)).enter _ _ (fun i h8 h9 h14 => ?_) ?_
      · by_cases hg : g = Gate.interrupt <;> simp [clearForGate, putBit_getLsbD, hg, h8, h9, h14]
      · simp only [clearForGate, putBit_getLsbD _ _ _ _ (show 8 < 16 by decide),
          putBit_getLsbD _ _ _ _ (show 14 < 16 by decide), if_true, ite_self]

theorem State.deliverProtected_entered {s t : State} {e : Exc} (h : s.deliverProtected e = .ok t) :
    Entered s t := by
  unfold State.deliverProtected at h
  split at h
  · cases h
  · split at h
    · cases h
    · split at h
      · cases h
      · cases h
      · split at h
        · cases h
        · split at h
          · cases h
          · split at h
            · exact State.enterHandler_entered h
            · cases h
          · cases h

/-- ALL THAT delivering an exception CAN DO when it answers a state. -/
theorem State.deliver_entered {s t : State} {e : Exc} (h : s.deliver e = .ok t) : Entered s t := by
  unfold State.deliver at h
  split at h
  · exact State.deliverProtected_entered h
  · exact State.deliverReal_entered h

/-- ALL THAT delivering an exception CAN DO when it answers a next state: one delivery, of the exception or of
the double fault, and its record. -/
theorem State.takeException_next {s t : State} {e : Exc} (h : s.takeException e = .next t) :
    ∃ e' u, (e' = e ∨ e' = .doubleFault) ∧ s.deliver e' = .ok u ∧
      t = { u with lastException := some (s.record e') } := by
  unfold State.takeException at h
  split at h
  · next u hu => cases h; exact ⟨e, u, .inl rfl, hu, rfl⟩
  · cases h
  · cases h
  · split at h
    · next u hu => cases h; exact ⟨.doubleFault, u, .inr rfl, hu, rfl⟩
    · cases h
    · cases h
    · cases h

theorem State.raise_spec {s : State} (h : s.plat.rulings = .spec) (e : Exc) :
    s.raise e = .fault (.exceptionEndsRun (s.record e)) := by
  unfold State.raise; rw [h]

theorem State.raise_chip {s : State} (h : s.plat.rulings = .chip) (e : Exc) : s.raise e = s.takeException e := by
  unfold State.raise; rw [h]

/-- ALL THAT taking an exception CAN DO when it answers a next state, which it does under the chip's rulings
only. -/
theorem State.raise_next {s t : State} {e : Exc} (h : s.raise e = .next t) :
    s.plat.rulings = .chip ∧ ∃ e' u, (e' = e ∨ e' = .doubleFault) ∧ s.deliver e' = .ok u ∧
      t = { u with lastException := some (s.record e') } := by
  cases hr : s.plat.rulings with
  | spec => rw [State.raise_spec hr] at h; cases h
  | chip => exact ⟨rfl, State.takeException_next ((State.raise_chip hr e) ▸ h)⟩

theorem State.raise_entered {s t : State} {e : Exc} (h : s.raise e = .next t) : Entered s t := by
  obtain ⟨-, e', u, -, hu, rfl⟩ := State.raise_next h
  have k := State.deliver_entered hu
  exact ⟨k.regs, k.flags, k.tf, k.msw, k.es, k.ss, k.ds, k.gdtr, k.idtr, k.ldtr, k.cpl, k.unflushed, k.queued,
    k.plat, k.tick, k.wf, k.high⟩

theorem State.raise_of_deliver {s u : State} {e : Exc} (hr : s.plat.rulings = .chip) (h : s.deliver e = .ok u) :
    s.raise e = .next { u with lastException := some (s.record e) } := by
  rw [State.raise_chip hr, State.takeException, h]

/-! ### How an instruction ends -/

theorem State.stop_next {s t : State} {e : Stop} (h : s.stop e = .next t) : ∃ x, e = .exc x ∧ s.raise x = .next t := by
  cases e with
  | exc x => exact ⟨x, rfl, h⟩
  | fault f => cases h
  | refuse r => cases h

theorem State.finish_next {s t : State} {n : Nat} {r : Except Stop State} (h : s.finish n r = .next t) :
    (∃ u, r = .ok u ∧ t = u.advance n) ∨ (∃ x, s.raise x = .next t) := by
  cases r with
  | ok u => cases h; exact .inl ⟨u, rfl, rfl⟩
  | error e =>
    obtain ⟨x, -, hx⟩ := State.stop_next h
    exact .inr ⟨x, hx⟩

theorem State.singleStep_next {s t : State} {r : Result} (h : s.singleStep r = .next t) :
    ∃ u, r = .next u ∧ (t = u ∨ (u.tf = true ∧ u.raise .singleStep = .next t)) := by
  cases r with
  | fault f => cases h
  | refused f => cases h
  | next u =>
    simp only [State.singleStep] at h
    split at h
    · next hc => exact ⟨u, rfl, .inr ⟨by simp_all, h⟩⟩
    · cases h; exact ⟨_, rfl, .inl rfl⟩

@[simp] theorem State.finish_ok (s t : State) (n : Nat) : s.finish n (.ok t) = .next (t.advance n) := rfl

theorem State.requireProtected_ready {s : State} (h : s.protectedReady) : s.requireProtected = .ok () := by
  simp [State.requireProtected, h.1, h.2]

theorem State.requireCPL0_privileged {s : State} (h : s.privileged) : s.requireCPL0 = .ok () := by
  rcases h with h | h <;> simp [State.requireCPL0, h]

theorem State.requireCPL0_ok {s : State} (h : s.requireCPL0 = .ok ()) : s.privileged := by
  unfold State.requireCPL0 at h
  split at h
  · cases h
  · next hc =>
    by_cases hp : s.pe = true
    · right; simpa [hp] using hc
    · left; simpa using hp

end Sys2Proof.Machine
end

