-- ==== Sys2Proof/Laws/Exec.lean ====
section
/-! SUPPORT. What executing an instruction can do: it completes with its effect, waits, or takes an
exception; and what each effect leaves. Statements about all steps are derived from here. -/

namespace Sys2Proof.Machine

/-- The effect of an instruction that completes. -/
def effect : Instr → State → Except Stop State
  | .clts _, s => cltsEffect s
  | .lgdt o rm, s => lgdtEffect o rm s
  | .sgdt o rm, s => s.writeTable o rm s.gdtr
  | .lidt o rm, s => lidtEffect o rm s
  | .sidt o rm, s => s.writeTable o rm s.idtr
  | .lldt o rm, s => lldtEffect o rm s
  | .sldt o rm, s => sldtEffect o rm s
  | .lmsw o rm, s => lmswEffect o rm s
  | .smsw o rm, s => s.writeRM o rm s.msw
  | .lar o r rm, s => larEffect o r rm s
  | .lsl o r rm, s => lslEffect o r rm s
  | .arpl o r rm, s => arplEffect o r rm s
  | .verr o rm, s => verrEffect o rm s
  | .verw o rm, s => verwEffect o rm s
  | .wait _, s => .ok s
  | .esc _ _ _ _, _ => .error (.refuse .processorExtensionNotModelled)

/-- ALL THAT `exec` CAN DO when it answers a next state: hold the machine (WAIT), take an exception, or
complete with the instruction's effect. -/
theorem exec_next {i : Instr} {s t : State} (h : exec i s = .next t) :
    (t = s ∧ ∃ o, i = .wait o) ∨ (∃ e, s.raise e = .next t) ∨
      ∃ u, effect i s = .ok u ∧ t = u.advance i.length := by
  cases i with
  | wait o =>
    simp only [exec, execWait] at h
    split at h
    · exact .inr (.inl ⟨_, h⟩)
    · split at h
      · cases h
      · split at h
        · cases h; exact .inl ⟨rfl, o, rfl⟩
        · split at h
          · exact .inr (.inl ⟨_, h⟩)
          · cases h; exact .inr (.inr ⟨s, rfl, rfl⟩)
  | esc o x y rm =>
    simp only [exec, execEsc] at h
    split at h
    · exact .inr (.inl ⟨_, h⟩)
    · split at h
      · exact .inr (.inl ⟨_, h⟩)
      · cases h
  | _ =>
    rcases State.finish_next h with h | h
    · exact .inr (.inr h)
    · exact .inr (.inl h)

/-! ### The parts of the effects -/

theorem cltsEffect_ok {s t : State} (h : cltsEffect s = .ok t) :
    s.privileged ∧ t = { s with msw := clearTS s.msw } := by
  unfold cltsEffect at h
  split at h
  · cases h
  · next hc => cases h; exact ⟨State.requireCPL0_ok hc, rfl⟩

theorem State.readTable_ok {s : State} {o : Option SegName} {rm : RM} {r : TableReg}
    (h : s.readTable o rm = .ok r) :
    s.privileged ∧ ∃ m bs, rm = .mem m ∧ s.segRead (operandSeg o m) (s.effAddr m) 6 = .ok bs ∧
      r = tableOfImage bs := by
  cases rm with
  | reg r => cases h
  | mem m =>
    simp only [State.readTable] at h
    split at h
    · cases h
    · next hc =>
      split at h
      · cases h
      · next bs hb => cases h; exact ⟨State.requireCPL0_ok hc, m, bs, rfl, hb, rfl⟩

theorem lgdtEffect_ok {s t : State} {o : Option SegName} {rm : RM} (h : lgdtEffect o rm s = .ok t) :
    ∃ r, s.readTable o rm = .ok r ∧ t = { s with gdtr := r } := by
  unfold lgdtEffect at h
  split at h
  · cases h
  · next r hr => cases h; exact ⟨r, hr, rfl⟩

theorem lidtEffect_ok {s t : State} {o : Option SegName} {rm : RM} (h : lidtEffect o rm s = .ok t) :
    ∃ r, s.readTable o rm = .ok r ∧ t = { s with idtr := r } := by
  unfold lidtEffect at h
  split at h
  · cases h
  · next r hr => cases h; exact ⟨r, hr, rfl⟩

theorem loadLdt_ok {s t : State} {sel : Word} (h : loadLdt s sel = .ok t) : ∃ l, t = { s with ldtr := l } := by
  unfold loadLdt at h
  split at h
  · cases h; exact ⟨_, rfl⟩
  · split at h
    · cases h
    · split at h
      · cases h
      · split at h
        · cases h
        · split at h
          · cases h
          · cases h; exact ⟨_, rfl⟩
      · cases h

theorem State.requireProtected_pe {s : State} (h : s.requireProtected = .ok ()) : s.pe = true := by
  unfold State.requireProtected at h
  split at h
  · cases h
  · next hp => simpa using hp

theorem lldtEffect_ok {s t : State} {o : Option SegName} {rm : RM} (h : lldtEffect o rm s = .ok t) :
    s.pe = true ∧ s.privileged ∧ ∃ l, t = { s with ldtr := l } := by
  unfold lldtEffect at h
  split at h
  · cases h
  · next hp =>
    split at h
    · cases h
    · next hc =>
      split at h
      · cases h
      · exact ⟨State.requireProtected_pe hp, State.requireCPL0_ok hc, loadLdt_ok h⟩

theorem sldtEffect_ok {s t : State} {o : Option SegName} {rm : RM} (h : sldtEffect o rm s = .ok t) :
    s.pe = true ∧ s.writeRM o rm s.ldtr.sel = .ok t := by
  unfold sldtEffect at h
  split at h
  · cases h
  · next hp => exact ⟨State.requireProtected_pe hp, h⟩

theorem lmswEffect_ok {s t : State} {o : Option SegName} {rm : RM} (h : lmswEffect o rm s = .ok t) :
    s.privileged ∧ ∃ src, s.readRM o rm = .ok src ∧
      t = { s with msw := loadMsw s.msw src, unflushed := s.unflushed || (!s.pe && src.getLsbD 0) } := by
  unfold lmswEffect at h
  split at h
  · cases h
  · next hc =>
    split at h
    · cases h
    · next src hs => cases h; exact ⟨State.requireCPL0_ok hc, src, hs, rfl⟩

theorem larEffect_ok {s t : State} {o : Option SegName} {r : Reg16} {rm : RM} (h : larEffect o r rm s = .ok t) :
    (∃ v, t = (s.setReg r v).setZF true) ∨ t = s.setZF false := by
  unfold larEffect at h
  split at h
  · cases h
  · split at h
    · cases h; exact .inl ⟨_, rfl⟩
    · cases h; exact .inr rfl

theorem lslEffect_ok {s t : State} {o : Option SegName} {r : Reg16} {rm : RM} (h : lslEffect o r rm s = .ok t) :
    (∃ v, t = (s.setReg r v).setZF true) ∨ t = s.setZF false := by
  unfold lslEffect at h
  split at h
  · cases h
  · split at h
    · cases h; exact .inl ⟨_, rfl⟩
    · cases h; exact .inr rfl

theorem verrEffect_ok {s t : State} {o : Option SegName} {rm : RM} (h : verrEffect o rm s = .ok t) :
    ∃ b, t = s.setZF b := by
  unfold verrEffect at h
  split at h
  · cases h
  · cases h; exact ⟨_, rfl⟩

theorem verwEffect_ok {s t : State} {o : Option SegName} {rm : RM} (h : verwEffect o rm s = .ok t) :
    ∃ b, t = s.setZF b := by
  unfold verwEffect at h
  split at h
  · cases h
  · cases h; exact ⟨_, rfl⟩

theorem arplEffect_ok {s t : State} {o : Option SegName} {r : Reg16} {rm : RM} (h : arplEffect o r rm s = .ok t) :
    (∃ v u, s.writeRM o rm v = .ok u ∧ t = u.setZF true) ∨ t = s.setZF false := by
  unfold arplEffect at h
  split at h
  · cases h
  · split at h
    · cases h
    · split at h
      · cases h
      · split at h
        · split at h
          · cases h
          · next u hu => cases h; exact .inl ⟨_, u, hu, rfl⟩
        · cases h; exact .inr rfl

/-! ### What every effect leaves -/

/-- An effect that writes only general registers, flags, the MSW, the mark and table registers. -/
theorem SameSystem.of_eq {s t : State} (h : (t.ip, t.es, t.cs, t.ss, t.ds, t.cpl, t.lastException, t.plat, t.tick, t.mem)
    = (s.ip, s.es, s.cs, s.ss, s.ds, s.cpl, s.lastException, s.plat, s.tick, s.mem)) : SameSystem s t := by
  simp only [Prod.mk.injEq] at h
  obtain ⟨h1, h2, h3, h4, h5, h6, h7, h8, h9, hm⟩ := h
  exact ⟨h1, h2, h3, h4, h5, h6, h7, h8, h9, fun hw => hm ▸ hw, fun _ _ => by rw [hm]⟩

theorem setZF_system (s : State) (b : Bool) : SameSystem s (s.setZF b) := .of_eq rfl

/-- No effect changes IP, a segment register, CPL, the record, the platform, or memory that does not exist. -/
theorem effect_system {i : Instr} {s t : State} (h : effect i s = .ok t) : SameSystem s t := by
  cases i with
  | clts o => obtain ⟨-, rfl⟩ := cltsEffect_ok h; exact .of_eq rfl
  | lgdt o rm => obtain ⟨r, -, rfl⟩ := lgdtEffect_ok h; exact .of_eq rfl
  | sgdt o rm => obtain ⟨m, a, -, -, hw⟩ := State.writeTable_ok h; exact (SameButStack.of_memWrite hw).system
  | lidt o rm => obtain ⟨r, -, rfl⟩ := lidtEffect_ok h; exact .of_eq rfl
  | sidt o rm => obtain ⟨m, a, -, -, hw⟩ := State.writeTable_ok h; exact (SameButStack.of_memWrite hw).system
  | lldt o rm => obtain ⟨-, -, l, rfl⟩ := lldtEffect_ok h; exact .of_eq rfl
  | sldt o rm => exact (State.writeRM_same (sldtEffect_ok h).2).1
  | lmsw o rm => obtain ⟨-, src, -, rfl⟩ := lmswEffect_ok h; exact .of_eq rfl
  | smsw o rm => exact (State.writeRM_same h).1
  | lar o r rm => rcases larEffect_ok h with ⟨v, rfl⟩ | rfl <;> exact .of_eq rfl
  | lsl o r rm => rcases lslEffect_ok h with ⟨v, rfl⟩ | rfl <;> exact .of_eq rfl
  | arpl o r rm =>
    rcases arplEffect_ok h with ⟨v, u, hu, rfl⟩ | rfl
    · obtain ⟨k, -⟩ := State.writeRM_same hu
      exact ⟨k.ip, k.es, k.cs, k.ss, k.ds, k.cpl, k.lastException, k.plat, k.tick, k.wf, k.high⟩
    · exact setZF_system s false
  | verr o rm => obtain ⟨b, rfl⟩ := verrEffect_ok h; exact setZF_system s b
  | verw o rm => obtain ⟨b, rfl⟩ := verwEffect_ok h; exact setZF_system s b
  | wait o => cases h; exact .of_eq rfl
  | esc o x y rm => cases h

/-- No effect changes a bit of the status word but ZF. -/
theorem effect_flags {i : Instr} {s t : State} (h : effect i s = .ok t) :
    t.flags = s.flags ∨ ∃ b, t.flags = putBit s.flags 6 b := by
  cases i with
  | clts o => obtain ⟨-, rfl⟩ := cltsEffect_ok h; exact .inl rfl
  | lgdt o rm => obtain ⟨r, -, rfl⟩ := lgdtEffect_ok h; exact .inl rfl
  | sgdt o rm => obtain ⟨m, a, -, -, hw⟩ := State.writeTable_ok h; exact .inl (SameButStack.of_memWrite hw).flags
  | lidt o rm => obtain ⟨r, -, rfl⟩ := lidtEffect_ok h; exact .inl rfl
  | sidt o rm => obtain ⟨m, a, -, -, hw⟩ := State.writeTable_ok h; exact .inl (SameButStack.of_memWrite hw).flags
  | lldt o rm => obtain ⟨-, -, l, rfl⟩ := lldtEffect_ok h; exact .inl rfl
  | sldt o rm => exact .inl (State.writeRM_same (sldtEffect_ok h).2).2.1
  | lmsw o rm => obtain ⟨-, src, -, rfl⟩ := lmswEffect_ok h; exact .inl rfl
  | smsw o rm => exact .inl (State.writeRM_same h).2.1
  | lar o r rm =>
    rcases larEffect_ok h with ⟨v, rfl⟩ | rfl
    · exact .inr ⟨true, rfl⟩
    · exact .inr ⟨false, rfl⟩
  | lsl o r rm =>
    rcases lslEffect_ok h with ⟨v, rfl⟩ | rfl
    · exact .inr ⟨true, rfl⟩
    · exact .inr ⟨false, rfl⟩
  | arpl o r rm =>
    rcases arplEffect_ok h with ⟨v, u, hu, rfl⟩ | rfl
    · exact .inr ⟨true, by rw [State.setZF_flags, (State.writeRM_same hu).2.1]⟩
    · exact .inr ⟨false, rfl⟩
  | verr o rm => obtain ⟨b, rfl⟩ := verrEffect_ok h; exact .inr ⟨b, rfl⟩
  | verw o rm => obtain ⟨b, rfl⟩ := verwEffect_ok h; exact .inr ⟨b, rfl⟩
  | wait o => cases h; exact .inl rfl
  | esc o x y rm => cases h

/-- What an effect may change of the machine status word, the mark and the table registers: each by its own
instructions, all privileged. -/
structure EffectControl (i : Instr) (s t : State) : Prop where
  msw : t.msw = s.msw ∨ (s.privileged ∧ ((∃ o, i = .clts o) ∨ ∃ o rm, i = .lmsw o rm))
  unflushed : t.unflushed = s.unflushed ∨ (s.privileged ∧ ∃ o rm, i = .lmsw o rm)
  gdtr : t.gdtr = s.gdtr ∨ (s.privileged ∧ ∃ o rm, i = .lgdt o rm)
  idtr : t.idtr = s.idtr ∨ (s.privileged ∧ ∃ o rm, i = .lidt o rm)
  ldtr : t.ldtr = s.ldtr ∨ (s.privileged ∧ ∃ o rm, i = .lldt o rm)

theorem EffectControl.same {i : Instr} {s t : State} (hm : t.msw = s.msw) (hu : t.unflushed = s.unflushed)
    (ht : SameTables s t) : EffectControl i s t := ⟨.inl hm, .inl hu, .inl ht.1, .inl ht.2.1, .inl ht.2.2⟩

theorem effect_control {i : Instr} {s t : State} (h : effect i s = .ok t) : EffectControl i s t := by
  cases i with
  | clts o =>
    obtain ⟨hp, rfl⟩ := cltsEffect_ok h
    exact ⟨.inr ⟨hp, .inl ⟨o, rfl⟩⟩, .inl rfl, .inl rfl, .inl rfl, .inl rfl⟩
  | lgdt o rm =>
    obtain ⟨r, hr, rfl⟩ := lgdtEffect_ok h
    exact ⟨.inl rfl, .inl rfl, .inr ⟨(State.readTable_ok hr).1, o, rm, rfl⟩, .inl rfl, .inl rfl⟩
  | sgdt o rm =>
    obtain ⟨m, a, -, -, hw⟩ := State.writeTable_ok h
    have k := SameButStack.of_memWrite hw
    exact .same k.msw k.unflushed ⟨k.gdtr, k.idtr, k.ldtr⟩
  | lidt o rm =>
    obtain ⟨r, hr, rfl⟩ := lidtEffect_ok h
    exact ⟨.inl rfl, .inl rfl, .inl rfl, .inr ⟨(State.readTable_ok hr).1, o, rm, rfl⟩, .inl rfl⟩
  | sidt o rm =>
    obtain ⟨m, a, -, -, hw⟩ := State.writeTable_ok h
    have k := SameButStack.of_memWrite hw
    exact .same k.msw k.unflushed ⟨k.gdtr, k.idtr, k.ldtr⟩
  | lldt o rm =>
    obtain ⟨-, hp, l, rfl⟩ := lldtEffect_ok h
    exact ⟨.inl rfl, .inl rfl, .inl rfl, .inl rfl, .inr ⟨hp, o, rm, rfl⟩⟩
  | sldt o rm => have k := State.writeRM_same (sldtEffect_ok h).2; exact .same k.2.2.1 k.2.2.2.1 k.2.2.2.2
  | lmsw o rm =>
    obtain ⟨hp, src, -, rfl⟩ := lmswEffect_ok h
    exact ⟨.inr ⟨hp, .inr ⟨o, rm, rfl⟩⟩, .inr ⟨hp, o, rm, rfl⟩, .inl rfl, .inl rfl, .inl rfl⟩
  | smsw o rm => have k := State.writeRM_same h; exact .same k.2.2.1 k.2.2.2.1 k.2.2.2.2
  | lar o r rm => rcases larEffect_ok h with ⟨v, rfl⟩ | rfl <;> exact .same rfl rfl ⟨rfl, rfl, rfl⟩
  | lsl o r rm => rcases lslEffect_ok h with ⟨v, rfl⟩ | rfl <;> exact .same rfl rfl ⟨rfl, rfl, rfl⟩
  | arpl o r rm =>
    rcases arplEffect_ok h with ⟨v, u, hu, rfl⟩ | rfl
    · have k := State.writeRM_same hu; exact .same k.2.2.1 k.2.2.2.1 k.2.2.2.2
    · exact .same rfl rfl ⟨rfl, rfl, rfl⟩
  | verr o rm => obtain ⟨b, rfl⟩ := verrEffect_ok h; exact .same rfl rfl ⟨rfl, rfl, rfl⟩
  | verw o rm => obtain ⟨b, rfl⟩ := verwEffect_ok h; exact .same rfl rfl ⟨rfl, rfl, rfl⟩
  | wait o => cases h; exact .same rfl rfl ⟨rfl, rfl, rfl⟩
  | esc o x y rm => cases h

/-! ### The machine status word -/

theorem loadMsw_getLsbD (m src : Word) (i : Nat) :
    (loadMsw m src).getLsbD i =
      if i = 0 then m.getLsbD 0 || src.getLsbD 0 else if i < 4 then src.getLsbD i else m.getLsbD i := by
  simp only [loadMsw, putBit_getLsbD _ _ _ _ (show 0 < 16 by decide), putBit_getLsbD _ _ _ _ (show 1 < 16 by decide),
    putBit_getLsbD _ _ _ _ (show 2 < 16 by decide), putBit_getLsbD _ _ _ _ (show 3 < 16 by decide)]
  rcases i with _ | _ | _ | _ | i
  · rfl
  · rfl
  · rfl
  · rfl
  · simp

theorem clearTS_getLsbD (m : Word) (i : Nat) :
    (clearTS m).getLsbD i = if i = 3 then false else m.getLsbD i := putBit_getLsbD m 3 i false (by decide)

/-- What an effect makes of the machine status word: nothing, TS cleared, or a load. -/
theorem effect_msw {i : Instr} {s t : State} (h : effect i s = .ok t) :
    t.msw = s.msw ∨ ((∃ o, i = .clts o) ∧ t.msw = clearTS s.msw) ∨
      ∃ o rm src, i = .lmsw o rm ∧ t.msw = loadMsw s.msw src ∧
        t.unflushed = (s.unflushed || (!s.pe && src.getLsbD 0)) := by
  cases i with
  | clts o => obtain ⟨-, rfl⟩ := cltsEffect_ok h; exact .inr (.inl ⟨⟨o, rfl⟩, rfl⟩)
  | lmsw o rm => obtain ⟨-, src, -, rfl⟩ := lmswEffect_ok h; exact .inr (.inr ⟨o, rm, src, rfl, rfl, rfl⟩)
  | _ =>
    refine .inl ((effect_control h).msw.resolve_right ?_)
    rintro ⟨-, ⟨o, ho⟩ | ⟨o, rm, ho⟩⟩ <;> cases ho

/-- No effect clears PE. -/
theorem effect_pe {i : Instr} {s t : State} (h : effect i s = .ok t) (hp : s.pe = true) : t.pe = true := by
  unfold State.pe at hp ⊢
  rcases effect_msw h with h | ⟨-, h⟩ | ⟨o, rm, src, -, h, -⟩
  · rw [h]; exact hp
  · rw [h, clearTS_getLsbD]; exact hp
  · rw [h, loadMsw_getLsbD]; simp [hp]

end Sys2Proof.Machine
end

