-- ==== Sys2Proof/Laws/PerInstr.lean ====
section
/-! SUPPORT. A statement about every instruction as syntax, one lemma per constructor: after its override byte,
if it has one, its encoding goes on with an opcode byte of the table (30_encoding.md R91, R97). -/

namespace Sys2Proof.Laws

/-- The bytes that begin an opcode of opcode_table.json: `0F`, `63`, `9B`, and `D8` to `DF`. -/
def isOpcodeByte (b : Byte) : Prop := b = 0x0F#8 ∨ b = 0x63#8 ∨ b = 0x9B#8 ∨ b.extractLsb' 3 5 = 0x1B#5

/-- The encoding is the override byte, if any, an opcode byte, and the rest. -/
def OpcodeByte.Statement (i : Instr) : Prop :=
  ∃ o b rest, encode i = overrideBytes o ++ b :: rest ∧ isOpcodeByte b

theorem OpcodeByte.clts (ovr : Option SegName) : OpcodeByte.Statement (.clts ovr) :=
  ⟨ovr, 0x0F, _, rfl, .inl rfl⟩

theorem OpcodeByte.lgdt (ovr : Option SegName) (rm : RM) : OpcodeByte.Statement (.lgdt ovr rm) :=
  ⟨ovr, 0x0F, _, List.append_assoc .., .inl rfl⟩

theorem OpcodeByte.sgdt (ovr : Option SegName) (rm : RM) : OpcodeByte.Statement (.sgdt ovr rm) :=
  ⟨ovr, 0x0F, _, List.append_assoc .., .inl rfl⟩

theorem OpcodeByte.lidt (ovr : Option SegName) (rm : RM) : OpcodeByte.Statement (.lidt ovr rm) :=
  ⟨ovr, 0x0F, _, List.append_assoc .., .inl rfl⟩

theorem OpcodeByte.sidt (ovr : Option SegName) (rm : RM) : OpcodeByte.Statement (.sidt ovr rm) :=
  ⟨ovr, 0x0F, _, List.append_assoc .., .inl rfl⟩

theorem OpcodeByte.lldt (ovr : Option SegName) (rm : RM) : OpcodeByte.Statement (.lldt ovr rm) :=
  ⟨ovr, 0x0F, _, List.append_assoc .., .inl rfl⟩

theorem OpcodeByte.sldt (ovr : Option SegName) (rm : RM) : OpcodeByte.Statement (.sldt ovr rm) :=
  ⟨ovr, 0x0F, _, List.append_assoc .., .inl rfl⟩

theorem OpcodeByte.lmsw (ovr : Option SegName) (rm : RM) : OpcodeByte.Statement (.lmsw ovr rm) :=
  ⟨ovr, 0x0F, _, List.append_assoc .., .inl rfl⟩

theorem OpcodeByte.smsw (ovr : Option SegName) (rm : RM) : OpcodeByte.Statement (.smsw ovr rm) :=
  ⟨ovr, 0x0F, _, List.append_assoc .., .inl rfl⟩

theorem OpcodeByte.lar (ovr : Option SegName) (reg : Reg16) (rm : RM) : OpcodeByte.Statement (.lar ovr reg rm) :=
  ⟨ovr, 0x0F, _, List.append_assoc .., .inl rfl⟩

theorem OpcodeByte.lsl (ovr : Option SegName) (reg : Reg16) (rm : RM) : OpcodeByte.Statement (.lsl ovr reg rm) :=
  ⟨ovr, 0x0F, _, List.append_assoc .., .inl rfl⟩

theorem OpcodeByte.arpl (ovr : Option SegName) (reg : Reg16) (rm : RM) : OpcodeByte.Statement (.arpl ovr reg rm) :=
  ⟨ovr, 0x63, _, List.append_assoc .., .inr (.inl rfl)⟩

theorem OpcodeByte.verr (ovr : Option SegName) (rm : RM) : OpcodeByte.Statement (.verr ovr rm) :=
  ⟨ovr, 0x0F, _, List.append_assoc .., .inl rfl⟩

theorem OpcodeByte.verw (ovr : Option SegName) (rm : RM) : OpcodeByte.Statement (.verw ovr rm) :=
  ⟨ovr, 0x0F, _, List.append_assoc .., .inl rfl⟩

theorem OpcodeByte.wait (ovr : Option SegName) : OpcodeByte.Statement (.wait ovr) :=
  ⟨ovr, 0x9B, [], rfl, .inr (.inr (.inl rfl))⟩

/-- The high five bits of ESC's opcode byte are the table's. -/
theorem esc_opcode (x : BitVec 3) : (0x1B#5 ++ x : BitVec 8).extractLsb' 3 5 = 0x1B#5 := by
  revert x; decide

theorem OpcodeByte.esc (ovr : Option SegName) (x y : BitVec 3) (rm : RM) : OpcodeByte.Statement (.esc ovr x y rm) :=
  ⟨ovr, (0x1B#5 ++ x : BitVec 8), _, List.append_assoc .., .inr (.inr (.inr (esc_opcode x)))⟩

end Sys2Proof.Laws
end

