-- ==== Sys2Proof/Tests/Slice0.lean ====
section
/-! SUPPORT. Tests of one step or one operation each, with the results that 95_test_vectors.md or hand
calculation from the named rules gives, and a witness for the hypotheses of every statement. -/

namespace Sys2Proof.Tests

open Sys2Proof.Machine

/-! ## Helpers -/

/-- Bytes at consecutive addresses. -/
def cells (a : Nat) (bs : List Byte) : Memory := ((List.range bs.length).map (fun i => a + i)).zip bs

/-- A flat segment with an access rights byte. -/
def flat (access : Byte) : SegReg := { sel := 0, base := 0, limit := 0xFFFF, access := access, valid := true }

/-- Launch LR of 95_test_vectors.md section 2: real address mode, IP 0100h. -/
def lr : State := { State.reset with ip := 0x0100, cs := flat 0x9B }

/-- Descriptors 1 to 7 of the global table of launch LP, and entry 1 of its local table. -/
def tables : Memory :=
  cells 0x1008 [0xFF, 0xFF, 0x00, 0x00, 0x02, 0x93, 0x00, 0x00] ++
  cells 0x1010 [0xFF, 0xFF, 0x00, 0x00, 0x00, 0x9B, 0x00, 0x00] ++
  cells 0x1018 [0xFF, 0x0F, 0x00, 0x00, 0x03, 0x99, 0x00, 0x00] ++
  cells 0x1020 [0xFF, 0x00, 0x00, 0x00, 0x04, 0xF1, 0x00, 0x00] ++
  cells 0x1028 [0xFF, 0x00, 0x00, 0x30, 0x00, 0x82, 0x00, 0x00] ++
  cells 0x1030 [0x00, 0x00, 0x10, 0x00, 0x00, 0x84, 0x00, 0x00] ++
  cells 0x1038 [0xFF, 0xFF, 0x00, 0x00, 0x05, 0x9F, 0x00, 0x00] ++
  cells 0x3008 [0xFF, 0x7F, 0x00, 0x00, 0x06, 0xF3, 0x00, 0x00]

/-- Launch LP of 95_test_vectors.md section 2, at a given level: protected mode, IP 0200h. -/
def lp (cpl : BitVec 2) : State :=
  { lr with ip := 0x0200, msw := 0xFFF1, cpl := cpl, gdtr := { base := 0x001000, limit := 0x003F }, mem := tables }

/-- The state a result answers, seen through a function. -/
def after {α : Type} (r : Result) (f : State → α) : Option α :=
  match r with
  | .next t => some (f t)
  | _ => none

/-- Why an operation stops. -/
def stopOf {α : Type} : Except Stop α → Option Stop
  | .error e => some e
  | .ok _ => none

/-- The value an operation answers. -/
def valueOf {α : Type} : Except Stop α → Option α
  | .ok v => some v
  | .error _ => none

/-- The fault a result stops with. -/
def faultOf : Result → Option Fault
  | .fault f => some f
  | _ => none

/-- The refusal a result stops with. -/
def refusalOf : Result → Option Refusal
  | .refused r => some r
  | _ => none

theorem next_of_after {r : Result} (h : after r (fun _ => ()) = some ()) : ∃ t, r = .next t := by
  cases r with
  | next t => exact ⟨t, rfl⟩
  | fault f => cases h
  | refused f => cases h

theorem ok_of_value {α : Type} {r : Except Stop α} {v : α} (h : valueOf r = some v) : r = .ok v := by
  cases r with
  | ok w => cases h; rfl
  | error e => cases h

theorem error_of_stop {α : Type} {r : Except Stop α} {e : Stop} (h : stopOf r = some e) : r = .error e := by
  cases r with
  | ok w => cases h
  | error e => cases h; rfl

/-! ## Well-formed instructions -/

/-- [BP] needs a displacement (R93): without one the operand is ill-formed, in every instruction that has one. -/
theorem test_wf_bp : (MemOp.based .bp .none).wf = false ∧ (RM.mem (.based .bp .none)).wf = false ∧
    (Instr.lgdt none (.mem (.based .bp .none))).wf = false ∧ (Instr.sgdt none (.mem (.based .bp .none))).wf = false ∧
    (Instr.lidt none (.mem (.based .bp .none))).wf = false ∧ (Instr.sidt none (.mem (.based .bp .none))).wf = false ∧
    (Instr.lldt none (.mem (.based .bp .none))).wf = false ∧ (Instr.sldt none (.mem (.based .bp .none))).wf = false ∧
    (Instr.lmsw none (.mem (.based .bp .none))).wf = false ∧ (Instr.smsw none (.mem (.based .bp .none))).wf = false := by
  decide

theorem test_wf_bp' : (Instr.lar none .ax (.mem (.based .bp .none))).wf = false ∧
    (Instr.lsl none .ax (.mem (.based .bp .none))).wf = false ∧
    (Instr.arpl none .ax (.mem (.based .bp .none))).wf = false ∧
    (Instr.verr none (.mem (.based .bp .none))).wf = false ∧ (Instr.verw none (.mem (.based .bp .none))).wf = false ∧
    (Instr.esc none 0 0 (.mem (.based .bp .none))).wf = false ∧
    (Instr.lgdt none (.mem (.based .bp (.d8 0)))).wf = true ∧ (Instr.lgdt none (.mem (.based .bx .none))).wf = true := by
  decide

/-! ## Decoding, by words written out from 30_encoding.md (95_test_vectors.md section 3) -/

theorem test_decode_clts : decode [0x0F, 0x06] = .instr (.clts none) ∧
    decode [0x26, 0x0F, 0x06] = .instr (.clts (some .es)) := by decide

theorem test_decode_lgdt : decode [0x0F, 0x01, 0x16, 0x00, 0x05] = .instr (.lgdt none (.mem (.direct 0x0500))) ∧
    decode [0x0F, 0x01, 0xD0] = .instr (.lgdt none (.reg .ax)) := by decide

theorem test_decode_sgdt : decode [0x0F, 0x01, 0x07] = .instr (.sgdt none (.mem (.based .bx .none))) ∧
    decode [0x0F, 0x01, 0xC0] = .instr (.sgdt none (.reg .ax)) := by decide

theorem test_decode_lidt : decode [0x0F, 0x01, 0x5F, 0x06] = .instr (.lidt none (.mem (.based .bx (.d8 6)))) := by
  decide

theorem test_decode_sidt : decode [0x0F, 0x01, 0x0D] = .instr (.sidt none (.mem (.based .di .none))) := by decide

theorem test_decode_lldt : decode [0x0F, 0x00, 0xD3] = .instr (.lldt none (.reg .bx)) ∧
    decode [0x3E, 0x0F, 0x00, 0x94, 0x00, 0x80] = .instr (.lldt (some .ds) (.mem (.based .si (.d16 0x8000)))) := by
  decide

theorem test_decode_sldt : decode [0x0F, 0x00, 0xC1] = .instr (.sldt none (.reg .cx)) := by decide

theorem test_decode_lmsw : decode [0x0F, 0x01, 0xF0] = .instr (.lmsw none (.reg .ax)) ∧
    decode [0x26, 0x0F, 0x01, 0x34] = .instr (.lmsw (some .es) (.mem (.based .si .none))) := by decide

theorem test_decode_smsw : decode [0x0F, 0x01, 0x66, 0xFE] = .instr (.smsw none (.mem (.based .bp (.d8 0xFE)))) ∧
    decode [0x0F, 0x01, 0xA7, 0x34, 0x12] = .instr (.smsw none (.mem (.based .bx (.d16 0x1234)))) := by decide

theorem test_decode_lar : decode [0x0F, 0x02, 0xC2] = .instr (.lar none .ax (.reg .dx)) ∧
    decode [0x0F, 0x02, 0x06, 0x00, 0x05] = .instr (.lar none .ax (.mem (.direct 0x0500))) := by decide

theorem test_decode_lsl : decode [0x0F, 0x03, 0x4C, 0x02] = .instr (.lsl none .cx (.mem (.based .si (.d8 2)))) := by
  decide

theorem test_decode_arpl : decode [0x63, 0x46, 0x06] = .instr (.arpl none .ax (.mem (.based .bp (.d8 6)))) ∧
    decode [0x63, 0xC8] = .instr (.arpl none .cx (.reg .ax)) := by decide

theorem test_decode_verr : decode [0x0F, 0x00, 0x22] = .instr (.verr none (.mem (.based .bpSi .none))) := by decide

theorem test_decode_verw : decode [0x0F, 0x00, 0xEB] = .instr (.verw none (.reg .bx)) := by decide

theorem test_decode_wait : decode [0x9B] = .instr (.wait none) := by decide

theorem test_decode_esc : decode [0xD9, 0x06, 0x00, 0x05] = .instr (.esc none 1 0 (.mem (.direct 0x0500))) ∧
    decode [0xDF, 0xF8] = .instr (.esc none 7 7 (.reg .ax)) := by decide

/-- V-E14, V-E15, V-E18 to V-E21. -/
theorem test_decode_rejects : decode [0x0F, 0x00, 0xC8] = .reject .group0NotInScope ∧
    decode [0x0F, 0x01, 0xE8] = .reject .opcodeNotInScope ∧ decode [0x90] = .reject .opcodeNotInScope ∧
    decode [0xF0, 0x0F, 0x06] = .reject .prefixNotInScope ∧
    decode [0x26, 0x2E, 0x0F, 0x06] = .reject .prefixNotInScope ∧
    decode [0x0F, 0x05] = .reject .opcodeNotInScope ∧ decode [0x0F, 0x01, 0x16, 0x00] = .needMore := by decide

/-- V-E1, V-E2, V-E7, V-E13, V-E22, V-E23. -/
theorem test_length : (Instr.clts none).length = 2 ∧ (Instr.lgdt none (.mem (.direct 0x0500))).length = 5 ∧
    (Instr.lmsw (some .es) (.mem (.based .si .none))).length = 4 ∧
    (Instr.lldt (some .ds) (.mem (.based .si (.d16 0x8000)))).length = 6 ∧
    (Instr.wait none).length = 1 ∧ (Instr.esc none 1 0 (.mem (.direct 0x0500))).length = 4 := by decide

/-- The table's words, first byte most significant (log 20): LGDT [BX+SI] is 0F 01 10, VERW [BX+SI] 0F 00 28. -/
theorem test_table_words : decodeTableWord 24 0x0F0110 = some (.lgdt none (.mem (.based .bxSi .none))) ∧
    decodeTableWord 24 0x0F0028 = some (.verw none (.mem (.based .bxSi .none))) ∧
    decodeTableWord 8 0x9B = some (.wait none) ∧ decodeTableWord 16 0x0F06 = some (.clts none) := by decide

/-! ## Effective addresses (95_test_vectors.md V-A1 to V-A5) -/

theorem test_ea : ((lr.setReg .bx 0xFFFF).setReg .si 2).effAddr (.based .bxSi .none) = 0x0001 ∧
    (lr.setReg .bp 0x10).effAddr (.based .bp (.d8 0x80)) = 0xFF90 ∧
    (lr.setReg .bp 0x10).effAddr (.based .bp (.d8 0x7F)) = 0x008F ∧
    lr.effAddr (.direct 0xFFFF) = 0xFFFF ∧
    ((lr.setReg .bp 0x8000).setReg .di 1).effAddr (.based .bpDi (.d16 0x8000)) = 0x0001 := by decide

theorem test_segment : operandSeg none (.based .bxSi .none) = .ds ∧ operandSeg none (.based .bp (.d8 0x80)) = .ss ∧
    operandSeg none (.direct 0xFFFF) = .ds ∧ operandSeg none (.based .bpDi (.d16 0x8000)) = .ss ∧
    operandSeg (some .cs) (.based .bp (.d8 0)) = .cs := by decide

/-! ## Instructions (95_test_vectors.md sections 4 to 6) -/

/-- V-M9, V-M10. -/
theorem test_clts : after (exec (.clts none) { lp 0 with msw := 0xFFFB }) (fun t => (t.msw, t.ip)) = some (0xFFF3, 0x0202) ∧
    after (exec (.clts none) { lr with msw := 0xFFF8 }) (fun t => t.msw) = some 0xFFF0 := by decide

/-- V-M11. -/
theorem test_clts_privilege : stopOf (cltsEffect (lp 1)) = some (.exc (.gp 0)) := by decide

/-- V-M12, V-M13. -/
theorem test_lgdt : after (exec (.lgdt none (.mem (.direct 0x0500)))
    { lr with mem := cells 0x500 [0xFF, 0x0F, 0x00, 0x20, 0x01, 0x5A] }) (fun t => t.gdtr) =
      some { base := 0x012000, limit := 0x0FFF } := by decide

/-- V-M14: the privilege is checked before the operand, which nothing has written, is read. -/
theorem test_lgdt_privilege : stopOf (lgdtEffect none (.mem (.direct 0x0500)) (lp 3)) = some (.exc (.gp 0)) := by
  decide

/-- V-M15. -/
theorem test_sgdt : after (exec (.sgdt none (.mem (.based .bx .none)))
    { lr.setReg .bx 0x0600 with gdtr := { base := 0x012000, limit := 0x0FFF } })
      (fun t => [0x600, 0x601, 0x602, 0x603, 0x604].map t.mem.read) =
    some [some 0xFF, some 0x0F, some 0x00, some 0x20, some 0x01] := by decide

/-- V-M17, V-M18: offset 0FFFBh raises, 0FFFAh does not. -/
theorem test_sgdt_edge :
    stopOf ((lr.setReg .bx 0xFFFB).writeTable none (.mem (.based .bx .none)) lr.gdtr) = some (.exc .overrun) ∧
    (stopOf ((lr.setReg .bx 0xFFFA).writeTable none (.mem (.based .bx .none)) lr.gdtr)).isNone = true := by decide

/-- V-M20. -/
theorem test_lidt : after (exec (.lidt none (.mem (.based .si .none)))
    { lr.setReg .si 0x0700 with mem := cells 0x700 [0xFF, 0x03, 0x00, 0x00, 0x00, 0x00] }) (fun t => t.idtr) =
      some { base := 0x000000, limit := 0x03FF } := by decide

/-- V-M21. -/
theorem test_sidt : after (exec (.sidt none (.mem (.based .si .none))) (lr.setReg .si 0x0700))
      (fun t => [0x700, 0x701, 0x702, 0x703, 0x704].map t.mem.read) =
    some [some 0xFF, some 0x03, some 0x00, some 0x00, some 0x00] := by decide

/-- V-M22, V-M25. -/
theorem test_lldt : after (exec (.lldt none (.reg .bx)) ((lp 0).setReg .bx 0x0028)) (fun t => t.ldtr) =
      some { sel := 0x0028, base := 0x003000, limit := 0x00FF, valid := true } ∧
    after (exec (.lldt none (.reg .bx)) ((lp 0).setReg .bx 0x0003)) (fun t => (t.ldtr.sel, t.ldtr.valid)) =
      some (0x0003, false) := by decide

/-- V-M26 to V-M29: the local table, a data segment, beyond the table, not present. -/
theorem test_lldt_checks : stopOf (loadLdt (lp 0) 0x002C) = some (.exc (.gp 0x002C)) ∧
    stopOf (loadLdt (lp 0) 0x0008) = some (.exc (.gp 0x0008)) ∧
    stopOf (loadLdt (lp 0) 0x0040) = some (.exc (.gp 0x0040)) ∧
    stopOf (loadLdt { lp 0 with mem := tables.write 0x102D 0x02 } 0x002B) = some (.exc (.np 0x0028)) := by decide

/-- V-M33. -/
theorem test_sldt : after (exec (.sldt none (.reg .cx)) { lp 3 with ldtr := { sel := 0x0028, base := 0, limit := 0, valid := false } })
    (fun t => t.gpr.cx) = some 0x0028 := by decide

/-- V-M1, V-M2. -/
theorem test_lmsw : after (exec (.lmsw none (.reg .ax)) (lr.setReg .ax 0x0001)) (fun t => (t.msw, t.unflushed, t.ip)) =
      some (0xFFF1, true, 0x0103) ∧
    after (exec (.lmsw none (.reg .ax)) (lr.setReg .ax 0xFFFE)) (fun t => (t.msw, t.unflushed)) =
      some (0xFFFE, false) := by decide

/-- V-M3: PE cannot be cleared. -/
theorem test_lmsw_sticky : after (exec (.lmsw none (.reg .ax)) { lp 0 with msw := 0xFFFF }) (fun t => t.msw) =
    some 0xFFF1 := by decide

/-- V-M7. -/
theorem test_smsw : after (exec (.smsw none (.mem (.based .bx .none))) { lr.setReg .bx 0x0800 with msw := 0xFFF4 })
    (fun t => (t.mem.read 0x800, t.mem.read 0x801)) = some (some 0xF4, some 0xFF) := by decide

/-- V-P4, V-P6: through SS beyond its limit; into an expand-down segment. -/
theorem test_smsw_protected :
    stopOf (({ (lp 0).setReg .bp 0x0200 with ss := { flat 0x93 with limit := 0x00FF } } : State).writeRM none
      (.mem (.based .bp (.d8 0xFE))) 0) = some (.exc (.ss 0)) ∧
    (stopOf (({ lp 0 with ds := { flat 0x97 with limit := 0x0FFF } } : State).writeRM none
      (.mem (.direct 0x1000)) 0)).isNone = true := by decide

/-- V-L5, V-L12, V-L14. -/
theorem test_lar : after (exec (.lar none .ax (.reg .dx)) ((lp 0).setReg .dx 0x0028)) (fun t => (t.gpr.ax, t.zf)) =
      some (0x8200, true) ∧
    after (exec (.lar none .ax (.reg .dx)) ((lp 0).setReg .dx 0x0023)) (fun t => (t.gpr.ax, t.zf)) =
      some (0xF100, true) ∧
    after (exec (.lar none .ax (.reg .dx)) ((lp 3).setReg .dx 0x0008)) (fun t => (t.gpr.ax, t.zf)) =
      some (0, false) := by decide

/-- V-L16, V-L20: a conforming segment; the selector is read before the destination is written. -/
theorem test_lar_more : after (exec (.lar none .ax (.reg .dx)) ((lp 3).setReg .dx 0x0038)) (fun t => (t.gpr.ax, t.zf)) =
      some (0x9F00, true) ∧
    after (exec (.lar none .ax (.reg .ax)) ((lp 0).setReg .ax 0x0008)) (fun t => (t.gpr.ax, t.zf)) =
      some (0x9300, true) := by decide

/-- V-LS2, V-LS4, V-LS5. -/
theorem test_lsl : after (exec (.lsl none .cx (.reg .dx)) ((lp 0).setReg .dx 0x0018)) (fun t => (t.gpr.cx, t.zf)) =
      some (0x0FFF, true) ∧
    after (exec (.lsl none .cx (.reg .dx)) ((lp 0).setReg .dx 0x0028)) (fun t => (t.gpr.cx, t.zf)) =
      some (0x00FF, true) ∧
    after (exec (.lsl none .cx (.reg .dx)) ((lp 0).setReg .dx 0x0030)) (fun t => (t.gpr.cx, t.zf)) =
      some (0, false) := by decide

/-- V-LS8: the local table, entry 1. -/
theorem test_lsl_local : after (exec (.lsl none .cx (.reg .dx))
    { (lp 0).setReg .dx 0x000F with ldtr := { sel := 0x0028, base := 0x003000, limit := 0x00FF, valid := true } })
    (fun t => (t.gpr.cx, t.zf)) = some (0x7FFF, true) := by decide

/-- V-V2, V-V3, V-V4. -/
theorem test_verr : after (exec (.verr none (.reg .bx)) ((lp 0).setReg .bx 0x0010)) (fun t => t.zf) = some true ∧
    after (exec (.verr none (.reg .bx)) ((lp 0).setReg .bx 0x0018)) (fun t => t.zf) = some false ∧
    after (exec (.verr none (.reg .bx)) ((lp 0).setReg .bx 0x0020)) (fun t => t.zf) = some true := by decide

/-- V-V11: the conforming exemption is VERR's only. -/
theorem test_verr_conforming : after (exec (.verr none (.reg .bx)) ((lp 3).setReg .bx 0x0038)) (fun t => t.zf) =
      some true ∧
    after (exec (.verw none (.reg .bx)) ((lp 3).setReg .bx 0x0038)) (fun t => t.zf) = some false := by decide

/-- V-V1, V-V4, V-V10. -/
theorem test_verw : after (exec (.verw none (.reg .bx)) ((lp 0).setReg .bx 0x0008)) (fun t => t.zf) = some true ∧
    after (exec (.verw none (.reg .bx)) ((lp 0).setReg .bx 0x0020)) (fun t => t.zf) = some false ∧
    after (exec (.verw none (.reg .bx)) ((lp 3).setReg .bx 0x0008)) (fun t => t.zf) = some false := by decide

/-- V-R1, V-R3, V-R5. -/
theorem test_arpl :
    after (exec (.arpl none .cx (.reg .ax)) (((lp 0).setReg .ax 0x0008).setReg .cx 0x0003)) (fun t => (t.gpr.ax, t.zf)) =
      some (0x000B, true) ∧
    after (exec (.arpl none .cx (.reg .ax)) (((lp 0).setReg .ax 0x0003).setReg .cx 0x0000)) (fun t => (t.gpr.ax, t.zf)) =
      some (0x0003, false) ∧
    after (exec (.arpl none .cx (.reg .ax)) (((lp 0).setReg .ax 0xFFFC).setReg .cx 0xFFFD)) (fun t => (t.gpr.ax, t.zf)) =
      some (0xFFFD, true) := by decide

/-- V-R7, V-R8. -/
theorem test_arpl_memory :
    after (exec (.arpl none .ax (.mem (.based .bx .none)))
      { ((lp 0).setReg .bx 0x0500).setReg .ax 0x0002 with mem := cells 0x500 [0x10, 0x00] })
      (fun t => (t.mem.read 0x500, t.mem.read 0x501, t.zf)) = some (some 0x12, some 0x00, true) ∧
    stopOf (arplEffect none .ax (.mem (.based .bx .none))
      { ((lp 0).setReg .bx 0x0500) with mem := cells 0x500 [0x10, 0x00], ds := flat 0x91 }) =
      some (.exc (.gp 0)) := by decide

/-- V-W1, V-W2, V-W3. -/
theorem test_wait : ({ lr with msw := 0xFFFA } : State).waitTraps = true ∧
    after (exec (.wait none) { lr with msw := 0xFFF8 }) (fun t => t.ip) = some 0x0101 ∧
    after (exec (.wait none) { lr with msw := 0xFFF2 }) (fun t => t.ip) = some 0x0101 := by decide

/-- V-X1 to V-X3. -/
theorem test_esc : ({ lr with msw := 0xFFF9 } : State).escTraps = true ∧
    ({ lr with msw := 0xFFF4 } : State).escTraps = true ∧
    refusalOf (exec (.esc none 7 0 (.mem (.direct 0x0500))) { lr with msw := 0xFFF2 }) =
      some .processorExtensionNotModelled := by decide

/-! ## Taking an exception -/

/-- Launch LR with a stack at 0800h, and vectors 6, 7 and 8 at 1234h:0010h. -/
def vectors : State :=
  { lr.setReg .sp 0x0800 with
    mem := cells 0x0018 [0x10, 0x00, 0x34, 0x12, 0x10, 0x00, 0x34, 0x12, 0x10, 0x00, 0x34, 0x12] }

/-- R185: UD in real address mode, in program P5. FLAGS 0302h has IF and TF set. -/
theorem test_real_delivery :
    after (step ({ vectors with flags := 0x0302 }.placeCode [0x0F, 0x02, 0xC2])) (fun t => (t.ip, t.cs.sel, t.flags, t.gpr.sp)) =
      some (0x0010, 0x1234, 0x0002, 0x07FA) ∧
    after (step ({ vectors with flags := 0x0302 }.placeCode [0x0F, 0x02, 0xC2]))
      (fun t => [0x7FA, 0x7FB, 0x7FC, 0x7FD, 0x7FE, 0x7FF].map t.mem.read) =
      some [some 0x00, some 0x01, some 0x00, some 0x00, some 0x02, some 0x03] := by decide

/-- R191: a vector beyond the table is the double fault; without room for that one either, shutdown. -/
theorem test_double_fault :
    after ({ vectors with idtr := { base := 0, limit := 0x23 } }.raise .overrun) (fun t => (t.cs.sel, t.lastException)) =
      some (0x1234, some { vector := 8, code := none, cs := 0, ip := 0x0100 }) ∧
    faultOf ({ vectors with idtr := { base := 0, limit := 0x22 } }.raise .overrun) =
      some (.shutdown { vector := 13, code := none, cs := 0, ip := 0x0100 }) := by decide

/-- Launch LP with the interrupt table at 000100h, where vector 13 is an interrupt gate (86h) to 0010h:0040h, and
a stack at 0800h. -/
def gates : State :=
  { (lp 0).setReg .sp 0x0800 with
    idtr := { base := 0x000100, limit := 0x00FF }
    flags := 0x4202
    mem := cells 0x168 [0x40, 0x00, 0x10, 0x00, 0x00, 0x86, 0x00, 0x00] ++ tables }

/-- R186: GP(0028h) through the gate: IF, TF and NT cleared, the error code pushed last. -/
theorem test_protected_delivery :
    after (gates.raise (.gp 0x0028)) (fun t => (t.ip, t.cs.sel, t.flags, t.gpr.sp)) = some (0x0040, 0x0010, 0x0002, 0x07F8) ∧
    after (gates.raise (.gp 0x0028)) (fun t => [0x7F8, 0x7F9, 0x7FA, 0x7FB].map t.mem.read) =
      some [some 0x28, some 0x00, some 0x00, some 0x02] := by decide

/-- R181 vector 1: the single-step exception after a completed instruction. -/
theorem test_single_step :
    after (step ({ vectors with flags := 0x0102, mem := cells 4 [0x10, 0x00, 0x34, 0x12] }.placeCode [0x0F, 0x06]))
      (fun t => (t.ip, t.cs.sel, t.lastException)) =
    some (0x0010, 0x1234, some { vector := 1, code := none, cs := 0, ip := 0x0102 }) := by decide

/-- R190: the return undoes the delivery. -/
theorem test_return :
    ((valueOf (vectors.deliverReal 6)).bind (fun t => valueOf t.returnReal)).map (fun u => (u.ip, u.cs.sel, u.flags, u.gpr.sp)) =
      some (0x0100, 0x0000, 0x0002, 0x0800) := by decide

/-! ## The step -/

/-- C11: `0F 00 /1` is UD in real address mode, refused in protected mode. -/
theorem test_group0 :
    after (step (vectors.placeCode [0x0F, 0x00, 0xC8])) (fun t => t.lastException.map (·.vector)) = some (some 6) ∧
    refusalOf (step ((lp 0).placeCode [0x0F, 0x00, 0xC8])) = some .opcodeNotInScope := by decide

/-- The first step after reset runs the placed instruction, and from reset memory there is nothing to fetch. -/
theorem test_reset_step : after (step (State.reset.withFetchWord 16 0x0F06)) (fun t => t.ip) = some 0xFFF2 ∧
    faultOf (step State.reset) = some (.readOfUndefinedState 0xFFFF0) := by decide

/-- R77: an instruction that runs past offset 0FFFFh raises the overrun. -/
theorem test_fetch_edge :
    ({ lr with ip := 0xFFFF, mem := cells 0xFFFF [0x0F] } : State).fetched = .stopped (.exc .overrun) := by decide

/-! ## Witnesses: a state and operands that meet the hypotheses of each statement, or of each of its clauses -/

/-- The invariant at a state whose parts are small. -/
theorem inv_of {s : State} (hm : s.mem.wf) (hc : s.cpl = 0#2) (hu : s.unflushed = false) (hf : s.flags = 0x0002) :
    s.Inv :=
  ⟨hm, fun _ => hc, fun h => absurd (hu.symm.trans h) (by decide), by rw [hf]; unfold flagsReserved; decide⟩

theorem witness_reset_models : Platform.default.addressModel = .source20BitWrap ∧
    ({ Platform.default with addressModel := .chipCacheBase } : Platform).addressModel = .chipCacheBase ∧
    SegName.es ≠ .cs := by decide

/-- For the statements on every step: CLTS, LMSW, LGDT, LIDT and LLDT run, and UD is taken. -/
theorem witness_step_invariant : (lr.placeCode [0x0F, 0x06]).Inv ∧ ∃ t, step (lr.placeCode [0x0F, 0x06]) = .next t :=
  ⟨inv_of (by decide) rfl rfl rfl, next_of_after (by decide)⟩

theorem witness_pe_stays : ((lp 0).placeCode [0x0F, 0x06]).pe = true ∧
    ∃ t, step ((lp 0).placeCode [0x0F, 0x06]) = .next t := ⟨by decide, next_of_after (by decide)⟩

theorem witness_pe_set : lr.pe = false ∧ (lr.setReg .ax 1).readRM none (.reg .ax) = .ok 1 ∧
    (1 : Word).getLsbD 0 = true := ⟨by decide, rfl, by decide⟩

theorem witness_msw_changes : after (step ((lr.setReg .ax 1).placeCode [0x0F, 0x01, 0xF0])) (fun t => decide (t.msw ≠ lr.msw)) =
      some true ∧
    after (step ({ lr with msw := 0xFFF8 }.placeCode [0x0F, 0x06])) (fun t => decide (t.msw ≠ 0xFFF8)) = some true := by
  decide

theorem witness_tables_change :
    after (step ({ lr with mem := cells 0x500 [1, 2, 3, 4, 5, 6] }.placeCode [0x0F, 0x01, 0x16, 0x00, 0x05]))
      (fun t => decide (t.gdtr ≠ lr.gdtr)) = some true ∧
    after (step ({ lr with mem := cells 0x500 [1, 2, 3, 4, 5, 6] }.placeCode [0x0F, 0x01, 0x1E, 0x00, 0x05]))
      (fun t => decide (t.idtr ≠ lr.idtr)) = some true ∧
    after (step (((lp 0).setReg .bx 0x0028).placeCode [0x0F, 0x00, 0xD3])) (fun t => decide (t.ldtr ≠ lr.ldtr)) =
      some true := by decide

/-- SMSW at level 3. -/
theorem witness_less_trusted : ((lp 3).placeCode [0x0F, 0x01, 0xE0]).pe = true ∧
    ((lp 3).placeCode [0x0F, 0x01, 0xE0]).cpl ≠ 0#2 ∧ ∃ t, step ((lp 3).placeCode [0x0F, 0x01, 0xE0]) = .next t :=
  ⟨by decide, by decide, next_of_after (by decide)⟩

theorem witness_cs_changes : after (step (vectors.placeCode [0x0F, 0x02, 0xC2])) (fun t => decide (t.cs ≠ vectors.cs)) =
    some true := by decide

/-- Bits 0 and 15 are bits the statement on flags speaks of; 100000h is the first address of the one on memory. -/
theorem witness_flags_memory : (∃ t, step (lr.placeCode [0x0F, 0x06]) = .next t) ∧
    lr.plat.addressModel = .source20BitWrap ∧ lr.pe = false ∧
    after (step (lr.placeCode [0x0F, 0x06])) (fun t => t.pe) = some false ∧ (2 ^ 20 : Nat) ≤ 0x100000 :=
  ⟨next_of_after (by decide), by decide, by decide, by decide, by decide⟩

theorem witness_decode_encode : (Instr.lldt (some .ds) (.mem (.based .bp (.d16 0xFFFF)))).wf = true ∧
    decode [0x3E, 0x0F, 0x00, 0x96, 0xFF, 0xFF] = .instr (.lldt (some .ds) (.mem (.based .bp (.d16 0xFFFF)))) := by
  decide

/-- The first and last ModRM byte of each clause. -/
theorem witness_modrm : (0xC0#8).toNat / 64 = 3 ∧ (0xFF#8).toNat / 64 = 3 ∧ (0x06#8).toNat / 64 = 0 ∧
    (0x3E#8).toNat % 8 = 6 ∧ (0x00#8).toNat % 8 ≠ 6 ∧ (0x3F#8).toNat / 64 = 0 ∧ (0x3F#8).toNat % 8 ≠ 6 ∧
    (0x40#8).toNat / 64 = 1 ∧ (0x7F#8).toNat / 64 = 1 ∧ (0x80#8).toNat / 64 = 2 ∧ (0xBF#8).toNat / 64 = 2 := by decide

/-- The direct address beside [BP] with a displacement. -/
theorem witness_operand_segment : decodeRM 0x06#8 [0, 0] = some (.mem (.direct 0)) ∧
    decodeRM 0x46#8 [0, 0] = some (.mem (.based .bp (.d8 0))) := by decide

theorem witness_override : SegName.ofOverride 0x26#8 = some .es ∧ isPrefixByte 0xF0#8 = true ∧
    isPrefixByte 0x3E#8 = true := by decide

/-- An instruction fetched, and its four ends: next, next with TF set, fault, refusal. -/
theorem witness_step_runs : (lr.placeCode [0x0F, 0x06]).fetched = .instr (.clts none) ∧
    after (exec (.clts none) lr) (fun t => t.tf) = some false ∧
    after (exec (.clts none) { lr with flags := 0x0102 }) (fun t => (t.tf, decide (t.tick ≠ lr.tick))) =
      some (true, true) ∧
    after (exec (.wait none) { lr with flags := 0x0102, plat := { Platform.default with npxBusy := true } })
      (fun t => (t.tf, decide (t.tick = lr.tick))) = some (true, true) ∧
    faultOf (exec (.lgdt none (.mem (.direct 0))) lr) = some (.readOfUndefinedState 0) ∧
    refusalOf (exec (.esc none 0 0 (.reg .ax)) lr) = some .processorExtensionNotModelled := by decide

/-- CLTS at the last offset where it fits. -/
theorem witness_at_ip : (Instr.clts none).wf = true ∧
    ({ lr with ip := 0xFFFE, mem := cells 0xFFFE [0x0F, 0x06] } : State).queued = [] ∧
    ({ lr with ip := 0xFFFE, mem := cells 0xFFFE [0x0F, 0x06] } : State).CodeAt (encode (.clts none)) := by
  refine ⟨rfl, rfl, fun k b h => ?_⟩
  match k with
  | 0 => cases h; exact ⟨by decide, 0xFFFE, ok_of_value (by decide), by decide, by decide⟩
  | 1 => cases h; exact ⟨by decide, 0xFFFF, ok_of_value (by decide), by decide, by decide⟩
  | k + 2 => simp [encode, overrideBytes] at h

theorem witness_code_byte : valueOf (({ lr with mem := cells 5 [7] } : State).codeByte 5) = some 7 ∧
    (∀ c ∈ lr.queued, c.1 ≠ 5) := by decide

theorem witness_rejected : (lr.placeCode [0x90]).fetched = .rejected .opcodeNotInScope ∧
    (lr.placeCode [0xF0]).fetched = .rejected .prefixNotInScope ∧
    (lr.placeCode [0x0F, 0x00, 0xC8]).fetched = .rejected .group0NotInScope ∧
    (lr.placeCode [0x0F, 0x00, 0xC8]).pe = false ∧
    ((lp 0).placeCode [0x0F, 0x00, 0xF8]).fetched = .rejected .group0NotInScope ∧
    ((lp 0).placeCode [0x0F, 0x00, 0xF8]).pe = true := by decide

/-- The bytes `0F 00 C8` at the last offset where they fit, and the first and last byte of each range. -/
theorem witness_rejected_bytes : decode [0x0F, 0x00, 0xC8] = .reject .group0NotInScope ∧
    ({ lr with ip := 0xFFFD, mem := cells 0xFFFD [0x0F, 0x00, 0xC8] } : State).queued = [] ∧
    ({ lr with ip := 0xFFFD, mem := cells 0xFFFD [0x0F, 0x00, 0xC8] } : State).CodeAt [0x0F, 0x00, 0xC8] ∧
    (0x00#8).toNat / 8 ≠ 27 ∧ (0xD7#8).toNat / 8 ≠ 27 ∧ (0xE0#8).toNat / 8 ≠ 27 ∧ (0xFF#8).toNat / 8 ≠ 27 ∧
    0x05#8 ∉ [0x00#8, 0x01#8, 0x02#8, 0x03#8, 0x06#8] ∧ (0xC8#8).toNat / 8 % 8 ∈ [1, 3, 6, 7] ∧
    (0xE8#8).toNat / 8 % 8 ∈ [5, 7] := by
  refine ⟨rfl, rfl, fun k b h => ?_, by decide, by decide, by decide, by decide, by decide, by decide, by decide⟩
  match k with
  | 0 => cases h; exact ⟨by decide, 0xFFFD, ok_of_value (by decide), by decide, by decide⟩
  | 1 => cases h; exact ⟨by decide, 0xFFFE, ok_of_value (by decide), by decide, by decide⟩
  | 2 => cases h; exact ⟨by decide, 0xFFFF, ok_of_value (by decide), by decide, by decide⟩
  | k + 3 => simp at h

/-- Launch LR under the spec's rulings, with a program of two bytes at its IP, and a device at 000200h. -/
def ruled : State :=
  ({ lr with plat := { Platform.default with rulings := .spec, regions := [{ base := 0x200, size := 2 }] } } : State).bindProgram
    0x100 [0x0F, 0x06]

/-- R79, R84: a word whose high byte is a device's, or program text. -/
theorem witness_store_refused : stopOf (ruled.memWrite 0x1FF [1, 2]) = some (.refuse (.deviceRegion 0x200)) ∧
    stopOf (ruled.memWrite 0x0FF [1, 2]) = some (.refuse (.writeToProgramText 0x100)) ∧
    ruled.storableSpan 0x1FF 1 ∧ ruled.storableSpan 0x0FF 1 ∧ ruled.isText 0x101 = true ∧ ruled.isText 0x102 = false :=
  ⟨by decide, by decide, by unfold State.storableSpan State.plainSpan; decide,
    by unfold State.storableSpan State.plainSpan; decide, by decide, by decide⟩

/-- R84: a text of four bytes from 0FFFFFEh on wraps: 0FFFFFFh and 000001h are text, 000002h and 0FFFFFDh are not. -/
theorem test_text_wraps :
    [0xFFFFFD, 0xFFFFFE, 0xFFFFFF, 0, 1, 2].map
      ({ ruled with plat := { ruled.plat with program := some { base := 0xFFFFFE, size := 4 } } } : State).isText =
    [false, true, true, true, true, false] := by decide

/-- R77: the second byte of an instruction is past 0FFFFh, past CS's limit, a device's, or not written. -/
theorem witness_not_fetched : decode [0x0F] = .needMore ∧
    ({ lr with ip := 0xFFFF, mem := cells 0xFFFF [0x0F] } : State).CodeAt [0x0F] ∧
    (0xFFFF : Nat) < (0xFFFF#16).toNat + [0x0F#8].length ∧
    ({ lp 0 with ip := 0xFFFF, mem := cells 0xFFFF [0x0F] } : State).fetched = .stopped (.exc (.gp 0)) ∧
    ({ lp 0 with cs := { flat 0x9B with limit := 0x0200 }, mem := cells 0x200 [0x0F] } : State).fetched =
      .stopped (.exc (.gp 0)) ∧
    refusalOf (step { ruled with ip := 0x1FF, mem := cells 0x1FF [0x0F] }) = some (.deviceRegion 0x200) ∧
    faultOf (step { lr with mem := cells 0x100 [0x0F] }) = some (.readOfUndefinedState 0x101) := by
  refine ⟨rfl, fun k b h => ?_, by decide, by decide, by decide, by decide, by decide⟩
  match k with
  | 0 => cases h; exact ⟨by decide, 0xFFFF, ok_of_value (by decide), by decide, by decide⟩
  | k + 1 => simp at h

/-- R79, R84: the stores of SMSW, SGDT, SLDT and ARPL refused, for a device's byte and for program text. -/
theorem witness_store_instructions :
    ruled.segAccess (operandSeg none (.direct 0x1FF)) (ruled.effAddr (.direct 0x1FF)) 2 .write = .ok 0x1FF ∧
    ruled.StoreRefused 0x1FF 2 (.deviceRegion 0x200) ∧ ruled.StoreRefused 0x0FD 6 (.writeToProgramText 0x100) ∧
    refusalOf (exec (.smsw none (.mem (.direct 0x1FF))) ruled) = some (.deviceRegion 0x200) ∧
    refusalOf (exec (.sgdt none (.mem (.direct 0x0FD))) ruled) = some (.writeToProgramText 0x100) ∧
    refusalOf (exec (.sldt none (.mem (.direct 0x100))) { ruled with msw := 0xFFF1 }) =
      some (.writeToProgramText 0x100) ∧
    refusalOf (exec (.arpl none .ax (.mem (.direct 0x100))) { ruled.setReg .ax 3 with msw := 0xFFF1, mem := cells 0x100 [0, 0] }) =
      some (.writeToProgramText 0x100) ∧
    refusalOf (exec (.arpl none .ax (.mem (.direct 0x200))) { ruled with msw := 0xFFF1 }) =
      some (.deviceRegion 0x200) :=
  ⟨ok_of_value (by decide),
    ⟨1, by decide, by unfold State.storableSpan State.plainSpan; decide, .inl ⟨by decide, by decide⟩⟩,
    ⟨3, by decide, by unfold State.storableSpan State.plainSpan; decide, .inr ⟨by decide, by decide, by decide⟩⟩,
    by decide, by decide, by decide, by decide, by decide⟩

theorem witness_stored : (valueOf (lr.memWrite 0xFFFFF [1, 2])).isSome = true := by decide

/-- Each clause at the edge: the last byte at offset 0FFFFh, and one past it. -/
theorem witness_real_access : lr.pe = false ∧ 0xFFFF < (0xFFFF#16).toNat + 2 - 1 ∧ (0xFFFE#16).toNat + 2 - 1 ≤ 0xFFFF ∧
    lr.plat.addressModel = .source20BitWrap ∧
    ({ lr with plat := { Platform.default with addressModel := .chipCacheBase } } : State).plat.addressModel =
      .chipCacheBase := by decide

/-- An access that passes its checks, and one of each exception. -/
theorem witness_protected_access : (lp 0).pe = true ∧ valueOf ((lp 0).segAccess .ds 0xFFFE 2 .write) = some 0xFFFE ∧
    stopOf ((lp 0).segAccess .ds 0xFFFF 2 .write) = some (.exc (.gp 0)) ∧
    stopOf ((lp 0).segAccess .ss 0xFFFF 2 .write) = some (.exc (.ss 0)) := by decide

/-- The later checks: an unusable segment through SS, a read-only one, an execute-only one, a fetch from data, and
a word at the limit of an expand-up and of an expand-down segment. -/
theorem witness_protected_checks :
    stopOf (({ lp 0 with ss := { flat 0x93 with valid := false } } : State).segAccess .ss 0 2 .read) = some (.exc (.gp 0)) ∧
    stopOf (({ lp 0 with ss := flat 0x91 } : State).segAccess .ss 0 2 .write) = some (.exc (.ss 0)) ∧
    stopOf (({ lp 0 with ds := flat 0x99 } : State).segAccess .ds 0 2 .read) = some (.exc (.gp 0)) ∧
    stopOf (({ lp 0 with cs := flat 0x93 } : State).segAccess .cs 0 1 .fetch) = some (.exc (.gp 0)) ∧
    stopOf (({ lp 0 with ss := { flat 0x93 with limit := 1 } } : State).segAccess .ss 1 2 .read) = some (.exc (.ss 0)) ∧
    stopOf (({ lp 0 with ds := { flat 0x97 with limit := 1 } } : State).segAccess .ds 1 2 .read) = some (.exc (.gp 0)) := by
  decide

theorem witness_real_read : ({ lr with mem := cells 0xFFFE [1, 2] } : State).readableSpan
    (({ lr with mem := cells 0xFFFE [1, 2] } : State).realAddress .ds 0xFFFE) 2 := by
  unfold State.readableSpan State.plainSpan; decide

/-- The clauses of the descriptor lookup: null up to 3, the local table absent, both tables at their limits. -/
theorem witness_lookup : (0x0003#16).toNat ≤ 3 ∧ selTI 0x000C = true ∧ (lp 0).ldtr.valid = false ∧
    selTI 0x0040 = false ∧ (lp 0).gdtr.limit.toNat < 8 * ((0x0040#16).toNat / 8) + 7 ∧
    8 * ((0x003F#16).toNat / 8) + 7 ≤ (lp 0).gdtr.limit.toNat ∧
    selTI 0x0107 = true ∧ (0x00FF#16).toNat < 8 * ((0x0107#16).toNat / 8) + 7 ∧
    8 * ((0x00FF#16).toNat / 8) + 7 ≤ (0x00FF#16).toNat := by decide

theorem witness_lookup_bytes : (lp 0).plainSpan 0x1038 6 ∧
    ((lp 0).span 0x1038 6).map (lp 0).mem.read = [0xFF, 0xFF, 0x00, 0x00, 0x05, 0x9F].map some ∧
    (0x1038 : Nat) = ((lp 0).gdtr.base.toNat + 8 * ((0x003B#16).toNat / 8)) % 2 ^ 24 ∧ selTI 0x003B = false := by
  unfold State.plainSpan; decide

/-- The privileged instructions run in real address mode and at level 0, and do not at level 1. -/
theorem witness_privileged : lr.privileged ∧ (lp 0).privileged ∧ (lp 1).pe = true ∧ (lp 1).cpl ≠ 0#2 :=
  ⟨.inl (by decide), .inr rfl, by decide, by decide⟩

/-- LMSW with a word of memory. -/
theorem witness_lmsw : ({ lr with mem := cells 0x500 [1, 0] } : State).readRM none (.mem (.direct 0x500)) = .ok 1 :=
  ok_of_value (by decide)

/-- The stores of SMSW, SLDT and ARPL, and of SGDT and SIDT, at the last offset that holds them. -/
theorem witness_stores : lr.segAccess (operandSeg none (.direct 0xFFFE)) (lr.effAddr (.direct 0xFFFE)) 2 .write = .ok 0xFFFE ∧
    lr.storableSpan 0xFFFE 2 ∧
    lr.segAccess (operandSeg none (.direct 0xFFFA)) (lr.effAddr (.direct 0xFFFA)) 6 .write = .ok 0xFFFA ∧
    lr.storableSpan 0xFFFA 6 :=
  ⟨ok_of_value (by decide), by unfold State.storableSpan State.plainSpan; decide, ok_of_value (by decide),
    by unfold State.storableSpan State.plainSpan; decide⟩

theorem witness_load_table : lr.privileged ∧ ({ lr with mem := cells 0xFFFA [1, 2, 3, 4, 5, 6] } : State).segRead
    (operandSeg none (.direct 0xFFFA)) (lr.effAddr (.direct 0xFFFA)) 6 = .ok [1, 2, 3, 4, 5, 6] :=
  ⟨.inl (by decide), ok_of_value (by decide)⟩

/-- LLDT: a null selector, the last one; and a present LDT descriptor. -/
theorem witness_lldt : (lp 0).protectedReady ∧ (lp 0).cpl = 0#2 ∧
    ((lp 0).setReg .bx 3).readRM none (.reg .bx) = .ok 3 ∧
    (lp 0).fetchDesc 0x0028 = .ok (.desc { limit := 0x00FF, base := 0x003000, access := 0x82 }) ∧
    (0x82#8).getLsbD 4 = false ∧ (0x82#8).toNat % 16 = 2 ∧ (0x82#8).getLsbD 7 = true ∧ selTI 0x0028 = false :=
  ⟨⟨by decide, rfl⟩, rfl, rfl, ok_of_value (by decide), by decide, by decide, by decide, by decide⟩

/-- LLDT's checks: the local table, out of the table, a segment, a gate, a table not present. -/
theorem witness_lldt_checks : selTI 0x0004 = true ∧ (lp 0).fetchDesc 0x0040 = .ok .outOfTable ∧
    (lp 0).fetchDesc 0x0008 = .ok (.desc { limit := 0xFFFF, base := 0x020000, access := 0x93 }) ∧
    (0x93#8).getLsbD 4 = true ∧
    (lp 0).fetchDesc 0x0030 = .ok (.desc { limit := 0x0000, base := 0x000010, access := 0x84 }) ∧
    (0x84#8).toNat % 16 ≠ 2 ∧
    ({ lp 0 with mem := tables.write 0x102D 0x02 } : State).fetchDesc 0x0028 =
      .ok (.desc { limit := 0x00FF, base := 0x003000, access := 0x02 }) ∧
    (0x02#8).getLsbD 4 = false ∧ (0x02#8).toNat % 16 = 2 ∧ (0x02#8).getLsbD 7 = false :=
  ⟨by decide, ok_of_value (by decide), ok_of_value (by decide), by decide, ok_of_value (by decide), by decide,
    ok_of_value (by decide), by decide, by decide, by decide⟩

/-- LAR, LSL, VERR and VERW: a descriptor accepted and visible at equal levels, and one that is neither. -/
theorem witness_selector_tests : (lp 3).protectedReady ∧ ((lp 3).setReg .dx 0x0023).readRM none (.reg .dx) = .ok 0x0023 ∧
    (lp 3).fetchDesc 0x0023 = .ok (.desc { limit := 0x00FF, base := 0x040000, access := 0xF1 }) ∧
    LarAccepts 0xF1 ∧ LslAccepts 0xF1 ∧ VerrAccepts 0xF1 ∧ Visible 0xF1 3 3 ∧ VerwAccepts 0xF3 3 3 :=
  ⟨⟨by decide, rfl⟩, rfl, ok_of_value (by decide), .inl (by decide), .inl (by decide), by unfold VerrAccepts; decide,
    by unfold Visible; decide, by unfold VerwAccepts; decide⟩

theorem witness_selector_tests_fail : (lp 3).fetchDesc 0 = .ok .null ∧ (lp 3).fetchDesc 0x0040 = .ok .outOfTable ∧
    (lp 3).fetchDesc 0x0008 = .ok (.desc { limit := 0xFFFF, base := 0x020000, access := 0x93 }) ∧
    ¬ Visible 0x93 3 0 ∧ ¬ LslAccepts 0x84 ∧ ¬ LarAccepts 0x88 ∧ (∀ p, ¬ Names .null p) :=
  ⟨ok_of_value (by decide), ok_of_value (by decide), ok_of_value (by decide), by unfold Visible; decide,
    by unfold LslAccepts; decide, by simp [LarAccepts], by rintro p ⟨d, h, -⟩; cases h⟩

/-- ARPL: raised in a register and in memory; equal levels, with a writable destination. -/
theorem witness_arpl : (lp 0).protectedReady ∧ ((lp 0).setReg .ax 0xFFFC).readRM none (.reg .ax) = .ok 0xFFFC ∧
    (0xFFFC#16).toNat % 4 < (((lp 0).setReg .cx 1).reg .cx).toNat % 4 ∧
    (((lp 0).setReg .cx 3).reg .cx).toNat % 4 ≤ (0x000B#16).toNat % 4 ∧
    (lp 0).segAccess (operandSeg none (.direct 0xFFFE)) ((lp 0).effAddr (.direct 0xFFFE)) 2 .write = .ok 0xFFFE ∧
    (lp 0).storableSpan 0xFFFE 2 :=
  ⟨⟨by decide, rfl⟩, rfl, by decide, by decide, ok_of_value (by decide),
    by unfold State.storableSpan State.plainSpan; decide⟩

/-- Two descriptors that code at level 3 may not see, in two memories. -/
theorem witness_invisible : (lp 3).protectedReady ∧ ((lp 3).setReg .dx 0x0008).readRM none (.reg .dx) = .ok 0x0008 ∧
    (lp 3).fetchDesc 0x0008 = .ok (.desc { limit := 0xFFFF, base := 0x020000, access := 0x93 }) ∧
    ({ lp 3 with mem := tables.write 0x100D 0x9B } : State).fetchDesc 0x0008 =
      .ok (.desc { limit := 0xFFFF, base := 0x020000, access := 0x9B }) ∧
    ¬ Visible 0x93 3 0 ∧ ¬ Visible 0x9B 3 0 :=
  ⟨⟨by decide, rfl⟩, rfl, ok_of_value (by decide), ok_of_value (by decide), by unfold Visible; decide,
    by unfold Visible; decide⟩

theorem witness_protected_only : lr.pe = false ∧ protectedOnly (.verw none (.reg .ax)) := ⟨by decide, trivial⟩

/-- Each operand exception: six bytes read and stored, a word read and stored. -/
theorem witness_operand_exceptions :
    lr.segAccess (operandSeg none (.direct 0xFFFB)) (lr.effAddr (.direct 0xFFFB)) 6 .read = .error (.exc .overrun) ∧
    lr.segAccess (operandSeg none (.direct 0xFFFB)) (lr.effAddr (.direct 0xFFFB)) 6 .write = .error (.exc .overrun) ∧
    lr.segAccess (operandSeg none (.direct 0xFFFF)) (lr.effAddr (.direct 0xFFFF)) 2 .read = .error (.exc .overrun) ∧
    lr.segAccess (operandSeg none (.direct 0xFFFF)) (lr.effAddr (.direct 0xFFFF)) 2 .write = .error (.exc .overrun) ∧
    lr.privileged ∧ (lp 0).protectedReady ∧ (lp 0).cpl = 0#2 ∧
    (lp 0).segAccess .ds ((lp 0).effAddr (.direct 0xFFFF)) 2 .read = .error (.exc (.gp 0)) ∧
    (lp 0).segAccess .ds ((lp 0).effAddr (.direct 0xFFFF)) 2 .write = .error (.exc (.gp 0)) :=
  ⟨error_of_stop (by decide), error_of_stop (by decide), error_of_stop (by decide), error_of_stop (by decide),
    .inl (by decide), ⟨by decide, rfl⟩, rfl, error_of_stop (by decide), error_of_stop (by decide)⟩

theorem witness_unflushed : ({ lp 0 with unflushed := true } : State).pe = true ∧
    ({ lp 0 with unflushed := true } : State).unflushed = true ∧ (lp 0).plat.rulings = .chip ∧
    refusalOf (exec (.lldt none (.reg .ax))
      { lp 0 with unflushed := true, plat := { Platform.default with rulings := .spec } }) =
      some .noQueueFlushAfterPE := by decide

/-- WAIT and ESC: each clause's condition on the machine status word and the inputs. -/
theorem witness_wait_esc : ({ lr with msw := 0xFFFA } : State).mp = true ∧ ({ lr with msw := 0xFFFA } : State).ts = true ∧
    lr.mp = false ∧ ({ lr with msw := 0xFFF2 } : State).ts = false ∧
    ({ Platform.default with npxBusy := true } : Platform).npxBusy = true ∧ lr.plat.npxBusy = false ∧
    ({ Platform.default with npxError := true } : Platform).npxError = true ∧ lr.plat.npxError = false ∧
    ({ lr with msw := 0xFFF4 } : State).em = true ∧ ({ lr with msw := 0xFFF8 } : State).ts = true ∧
    lr.em = false ∧ lr.ts = false ∧ lr.plat.rulings = .chip ∧
    refusalOf (exec (.wait none) { lr with plat := { Platform.default with rulings := .spec, npxBusy := true } }) =
      some .waitNeedsBusyPremise ∧
    refusalOf (exec (.esc none 0 0 (.reg .ax)) { lr with plat := { Platform.default with rulings := .spec, npxError := true } }) =
      some .processorExtensionNotModelled := by decide

/-- A delivery's conditions at a concrete state. -/
theorem deliverable_of {s : State} {n : Nat}
    (h : s.plat.rulings = .chip ∧ s.pe = false ∧ 4 * n + 3 ≤ s.idtr.limit.toNat ∧
      (s.gpr.sp ≠ 1#16 ∧ s.gpr.sp ≠ 3#16 ∧ s.gpr.sp ≠ 5#16) ∧
      (∀ k ∈ [1, 2, 3], ∀ x ∈ s.span (s.pushAddress k) 2, s.isDevice x = false ∧ s.isText x = false) ∧
      (∀ x ∈ s.span (s.idtr.base.toNat + 4 * n) 4, s.isDevice x = false ∧ (s.mem.read x).isSome = true)) :
    s.RealDeliverable n where
  delivered := h.1
  real := h.2.1
  vector := h.2.2.1
  stack := h.2.2.2.1
  flags := ⟨fun x hx => (h.2.2.2.2.1 1 (by simp) x hx).1, fun x hx => (h.2.2.2.2.1 1 (by simp) x hx).2⟩
  code := ⟨fun x hx => (h.2.2.2.2.1 2 (by simp) x hx).1, fun x hx => (h.2.2.2.2.1 2 (by simp) x hx).2⟩
  ip := ⟨fun x hx => (h.2.2.2.2.1 3 (by simp) x hx).1, fun x hx => (h.2.2.2.2.1 3 (by simp) x hx).2⟩
  entry := ⟨fun x hx => (h.2.2.2.2.2 x hx).1, fun x hx => (h.2.2.2.2.2 x hx).2⟩

/-- A delivery in real address mode: vectors 6, 7 and 8. -/
theorem witness_real_delivery : vectors.RealDeliverable 6 ∧ vectors.RealDeliverable 7 ∧ vectors.RealDeliverable 8 :=
  ⟨deliverable_of (by decide), deliverable_of (by decide), deliverable_of (by decide)⟩

/-- ESC's exception 7 with a delivery: EM set. -/
theorem witness_esc_delivery : ({ vectors with msw := 0xFFF4 } : State).em = true ∧
    ({ vectors with msw := 0xFFF4 } : State).RealDeliverable 7 := ⟨by decide, deliverable_of (by decide)⟩

/-- The vector 13 is beyond a table of limit 0023h, which holds vector 8; limit 0022h holds neither; SP is 1, or
3 or 5 with the words above pushed to memory. -/
theorem witness_double_fault : vectors.pe = false ∧ (0x0023#16).toNat < 4 * Exc.overrun.vector + 3 ∧
    ({ vectors with idtr := { base := 0, limit := 0x0023 } } : State).RealDeliverable 8 ∧
    (0x0022#16).toNat < 35 ∧ (vectors.setReg .sp 1).gpr.sp = 1#16 ∧ vectors.plat.rulings = .chip ∧
    (vectors.setReg .sp 3).storableSpan ((vectors.setReg .sp 3).pushAddress 1) 2 ∧
    (vectors.setReg .sp 5).storableSpan ((vectors.setReg .sp 5).pushAddress 1) 2 ∧
    (vectors.setReg .sp 5).storableSpan ((vectors.setReg .sp 5).pushAddress 2) 2 := by
  refine ⟨by decide, by decide, deliverable_of (by decide), by decide, by decide, by decide, ?_, ?_, ?_⟩ <;>
    (unfold State.storableSpan State.plainSpan; decide)

/-- A delivery in protected mode: the interrupt gate of vector 13 to descriptor 2, code of level 0. -/
theorem witness_protected_delivery : gates.pe = true ∧ 8 * (Exc.gp 0).vector + 7 ≤ gates.idtr.limit.toNat ∧
    gates.memRead (gates.idtr.base.toNat + 8 * (Exc.gp 0).vector) 6 = .ok [0x40, 0x00, 0x10, 0x00, 0x00, 0x86] ∧
    (0x86#8).getLsbD 7 = true ∧ (0x86#8).getLsbD 4 = false ∧ (0x86#8).toNat % 16 = 6 ∧
    gates.fetchDesc (0x00#8 ++ 0x10#8) = .ok (.desc { limit := 0xFFFF, base := 0x000000, access := 0x9B }) ∧
    gates.descAddr (0x00#8 ++ 0x10#8) = some 0x1010 ∧ gates.plat.rulings = .chip ∧
    gates.HandlerHere { limit := 0xFFFF, base := 0x000000, access := 0x9B } (0x00#8 ++ 0x40#8) ∧
    (∃ u, gates.pushAll ([gates.flags, gates.cs.sel, gates.ip] ++ (Exc.gp 0).code.toList) = .ok u) ∧
    gates.storableSpan (0x1010 + 5) 1 :=
  ⟨by decide, by decide, ok_of_value (by decide), by decide, by decide, by decide, ok_of_value (by decide), by decide,
    rfl, by unfold State.HandlerHere; decide, ⟨_, rfl⟩, by unfold State.storableSpan State.plainSpan; decide⟩

/-- A word operand read, its second byte not written, and a device's byte. -/
theorem witness_operand_read :
    lr.segAccess (operandSeg none (.direct 0xFFFE)) (lr.effAddr (.direct 0xFFFE)) 2 .read = .ok 0xFFFE ∧
    lr.plainSpan 0xFFFE 2 ∧
    valueOf (({ lr with mem := cells 0xFFFE [0x34, 0x12] } : State).readRM none (.mem (.direct 0xFFFE))) = some 0x1234 ∧
    stopOf (({ lr with mem := cells 0xFFFE [0x34] } : State).readRM none (.mem (.direct 0xFFFE))) =
      some (.fault (.readOfUndefinedState 0xFFFF)) ∧
    ({ lr with mem := cells 0xFFFE [0x34] } : State).readableSpan 0xFFFE 1 ∧
    stopOf (ruled.readRM none (.mem (.direct 0x200))) = some (.refuse (.deviceRegion 0x200)) ∧
    stopOf (({ lp 0 with mem := [] } : State).fetchDesc 0x0008) = some (.fault (.readOfUndefinedState 0x1008)) :=
  ⟨ok_of_value (by decide), by unfold State.plainSpan; decide, by decide, by decide,
    by unfold State.readableSpan State.plainSpan; decide, by decide, by decide⟩

/-- R12, R184: the program of one CLTS ends after it; its UD in place of an LAR ends the run with the fault. -/
theorem witness_run : ruled.plat.rulings = .spec ∧ ruled.runEnded = false ∧
    after (step ruled) (fun t => (t.ip, t.runEnded)) = some (0x0102, true) ∧
    run 1 ({ lr with plat := { Platform.default with rulings := .spec } }.bindProgram 0x100 [0x0F, 0x02, 0xC2]) =
      .fault (.exceptionEndsRun { vector := 6, code := none, cs := 0, ip := 0x0100 }) ∧
    run 1 (lr.bindProgram 0x100 [0x90]) = .refused .opcodeNotInScope := by decide

/-- R12, R62: a program of two bytes at 100000h ends at 000002h under the 20-bit wrap (log 40), and not there without it. -/
theorem test_run_end_wraps :
    ((lr.bindProgram 0x100000 [0x0F, 0x06]).runEnded, ({ lr with ip := 2 }.bindProgram 0x100000 [0x0F, 0x06]).runEnded,
      ({ lr with ip := 2, plat := { lr.plat with addressModel := .chipCacheBase } }.bindProgram 0x100000 [0x0F, 0x06]).runEnded) =
    (false, true, false) := by decide

/-- In protected mode: a vector beyond the table, an entry that is no gate, a task gate, a gate not present, and a
handler that is data. -/
theorem witness_protected_undelivered :
    faultOf (({ gates with idtr := { base := 0x100, limit := 0x46 } } : State).raise (.gp 0)) =
      some (.shutdown { vector := 13, code := some 0, cs := 0, ip := 0x0200 }) ∧
    faultOf (({ gates with idtr := { base := 0x100, limit := 0x6F }, mem := gates.mem.write 0x16D 0x96 } : State).raise (.gp 0)) =
      some (.readOfUndefinedState 0x140) ∧
    faultOf (({ gates with mem := gates.mem.write 0x16D 0x85 } : State).raise (.gp 0)) =
      some (.exceptionEndsRun { vector := 13, code := some 0, cs := 0, ip := 0x0200 }) ∧
    faultOf (({ gates with mem := gates.mem.write 0x16D 0x06 } : State).raise (.gp 0)) =
      some (.exceptionEndsRun { vector := 13, code := some 0, cs := 0, ip := 0x0200 }) ∧
    faultOf (({ gates with mem := gates.mem.write 0x16A 0x08 } : State).raise (.gp 0)) =
      some (.exceptionEndsRun { vector := 13, code := some 0, cs := 0, ip := 0x0200 }) ∧
    (0x96#8).getLsbD 4 = true ∧ (0x85#8).toNat % 16 = 5 ∧ (0x06#8).getLsbD 7 = false := by decide

/-- An exception taken, with its record. -/
theorem witness_exception_taken : ∃ t, vectors.raise .ud = .next t := next_of_after (by decide)

/-- A delivery that the return can undo. -/
theorem witness_return : vectors.pe = false ∧ (valueOf (vectors.deliverReal 6)).isSome = true := by decide

end Sys2Proof.Tests
end

section
/-! PROOF. PE over one step of the machine (10_state.md R34): what a step can do, said once, and from it that PE
stays set through exceptions, effects and steps. -/

namespace Sys2Proof.Machine

/-! ### What one step can do -/

/-- Of the bytes outside the table, only the group `0F 00` in real address mode goes on, by UD (R100, C11). -/
theorem State.rejectBytes_next {s t : State} {r : Reject} (h : s.rejectBytes r = .next t) :
    r = .group0NotInScope ∧ s.pe = false ∧ s.raise .ud = .next t := by
  cases r with
  | opcodeNotInScope => cases h
  | prefixNotInScope => cases h
  | group0NotInScope =>
    simp only [State.rejectBytes] at h
    split at h
    · cases h
    · next hp => exact ⟨rfl, by simpa using hp, h⟩

/-- ALL THAT `step` CAN DO when it answers a next state: execute the fetched instruction, the single-step
exception perhaps after it, or take an exception because no instruction was fetched. -/
theorem step_next {s t : State} (h : step s = .next t) :
    (∃ i u, s.fetched = .instr i ∧ exec i s = .next u ∧
      (t = u ∨ (u.tf = true ∧ u.raise .singleStep = .next t))) ∨
    ((∀ i, s.fetched ≠ .instr i) ∧ ∃ e, s.raise e = .next t) := by
  cases hf : s.fetched with
  | instr i =>
    simp only [step, hf] at h
    obtain ⟨u, hu, ht⟩ := State.singleStep_next h
    exact .inl ⟨i, u, rfl, hu, ht⟩
  | stopped e =>
    simp only [step, hf] at h
    obtain ⟨x, -, hx⟩ := State.stop_next h
    exact .inr ⟨fun i => by simp, x, hx⟩
  | rejected r =>
    simp only [step, hf] at h
    exact .inr ⟨fun i => by simp, .ud, (State.rejectBytes_next h).2.2⟩

/-! ### PE -/

/-- Bit 0 of the reset value of the MSW is clear. -/
theorem State.resetOn_pe (p : Platform) : (State.resetOn p).pe = false := by
  simp [State.pe, State.resetOn]

/-- Taking an exception leaves PE as it is. -/
theorem State.raise_pe {s t : State} {e : Exc} (h : s.raise e = .next t) : t.pe = s.pe :=
  State.pe_congr (State.raise_entered h).msw

/-- No instruction clears PE. -/
theorem exec_pe {i : Instr} {s t : State} (h : exec i s = .next t) (hp : s.pe = true) : t.pe = true := by
  obtain ⟨rfl, -⟩ | ⟨e, he⟩ | ⟨u, hu, rfl⟩ := exec_next h
  · exact hp
  · exact (State.raise_pe he).trans hp
  · exact (State.pe_congr (u.advance_msw i.length)).trans (effect_pe hu hp)

/-- No step clears PE. -/
theorem step_pe {s t : State} (h : step s = .next t) (hp : s.pe = true) : t.pe = true := by
  obtain ⟨i, u, -, hu, rfl | ⟨-, ht⟩⟩ | ⟨-, e, he⟩ := step_next h
  · exact exec_pe hu hp
  · exact (State.raise_pe ht).trans (exec_pe hu hp)
  · exact (State.raise_pe he).trans hp

/-- LMSW with the privilege and a readable operand has its effect (R128). -/
theorem lmswEffect_of_readRM {s : State} {ovr : Option SegName} {rm : RM} {src : Word} (hc : s.privileged)
    (hs : s.readRM ovr rm = .ok src) :
    lmswEffect ovr rm s =
      .ok { s with msw := loadMsw s.msw src, unflushed := s.unflushed || (!s.pe && src.getLsbD 0) } := by
  simp only [lmswEffect, State.requireCPL0_privileged hc, hs]

/-- LMSW from real address mode with bit 0 of its operand set completes with PE set. -/
theorem execLmsw_sets_pe {s : State} {ovr : Option SegName} {rm : RM} {src : Word} (hp : s.pe = false)
    (hs : s.readRM ovr rm = .ok src) (hb : src.getLsbD 0 = true) :
    ∃ t, exec (.lmsw ovr rm) s = .next t ∧ t.pe = true := by
  refine ⟨_, congrArg (s.finish (Instr.lmsw ovr rm).length) (lmswEffect_of_readRM (.inl hp) hs), ?_⟩
  have hpe : (loadMsw s.msw src).getLsbD 0 = true := by rw [loadMsw_getLsbD, if_pos rfl, hb, Bool.or_true]
  exact hpe

/-- Settles O4: no delivery touches the MSW, no effect clears bit 0 of it, the reset value FFF0h has it clear, and
LMSW ors it with bit 0 of its operand. -/
theorem protectionEnableIsClearedOnlyByReset : Obligations.ProtectionEnableIsClearedOnlyByReset :=
  ⟨fun _ _ hp h => step_pe h hp, State.resetOn_pe, fun _ _ _ _ hp hs hb => execLmsw_sets_pe hp hs hb⟩

end Sys2Proof.Machine
end

section
/-! PROOF. The selector's fields as numbers (20_memory.md R66): a quotient, a bit and a remainder of its value. -/

namespace Sys2Proof.Machine

theorem selIndex_toNat (sel : Word) : (selIndex sel).toNat = sel.toNat / 8 := by
  have hlt : sel.toNat < 2 ^ 16 := sel.isLt
  have hq : sel.toNat / 8 < 2 ^ 13 := by omega
  rw [selIndex, BitVec.extractLsb'_toNat, Nat.shiftRight_eq_div_pow, Nat.mod_eq_of_lt hq]

theorem selTI_toNat (sel : Word) : (selTI sel).toNat = sel.toNat / 4 % 2 :=
  Nat.toNat_testBit sel.toNat 2

theorem selRPL_toNat (sel : Word) : (selRPL sel).toNat = sel.toNat % 4 :=
  BitVec.extractLsb'_toNat 0 2 sel

/-- Index 0 and TI 0 leave the two RPL bits: 0000h to 0003h. -/
theorem selIsNull_iff (sel : Word) : selIsNull sel = true ↔ sel.toNat ≤ 3 := by
  have hlt : sel.toNat < 2 ^ 16 := sel.isLt
  have hq : (sel.extractLsb' 2 14).toNat = sel.toNat / 4 := by
    rw [BitVec.extractLsb'_toNat, Nat.shiftRight_eq_div_pow, Nat.mod_eq_of_lt (by omega)]
  rw [selIsNull, decide_eq_true_iff, ← BitVec.toNat_inj, hq, BitVec.toNat_ofNat]
  omega

theorem selector_toNat (sel : Word) :
    sel.toNat = 8 * (selIndex sel).toNat + 4 * (selTI sel).toNat + (selRPL sel).toNat := by
  rw [selIndex_toNat, selTI_toNat, selRPL_toNat]
  omega

/-- Settles O27: the fields are the quotient by 8, bit 2 and the remainder by 4; in a null selector only the last
can differ from 0. -/
theorem selectorIsIndexTableAndRpl : Obligations.SelectorIsIndexTableAndRpl :=
  fun sel => ⟨selector_toNat sel, selIsNull_iff sel⟩

end Sys2Proof.Machine
end

section
/-! PROOF. The segment of a decoded memory operand (30_encoding.md R95): the fields of the ModRM byte as numbers,
the two forms a memory operand can have, and the segment of each. -/

namespace Sys2Proof.Machine

/-! ### The fields of the ModRM byte -/

theorem modField_toNat (b : Byte) : (modField b).toNat = b.toNat / 64 := by
  have hlt : b.toNat < 2 ^ 8 := b.isLt
  have hq : b.toNat / 64 < 2 ^ 2 := by omega
  rw [modField, BitVec.extractLsb'_toNat, Nat.shiftRight_eq_div_pow, Nat.mod_eq_of_lt hq]

theorem rmField_toNat (b : Byte) : (rmField b).toNat = b.toNat % 8 :=
  BitVec.extractLsb'_toNat 0 3 b

/-- The direct address is mod 00b with rm 110b (R93). -/
theorem modRM_direct_iff (b : Byte) :
    modField b = 0#2 ∧ rmField b = 6#3 ↔ b.toNat / 64 = 0 ∧ b.toNat % 8 = 6 := by
  rw [← BitVec.toNat_inj, ← BitVec.toNat_inj, modField_toNat, rmField_toNat]
  rfl

/-! ### The form of a memory operand -/

/-- A MEMORY OPERAND THAT DECODES is the direct address, or else the register sum of row `rm` with some
displacement (R93, R94). -/
theorem decodeRM_mem {modrm : Byte} {rest : List Byte} {m : MemOp} (h : decodeRM modrm rest = some (.mem m)) :
    ((modField modrm = 0#2 ∧ rmField modrm = 6#3) ∧ ∃ w, m = .direct w) ∨
    (¬ (modField modrm = 0#2 ∧ rmField modrm = 6#3) ∧ ∃ d, m = .based (AddrRegs.ofBits (rmField modrm)) d) := by
  unfold decodeRM at h
  split at h
  · next h0 =>
    split at h
    · next h6 =>
      split at h
      · cases h; exact .inl ⟨⟨h0, h6⟩, _, rfl⟩
      · cases h
    · next h6 => cases h; exact .inr ⟨fun hd => h6 hd.2, _, rfl⟩
  · next h0 =>
    refine .inr ⟨fun hd => h0 hd.1, ?_⟩
    split at h
    · split at h
      · cases h; exact ⟨_, rfl⟩
      · cases h
    · split at h
      · split at h
        · cases h; exact ⟨_, rfl⟩
        · cases h
      · cases h

/-! ### The segment -/

@[simp] theorem operandSeg_override (g : SegName) (m : MemOp) : operandSeg (some g) m = g := rfl

@[simp] theorem operandSeg_direct (w : Word) : operandSeg none (.direct w) = .ds := rfl

@[simp] theorem operandSeg_based (r : AddrRegs) (d : Disp) :
    operandSeg none (.based r d) = if usesBP r then .ss else .ds := rfl

/-- Rows 010b, 011b and 110b of the effective-address table are the ones with BP (R93). -/
theorem usesBP_ofBits_iff (b : BitVec 3) :
    usesBP (AddrRegs.ofBits b) = true ↔ b.toNat = 2 ∨ b.toNat = 3 ∨ b.toNat = 6 := by
  revert b
  decide

/-- The default segment of a decoded memory operand, from its ModRM byte (R95). -/
theorem operandSeg_none_of_decodeRM {modrm : Byte} {rest : List Byte} {m : MemOp}
    (h : decodeRM modrm rest = some (.mem m)) :
    operandSeg none m =
      if modrm.toNat % 8 = 2 ∨ modrm.toNat % 8 = 3 ∨ (modrm.toNat % 8 = 6 ∧ modrm.toNat / 64 ≠ 0)
      then .ss else .ds := by
  obtain ⟨hd, w, rfl⟩ | ⟨hd, d, rfl⟩ := decodeRM_mem h
  · rw [modRM_direct_iff] at hd
    rw [operandSeg_direct, if_neg (by omega)]
  · rw [modRM_direct_iff] at hd
    rw [operandSeg_based]
    refine if_congr ?_ rfl rfl
    rw [usesBP_ofBits_iff, rmField_toNat]
    omega

/-- The override byte of a segment register is read back as that register (R95). -/
@[simp] theorem ofOverride_overrideByte (g : SegName) : SegName.ofOverride g.overrideByte = some g := by
  cases g <;> rfl

/-- Settles O17: a decoded memory operand is the direct address, which goes through DS, or a register sum, which
goes through SS where its row has BP; an override replaces either. -/
theorem operandSegmentIsDefaultOrOverride : Obligations.OperandSegmentIsDefaultOrOverride :=
  ⟨fun _ _ _ _ m h => ⟨fun g => operandSeg_override g m, operandSeg_none_of_decodeRM h⟩,
    ofOverride_overrideByte .es, ofOverride_overrideByte .cs,
    ofOverride_overrideByte .ss, ofOverride_overrideByte .ds⟩

end Sys2Proof.Machine
end

section
/-! PROOF. How an instruction ends, from what its effect answers: the state it completes in, or the exception it
takes; and the check of the level. -/

namespace Sys2Proof.Machine

/-! ### Ends -/

/-- An effect that leaves the system registers completes its instruction (40_system_table_and_msw.md R120). -/
theorem SameSystem.completed {s u : State} (h : SameSystem s u) (i : Instr) :
    Completed i s (u.advance i.length) where
  ip := by rw [State.advance_ip, h.ip]
  es := h.es
  cs := h.cs
  ss := h.ss
  ds := h.ds
  cpl := h.cpl
  lastException := h.lastException
  plat := h.plat

@[simp] theorem State.finish_error (s : State) (n : Nat) (e : Stop) : s.finish n (.error e) = s.stop e := rfl

@[simp] theorem State.stop_exc (s : State) (e : Exc) : s.stop (.exc e) = s.raise e := rfl

/-! ### The level -/

theorem State.requireCPL0_other {s : State} (hp : s.pe = true) (hc : s.cpl ≠ 0#2) :
    s.requireCPL0 = .error (.exc (.gp 0#16)) := by
  simp [State.requireCPL0, hp, hc]

end Sys2Proof.Machine
end

section
/-! PROOF. CLTS (40_system_table_and_msw.md R121): its effect at the privileged levels and at the others. -/

namespace Sys2Proof.Machine

theorem execClts_privileged {s : State} (h : s.privileged) (ovr : Option SegName) :
    exec (.clts ovr) s =
      .next (({ s with msw := clearTS s.msw } : State).advance (Instr.clts ovr).length) := by
  simp only [exec, execClts, cltsEffect, State.requireCPL0_privileged h, State.finish_ok]

theorem execClts_other {s : State} (hp : s.pe = true) (hc : s.cpl ≠ 0#2) (ovr : Option SegName) :
    exec (.clts ovr) s = s.raise (.gp 0#16) := by
  simp only [exec, execClts, cltsEffect, State.requireCPL0_other hp hc, State.finish_error, State.stop_exc]

/-- Settles O30: the effect is a new MSW, whose bits `clearTS_getLsbD` gives; every other field is that of the
state before. -/
theorem cltsClearsTaskSwitched : Obligations.CltsClearsTaskSwitched := by
  refine ⟨rfl, fun s ovr => ⟨fun h => ?_, fun hp hc => execClts_other hp hc ovr⟩⟩
  have hsys : SameSystem s { s with msw := clearTS s.msw } := .of_eq rfl
  exact ⟨_, execClts_privileged h ovr, hsys.completed _, clearTS_getLsbD s.msw, rfl, rfl, rfl,
    ⟨rfl, rfl, rfl⟩, fun _ => rfl⟩

end Sys2Proof.Machine
end

section
/-! PROOF. An instruction that ends with a segmented store (20_memory.md R75, R76): where every byte may be
stored to it completes with the bytes in memory and nothing else changed; and SMSW. -/

namespace Sys2Proof.Machine

/-! ### A store that is performed -/

/-- The two bytes of a word, low byte first (R72). -/
theorem leBytes_word (w : Word) : leBytes 2 w.toNat = [w.extractLsb' 0 8, w.extractLsb' 8 8] := by
  have hlow : BitVec.ofNat 8 w.toNat = w.extractLsb' 0 8 := by
    apply BitVec.eq_of_toNat_eq
    rw [BitVec.toNat_ofNat, BitVec.extractLsb'_toNat, Nat.shiftRight_zero]
  have hhigh : BitVec.ofNat 8 (w.toNat / 256) = w.extractLsb' 8 8 := by
    apply BitVec.eq_of_toNat_eq
    rw [BitVec.toNat_ofNat, BitVec.extractLsb'_toNat, Nat.shiftRight_eq_div_pow]
  simp only [leBytes, hlow, hhigh]

theorem SameButMemory.registers {s t : State} (h : SameButMemory s t) : SameRegisters s t :=
  ⟨h.gpr, h.flags, ⟨h.msw, h.unflushed⟩, h.gdtr, h.idtr, h.ldtr⟩

/-- A store that is performed leaves its bytes at its address, and no others (R75). -/
theorem State.memWrite_storedAt {s t : State} {a : Nat} {bs : List Byte} (h : s.memWrite a bs = .ok t)
    (hl : bs.length ≤ 2 ^ 20) : StoredAt s t a bs := by
  refine ⟨List.ext_getElem (by simp) fun i hi _ => ?_, (State.memWrite_ok h).2.1⟩
  have hib : i < bs.length := by simpa using hi
  simpa [State.span] using State.memWrite_read h hl i hib

/-- The store is performed where no byte is a device's or immutable text (R79, R84). -/
theorem State.memWrite_of_storableSpan {s : State} {a : Nat} {bs : List Byte}
    (h : s.storableSpan a bs.length) : ∃ t, s.memWrite a bs = .ok t := by
  obtain ⟨hdevice, htext⟩ := h
  exact ⟨_, State.memWrite_of_storable fun x hx => State.storeRefusal_eq_none.2 ⟨hdevice x hx, htext x hx⟩⟩

theorem State.segWrite_of_segAccess {s : State} {g : SegName} {off : Word} {bs : List Byte} {a : Nat}
    (h : s.segAccess g off bs.length .write = .ok a) : s.segWrite g off bs = s.memWrite a bs := by
  simp only [State.segWrite, h]

theorem State.segWrite_of_segAccess_error {s : State} {g : SegName} {off : Word} {bs : List Byte} {e : Stop}
    (h : s.segAccess g off bs.length .write = .error e) : s.segWrite g off bs = .error e := by
  simp only [State.segWrite, h]

/-- AN INSTRUCTION WHOSE EFFECT IS A SEGMENTED STORE completes, with the bytes in memory and the registers as
before, where every byte may be stored to. -/
theorem State.finish_segWrite {s : State} {g : SegName} {off : Word} {bs : List Byte} {a : Nat} (i : Instr)
    (ha : s.segAccess g off bs.length .write = .ok a) (hs : s.storableSpan a bs.length)
    (hl : bs.length ≤ 2 ^ 20) :
    ∃ t, s.finish i.length (s.segWrite g off bs) = .next t ∧ Completed i s t ∧ StoredAt s t a bs ∧
      SameRegisters s t := by
  obtain ⟨u, hu⟩ := State.memWrite_of_storableSpan hs
  have hst : StoredAt s u a bs := State.memWrite_storedAt hu hl
  rw [State.segWrite_of_segAccess ha, hu]
  exact ⟨_, rfl, (SameButStack.of_memWrite hu).system.completed i, hst, (State.memWrite_ok hu).1.registers⟩

/-! ### SMSW -/

/-- SMSW to a register completes with the MSW in it (40_system_table_and_msw.md R129). -/
theorem execSmsw_reg (s : State) (ovr : Option SegName) (r : Reg16) :
    exec (.smsw ovr (.reg r)) s =
      .next ((s.setReg r s.msw).advance (Instr.smsw ovr (.reg r)).length) := rfl

/-- SMSW to memory is the segmented store of the MSW's two bytes (R129). -/
theorem execSmsw_mem (s : State) (ovr : Option SegName) (m : MemOp) :
    exec (.smsw ovr (.mem m)) s =
      s.finish (Instr.smsw ovr (.mem m)).length (s.segWrite (operandSeg ovr m) (s.effAddr m)
        [s.msw.extractLsb' 0 8, s.msw.extractLsb' 8 8]) := by
  rw [← leBytes_word]
  rfl

/-- Settles O32: no check of the level stands before the store; the register form writes one register, the memory
form is a segmented store of two bytes, performed or stopped by the check of the segment. -/
theorem smswStoresTheStatusWordRegister : Obligations.SmswStoresTheStatusWordRegister := by
  refine fun s ovr => ⟨fun r => ?register, fun m a ha hs => ?stored, fun m e he => ?trap, fun rm => rfl⟩
  case register =>
    have hsys : SameSystem s (s.setReg r s.msw) := .of_eq rfl
    exact ⟨_, execSmsw_reg s ovr r, hsys.completed _, fun q => s.setReg_reg r q s.msw, rfl, ⟨rfl, rfl⟩,
      ⟨rfl, rfl, rfl⟩, fun _ => rfl⟩
  case stored =>
    rw [execSmsw_mem]
    exact State.finish_segWrite _ ha hs (by simp)
  case trap =>
    rw [execSmsw_mem, State.segWrite_of_segAccess_error he, State.finish_error, State.stop_exc]

end Sys2Proof.Machine
end

section
/-! PROOF. LGDT and LIDT (40_system_table_and_msw.md R122, R124): the table register of a 6-byte image, what the
shared operand `readTable` answers, and what each instruction makes of it. -/

namespace Sys2Proof.Machine

/-! ### The image -/

theorem append_byte_toNat {n : Nat} (hi : BitVec n) (lo : Byte) :
    (hi ++ lo).toNat = 256 * hi.toNat + lo.toNat := by
  rw [BitVec.toNat_append, ← Nat.shiftLeft_add_eq_or_of_lt lo.isLt, Nat.shiftLeft_eq, Nat.mul_comm]

/-- The limit is the word in the image's bytes 0 and 1. -/
theorem tableOfImage_limit (b0 b1 : Byte) (bs : List Byte) :
    (tableOfImage (b0 :: b1 :: bs)).limit = b1 ++ b0 := by
  apply BitVec.eq_of_toNat_eq
  simp only [tableOfImage, leNat, BitVec.toNat_ofNat, append_byte_toNat]
  omega

/-- The base is in the image's bytes 2 to 4; what follows them is ignored. -/
theorem tableOfImage_base (b0 b1 b2 b3 b4 : Byte) (bs : List Byte) :
    (tableOfImage (b0 :: b1 :: b2 :: b3 :: b4 :: bs)).base = b4 ++ b3 ++ b2 := by
  apply BitVec.eq_of_toNat_eq
  simp only [tableOfImage, List.drop_succ_cons, List.drop_zero, leNat, BitVec.toNat_ofNat, append_byte_toNat]
  omega

/-! ### The operand -/

@[simp] theorem State.readTable_reg (s : State) (ovr : Option SegName) (r : Reg16) :
    s.readTable ovr (.reg r) = .error (.exc .ud) := rfl

theorem State.readTable_other {s : State} (hp : s.pe = true) (hc : s.cpl ≠ 0#2) (ovr : Option SegName)
    (m : MemOp) : s.readTable ovr (.mem m) = .error (.exc (.gp 0#16)) := by
  simp only [State.readTable, State.requireCPL0_other hp hc]

theorem State.readTable_of_segRead {s : State} {ovr : Option SegName} {m : MemOp} {bs : List Byte}
    (h : s.privileged) (hr : s.segRead (operandSeg ovr m) (s.effAddr m) 6 = .ok bs) :
    s.readTable ovr (.mem m) = .ok (tableOfImage bs) := by
  simp only [State.readTable, State.requireCPL0_privileged h, hr]

theorem State.readTable_of_segRead_error {s : State} {ovr : Option SegName} {m : MemOp} {e : Stop}
    (h : s.privileged) (hr : s.segRead (operandSeg ovr m) (s.effAddr m) 6 = .error e) :
    s.readTable ovr (.mem m) = .error e := by
  simp only [State.readTable, State.requireCPL0_privileged h, hr]

theorem State.segRead_of_segAccess_error {s : State} {g : SegName} {off : Word} {n : Nat} {e : Stop}
    (h : s.segAccess g off n .read = .error e) : s.segRead g off n = .error e := by
  simp only [State.segRead, h]

/-! ### The two instructions -/

theorem execLgdt_of_readTable {s : State} {ovr : Option SegName} {rm : RM} {r : TableReg}
    (h : s.readTable ovr rm = .ok r) :
    exec (.lgdt ovr rm) s = .next (({ s with gdtr := r } : State).advance (Instr.lgdt ovr rm).length) := by
  simp only [exec, execLgdt, lgdtEffect, h, State.finish_ok]

theorem execLidt_of_readTable {s : State} {ovr : Option SegName} {rm : RM} {r : TableReg}
    (h : s.readTable ovr rm = .ok r) :
    exec (.lidt ovr rm) s = .next (({ s with idtr := r } : State).advance (Instr.lidt ovr rm).length) := by
  simp only [exec, execLidt, lidtEffect, h, State.finish_ok]

/-- Where their operand stops, both stop for the same reason. -/
theorem execLgdt_execLidt_of_readTable_error {s : State} {ovr : Option SegName} {rm : RM} {e : Stop}
    (h : s.readTable ovr rm = .error e) :
    exec (.lgdt ovr rm) s = s.stop e ∧ exec (.lidt ovr rm) s = s.stop e := by
  simp only [exec, execLgdt, execLidt, lgdtEffect, lidtEffect, h, State.finish_error, and_self]

/-- Settles O33: the register loaded is `tableOfImage` of the six bytes, of which byte 5 enters neither field; each
trap is what `readTable` answers in place of a table register. -/
theorem lgdtAndLidtLoadTheTableRegister : Obligations.LgdtAndLidtLoadTheTableRegister := by
  refine fun s ovr m => ⟨fun b0 b1 b2 b3 b4 b5 h hr => ?loads, fun r => ?register, fun hp hc => ?level,
    fun e h he => ?operand, rfl, rfl⟩
  case loads =>
    have ht := State.readTable_of_segRead h hr
    have hlimit := tableOfImage_limit b0 b1 [b2, b3, b4, b5]
    have hbase := tableOfImage_base b0 b1 b2 b3 b4 [b5]
    have hg : SameSystem s { s with gdtr := tableOfImage [b0, b1, b2, b3, b4, b5] } := .of_eq rfl
    have hi : SameSystem s { s with idtr := tableOfImage [b0, b1, b2, b3, b4, b5] } := .of_eq rfl
    exact ⟨⟨_, execLgdt_of_readTable ht, hg.completed _, hlimit, hbase, rfl, rfl, rfl, rfl, ⟨rfl, rfl⟩, fun _ => rfl⟩,
      ⟨_, execLidt_of_readTable ht, hi.completed _, hlimit, hbase, rfl, rfl, rfl, rfl, ⟨rfl, rfl⟩, fun _ => rfl⟩⟩
  case register => exact execLgdt_execLidt_of_readTable_error (s.readTable_reg ovr r)
  case level => exact execLgdt_execLidt_of_readTable_error (State.readTable_other hp hc ovr m)
  case operand =>
    exact execLgdt_execLidt_of_readTable_error
      (State.readTable_of_segRead_error h (State.segRead_of_segAccess_error he))

end Sys2Proof.Machine
end

section
/-! PROOF. The tests of a descriptor (41_access_checking.md R140 to R146): what the model computes from the access
rights byte, in the spec's words; and the lookup of the selector that LAR, LSL, VERR and VERW begin with. -/

namespace Sys2Proof.Machine

/-! ### The access rights byte -/

theorem arType_toNat (a : Byte) : (arType a).toNat = a.toNat % 16 :=
  BitVec.extractLsb'_toNat 0 4 a

theorem arDPL_toNat (a : Byte) : (arDPL a).toNat = a.toNat / 32 % 4 := by
  rw [arDPL, BitVec.extractLsb'_toNat, Nat.shiftRight_eq_div_pow]

theorem arPrivilegeOk_iff (a : Byte) (cpl rpl : BitVec 2) :
    arPrivilegeOk a cpl rpl = true ↔ cpl.toNat ≤ a.toNat / 32 % 4 ∧ rpl.toNat ≤ a.toNat / 32 % 4 := by
  simp only [arPrivilegeOk, Bool.and_eq_true, decide_eq_true_iff, arDPL_toNat]

theorem arVisible_iff (a : Byte) (cpl rpl : BitVec 2) : arVisible a cpl rpl = true ↔ Visible a cpl rpl := by
  simp only [arVisible, Bool.or_eq_true, arPrivilegeOk_iff, arConforming, Bool.and_eq_true, arSegment, arCode,
    arBit2, and_assoc, Visible]

/-- A code or data segment is accepted; of a system descriptor the type decides (R141). -/
theorem larType_iff (a : Byte) : larType a = true ↔ LarAccepts a := by
  cases hs : a.getLsbD 4 with
  | true => simp [larType, arSegment, LarAccepts, hs]
  | false =>
    simp only [larType, arSegment, LarAccepts, hs, Bool.false_eq_true, if_false, false_or, arType_toNat]
    generalize a.toNat % 16 = n
    split
    case h_8 => grind
    all_goals simp

/-- A code or data segment is accepted; of a system descriptor the type decides (R142). -/
theorem lslType_iff (a : Byte) : lslType a = true ↔ LslAccepts a := by
  cases hs : a.getLsbD 4 with
  | true => simp [lslType, arSegment, LslAccepts, hs]
  | false =>
    simp only [lslType, arSegment, LslAccepts, hs, Bool.false_eq_true, if_false, false_or, arType_toNat]
    generalize a.toNat % 16 = n
    split
    case h_4 => grind
    all_goals simp

theorem arReadable_iff (a : Byte) : arReadable a = true ↔ VerrAccepts a := by
  simp only [arReadable, arSegment, arCode, arBit1, VerrAccepts, Bool.and_eq_true, Bool.or_eq_true,
    Bool.not_eq_true']

/-! ### The four tests -/

theorem State.larTest_iff (s : State) (sel : Word) (d : Descriptor) :
    s.larTest sel d = true ↔ LarAccepts d.access ∧ Visible d.access s.cpl (sel.extractLsb' 0 2) := by
  rw [State.larTest, Bool.and_eq_true, larType_iff, arVisible_iff, selRPL]

theorem State.lslTest_iff (s : State) (sel : Word) (d : Descriptor) :
    s.lslTest sel d = true ↔ LslAccepts d.access ∧ Visible d.access s.cpl (sel.extractLsb' 0 2) := by
  rw [State.lslTest, Bool.and_eq_true, lslType_iff, arVisible_iff, selRPL]

theorem State.verrTest_iff (s : State) (sel : Word) (d : Descriptor) :
    s.verrTest sel d = true ↔ VerrAccepts d.access ∧ Visible d.access s.cpl (sel.extractLsb' 0 2) := by
  rw [State.verrTest, Bool.and_eq_true, arReadable_iff, arVisible_iff, selRPL]

theorem State.verwTest_iff (s : State) (sel : Word) (d : Descriptor) :
    s.verwTest sel d = true ↔ VerwAccepts d.access s.cpl (sel.extractLsb' 0 2) := by
  simp only [State.verwTest, arWritable, arSegment, arCode, arBit1, VerwAccepts, Bool.and_eq_true,
    Bool.not_eq_true', arPrivilegeOk_iff, and_assoc, selRPL]

/-! ### The descriptor a test lets through -/

theorem descTest_desc {test : Descriptor → Bool} {d : Descriptor} (h : test d = true) :
    descTest test (.desc d) = some d := if_pos h

/-- Null and out-of-table selectors name nothing, so they fail every test (R140). -/
theorem descTest_isSome_iff {test : Descriptor → Bool} {accepts : Descriptor → Prop}
    (h : ∀ d, test d = true ↔ accepts d) (l : Lookup) :
    (descTest test l).isSome = true ↔ Names l accepts := by
  cases l with
  | null => simp [descTest, Names]
  | outOfTable => simp [descTest, Names]
  | desc d => simp [descTest, Names, h]

theorem descTest_eq_none {test : Descriptor → Bool} {accepts : Descriptor → Prop}
    (h : ∀ d, test d = true ↔ accepts d) {l : Lookup} (hn : ¬ Names l accepts) : descTest test l = none := by
  rwa [← descTest_isSome_iff h, Option.not_isSome_iff_eq_none] at hn

/-! ### The lookup -/

theorem State.requireProtected_real {s : State} (h : s.pe = false) : s.requireProtected = .error (.exc .ud) := by
  simp [State.requireProtected, h]

theorem State.lookupOperand_real {s : State} (h : s.pe = false) (ovr : Option SegName) (rm : RM) :
    s.lookupOperand ovr rm = .error (.exc .ud) := by
  simp only [State.lookupOperand, State.requireProtected_real h]

theorem State.lookupOperand_of_fetchDesc {s : State} {ovr : Option SegName} {rm : RM} {sel : Word} {l : Lookup}
    (h : s.protectedReady) (hr : s.readRM ovr rm = .ok sel) (hl : s.fetchDesc sel = .ok l) :
    s.lookupOperand ovr rm = .ok (sel, l) := by
  simp only [State.lookupOperand, State.requireProtected_ready h, hr, hl]

theorem State.readRM_of_segAccess_error {s : State} {ovr : Option SegName} {m : MemOp} {e : Stop}
    (h : s.segAccess (operandSeg ovr m) (s.effAddr m) 2 .read = .error e) :
    s.readRM ovr (.mem m) = .error e := by
  simp only [State.readRM, State.segRead_of_segAccess_error h]

theorem State.lookupOperand_of_readRM_error {s : State} {ovr : Option SegName} {rm : RM} {e : Stop}
    (h : s.protectedReady) (hr : s.readRM ovr rm = .error e) : s.lookupOperand ovr rm = .error e := by
  simp only [State.lookupOperand, State.requireProtected_ready h, hr]

/-- AN INSTRUCTION THAT STOPS WHERE ITS LOOKUP DOES traps in real address mode and at an operand that may not be
read. -/
theorem operandTraps_of_lookupOperand {s : State} {ovr : Option SegName} {i : RM → Instr}
    (h : ∀ rm e, s.lookupOperand ovr rm = .error e → exec (i rm) s = s.stop e) :
    OperandTraps s ovr i .read :=
  ⟨fun hp rm => h rm _ (State.lookupOperand_real hp ovr rm),
    fun hready m _ he => h (.mem m) _
      (State.lookupOperand_of_readRM_error hready (State.readRM_of_segAccess_error he))⟩

/-! ### What the two effects leave -/

/-- Completing with nothing but ZF written. -/
theorem setZF_completes (i : Instr) (s : State) (b : Bool) {t : State} (ht : t = (s.setZF b).advance i.length) :
    Completed i s t ∧ OnlyZF s t b ∧ t.gpr = s.gpr ∧ SameMode s t ∧ SameTables s t ∧ SameMemory s t := by
  subst ht
  exact ⟨(setZF_system s b).completed i, setZF_onlyZF s b, rfl, ⟨rfl, rfl⟩, ⟨rfl, rfl, rfl⟩, fun _ => rfl⟩

/-- Completing with nothing but one register and ZF written. -/
theorem setReg_setZF_completes (i : Instr) (s : State) (r : Reg16) (v : Word) (b : Bool) {t : State}
    (ht : t = ((s.setReg r v).setZF b).advance i.length) :
    Completed i s t ∧ OnlyReg s t r v ∧ OnlyZF s t b ∧ SameMode s t ∧ SameTables s t ∧ SameMemory s t := by
  subst ht
  have hsys : SameSystem s ((s.setReg r v).setZF b) := .of_eq rfl
  exact ⟨hsys.completed i, fun q => s.setReg_reg r q v, setZF_onlyZF (s.setReg r v) b, ⟨rfl, rfl⟩, ⟨rfl, rfl, rfl⟩,
    fun _ => rfl⟩

end Sys2Proof.Machine
end

section
/-! PROOF. LAR (41_access_checking.md R141): what it makes of each answer of the lookup. -/

namespace Sys2Proof.Machine

theorem execLar_of_lookupOperand_error {s : State} {ovr : Option SegName} {reg : Reg16} {rm : RM} {e : Stop}
    (h : s.lookupOperand ovr rm = .error e) : exec (.lar ovr reg rm) s = s.stop e := by
  simp only [exec, execLar, larEffect, h, State.finish_error]

theorem execLar_accepted {s : State} {ovr : Option SegName} {reg : Reg16} {rm : RM} {sel : Word} {l : Lookup}
    {d : Descriptor} (h : s.lookupOperand ovr rm = .ok (sel, l)) (hd : descTest (s.larTest sel) l = some d) :
    exec (.lar ovr reg rm) s =
      .next (((s.setReg reg (d.access ++ 0#8)).setZF true).advance (Instr.lar ovr reg rm).length) := by
  simp only [exec, execLar, larEffect, h, hd, State.finish_ok]

theorem execLar_rejected {s : State} {ovr : Option SegName} {reg : Reg16} {rm : RM} {sel : Word} {l : Lookup}
    (h : s.lookupOperand ovr rm = .ok (sel, l)) (hd : descTest (s.larTest sel) l = none) :
    exec (.lar ovr reg rm) s = .next ((s.setZF false).advance (Instr.lar ovr reg rm).length) := by
  simp only [exec, execLar, larEffect, h, hd, State.finish_ok]

/-- Settles O38: with the descriptor looked up, `State.larTest` decides between one register with ZF and ZF alone,
and it is the spec's condition. -/
theorem larLoadsAccessRights : Obligations.LarLoadsAccessRights := by
  refine ⟨fun s ovr reg => ⟨operandTraps_of_lookupOperand fun _ _ => execLar_of_lookupOperand_error, fun _ => rfl⟩,
    fun s ovr reg rm sel l hready hr hl => ?_⟩
  have hlook := State.lookupOperand_of_fetchDesc hready hr hl
  refine ⟨?accepted, fun hn => ?rejected⟩
  case accepted =>
    rintro d rfl ha hv
    exact ⟨_, execLar_accepted hlook (descTest_desc ((s.larTest_iff sel d).2 ⟨ha, hv⟩)),
      setReg_setZF_completes _ s reg _ true rfl⟩
  case rejected =>
    obtain ⟨hc, hz, hgpr, hframe⟩ := setZF_completes (.lar ovr reg rm) s false rfl
    exact ⟨_, execLar_rejected hlook (descTest_eq_none (s.larTest_iff sel) hn), hc, hgpr, hz, hframe⟩

end Sys2Proof.Machine
end

section
/-! PROOF. LSL (41_access_checking.md R142): what it makes of each answer of the lookup. -/

namespace Sys2Proof.Machine

theorem execLsl_of_lookupOperand_error {s : State} {ovr : Option SegName} {reg : Reg16} {rm : RM} {e : Stop}
    (h : s.lookupOperand ovr rm = .error e) : exec (.lsl ovr reg rm) s = s.stop e := by
  simp only [exec, execLsl, lslEffect, h, State.finish_error]

theorem execLsl_accepted {s : State} {ovr : Option SegName} {reg : Reg16} {rm : RM} {sel : Word} {l : Lookup}
    {d : Descriptor} (h : s.lookupOperand ovr rm = .ok (sel, l)) (hd : descTest (s.lslTest sel) l = some d) :
    exec (.lsl ovr reg rm) s =
      .next (((s.setReg reg d.limit).setZF true).advance (Instr.lsl ovr reg rm).length) := by
  simp only [exec, execLsl, lslEffect, h, hd, State.finish_ok]

theorem execLsl_rejected {s : State} {ovr : Option SegName} {reg : Reg16} {rm : RM} {sel : Word} {l : Lookup}
    (h : s.lookupOperand ovr rm = .ok (sel, l)) (hd : descTest (s.lslTest sel) l = none) :
    exec (.lsl ovr reg rm) s = .next ((s.setZF false).advance (Instr.lsl ovr reg rm).length) := by
  simp only [exec, execLsl, lslEffect, h, hd, State.finish_ok]

/-- Settles O39: as for LAR, with `State.lslTest` and the limit field as it is stored. -/
theorem lslLoadsTheSegmentLimit : Obligations.LslLoadsTheSegmentLimit := by
  refine ⟨fun s ovr reg => ⟨operandTraps_of_lookupOperand fun _ _ => execLsl_of_lookupOperand_error, fun _ => rfl⟩,
    fun s ovr reg rm sel l hready hr hl => ?_⟩
  have hlook := State.lookupOperand_of_fetchDesc hready hr hl
  refine ⟨?accepted, fun hn => ?rejected⟩
  case accepted =>
    rintro d rfl ha hv
    exact ⟨_, execLsl_accepted hlook (descTest_desc ((s.lslTest_iff sel d).2 ⟨ha, hv⟩)),
      setReg_setZF_completes _ s reg _ true rfl⟩
  case rejected =>
    obtain ⟨hc, hz, hgpr, hframe⟩ := setZF_completes (.lsl ovr reg rm) s false rfl
    exact ⟨_, execLsl_rejected hlook (descTest_eq_none (s.lslTest_iff sel) hn), hc, hgpr, hz, hframe⟩

end Sys2Proof.Machine
end

section
/-! PROOF. VERR and VERW (41_access_checking.md R145, R146): ZF is whether a descriptor passes the test. -/

namespace Sys2Proof.Machine

theorem execVerr_of_lookupOperand_error {s : State} {ovr : Option SegName} {rm : RM} {e : Stop}
    (h : s.lookupOperand ovr rm = .error e) : exec (.verr ovr rm) s = s.stop e := by
  simp only [exec, execVerr, verrEffect, h, State.finish_error]

theorem execVerr_of_lookupOperand {s : State} {ovr : Option SegName} {rm : RM} {sel : Word} {l : Lookup}
    (h : s.lookupOperand ovr rm = .ok (sel, l)) :
    exec (.verr ovr rm) s =
      .next ((s.setZF (descTest (s.verrTest sel) l).isSome).advance (Instr.verr ovr rm).length) := by
  simp only [exec, execVerr, verrEffect, h, State.finish_ok]

theorem execVerw_of_lookupOperand_error {s : State} {ovr : Option SegName} {rm : RM} {e : Stop}
    (h : s.lookupOperand ovr rm = .error e) : exec (.verw ovr rm) s = s.stop e := by
  simp only [exec, execVerw, verwEffect, h, State.finish_error]

theorem execVerw_of_lookupOperand {s : State} {ovr : Option SegName} {rm : RM} {sel : Word} {l : Lookup}
    (h : s.lookupOperand ovr rm = .ok (sel, l)) :
    exec (.verw ovr rm) s =
      .next ((s.setZF (descTest (s.verwTest sel) l).isSome).advance (Instr.verw ovr rm).length) := by
  simp only [exec, execVerw, verwEffect, h, State.finish_ok]

/-- Settles O40: the one bit written is whether a descriptor passes `State.verrTest`, which is the spec's
condition. -/
theorem verrSetsZfForAReadableSegment : Obligations.VerrSetsZfForAReadableSegment := by
  refine ⟨fun s ovr => ⟨operandTraps_of_lookupOperand fun _ _ => execVerr_of_lookupOperand_error, fun _ => rfl⟩,
    fun s ovr rm sel l hready hr hl => ?_⟩
  have hlook := State.lookupOperand_of_fetchDesc hready hr hl
  obtain ⟨hc, hz, hframe⟩ := setZF_completes (.verr ovr rm) s (descTest (s.verrTest sel) l).isSome rfl
  exact ⟨_, _, execVerr_of_lookupOperand hlook, hc, hz, descTest_isSome_iff (s.verrTest_iff sel) l, hframe⟩

/-- Settles O41: the one bit written is whether a descriptor passes `State.verwTest`, which has no exemption for
conforming segments. -/
theorem verwSetsZfForAWritableSegment : Obligations.VerwSetsZfForAWritableSegment := by
  refine ⟨fun s ovr => ⟨operandTraps_of_lookupOperand fun _ _ => execVerw_of_lookupOperand_error, fun _ => rfl⟩,
    fun s ovr rm sel l hready hr hl => ?_⟩
  have hlook := State.lookupOperand_of_fetchDesc hready hr hl
  obtain ⟨hc, hz, hframe⟩ := setZF_completes (.verw ovr rm) s (descTest (s.verwTest sel) l).isSome rfl
  exact ⟨_, _, execVerw_of_lookupOperand hlook, hc, hz, descTest_isSome_iff (s.verwTest_iff sel) l, hframe⟩

end Sys2Proof.Machine
end

section
/-! PROOF. What every step keeps: a relation kept by exceptions and by effects is kept by steps, and a part of the
state that exceptions leave alone changes only by the effect of the fetched instruction. -/

namespace Sys2Proof.Machine

/-! ### From exceptions and effects to steps -/

/-- A relation over states that taking an exception and completing with an effect keep, executing an instruction
keeps. -/
theorem exec_keeps {R : State → State → Prop} (refl : ∀ s, R s s)
    (raise : ∀ {s t e}, s.raise e = .next t → R s t)
    (effects : ∀ {i s u}, effect i s = .ok u → R s (u.advance i.length))
    {i : Instr} {s t : State} (h : exec i s = .next t) : R s t := by
  obtain ⟨rfl, -⟩ | ⟨e, he⟩ | ⟨u, hu, rfl⟩ := exec_next h
  · exact refl t
  · exact raise he
  · exact effects hu

/-- A relation over states that taking an exception and completing with an effect keep, every step keeps. -/
theorem step_keeps {R : State → State → Prop} (refl : ∀ s, R s s) (trans : ∀ {s t u}, R s t → R t u → R s u)
    (raise : ∀ {s t e}, s.raise e = .next t → R s t)
    (effects : ∀ {i s u}, effect i s = .ok u → R s (u.advance i.length))
    {s t : State} (h : step s = .next t) : R s t := by
  obtain ⟨i, u, -, hu, rfl | ⟨-, ht⟩⟩ | ⟨-, e, he⟩ := step_next h
  · exact exec_keeps refl raise effects hu
  · exact trans (exec_keeps refl raise effects hu) (raise ht)
  · exact raise he

/-- A PART OF THE STATE that neither taking an exception nor moving IP changes is after a step as it was, or as
the effect of the fetched instruction made it. -/
theorem step_part {α : Type} (f : State → α) (advance : ∀ u n, f (State.advance u n) = f u)
    (raise : ∀ {s t e}, s.raise e = .next t → f t = f s) {s t : State} (h : step s = .next t) :
    f t = f s ∨ ∃ i u, s.fetched = .instr i ∧ effect i s = .ok u ∧ f t = f u := by
  have executed : ∀ {i u}, exec i s = .next u → f u = f s ∨ ∃ v, effect i s = .ok v ∧ f u = f v := by
    intro i u hu
    obtain ⟨rfl, -⟩ | ⟨e, he⟩ | ⟨v, hv, rfl⟩ := exec_next hu
    · exact .inl rfl
    · exact .inl (raise he)
    · exact .inr ⟨v, hv, advance v _⟩
  obtain ⟨i, u, hf, hu, ht⟩ | ⟨-, e, he⟩ := step_next h
  · have htu : f t = f u := by
      obtain rfl | ⟨-, ht⟩ := ht
      · rfl
      · exact raise ht
    obtain hs | ⟨v, hv, hfv⟩ := executed hu
    · exact .inl (htu.trans hs)
    · exact .inr ⟨i, v, hf, hv, htu.trans hfv⟩
  · exact .inl (raise he)

/-- A part of the state that exceptions, IP and every effect leave alone, every step leaves alone. -/
theorem step_part_eq {α : Type} (f : State → α) (advance : ∀ u n, f (State.advance u n) = f u)
    (raise : ∀ {s t e}, s.raise e = .next t → f t = f s)
    (effects : ∀ {i s u}, effect i s = .ok u → f u = f s) {s t : State} (h : step s = .next t) : f t = f s := by
  obtain hs | ⟨i, u, -, hu, hf⟩ := step_part f advance raise h
  · exact hs
  · exact hf.trans (effects hu)

/-! ### CPL, the platform, the segment registers and the flags -/

theorem step_cpl {s t : State} (h : step s = .next t) : t.cpl = s.cpl :=
  step_part_eq State.cpl State.advance_cpl (fun h => (State.raise_entered h).cpl) (fun h => (effect_system h).cpl) h

theorem step_plat {s t : State} (h : step s = .next t) : t.plat = s.plat :=
  step_part_eq State.plat State.advance_plat (fun h => (State.raise_entered h).plat)
    (fun h => (effect_system h).plat) h

theorem step_ds {s t : State} (h : step s = .next t) : t.ds = s.ds :=
  step_part_eq State.ds State.advance_ds (fun h => (State.raise_entered h).ds) (fun h => (effect_system h).ds) h

theorem step_ss {s t : State} (h : step s = .next t) : t.ss = s.ss :=
  step_part_eq State.ss State.advance_ss (fun h => (State.raise_entered h).ss) (fun h => (effect_system h).ss) h

theorem step_es {s t : State} (h : step s = .next t) : t.es = s.es :=
  step_part_eq State.es State.advance_es (fun h => (State.raise_entered h).es) (fun h => (effect_system h).es) h

/-- Executing an instruction leaves CS, but where it takes an exception. -/
theorem exec_cs {i : Instr} {s t : State} (h : exec i s = .next t) : t.cs = s.cs ∨ ∃ e, s.raise e = .next t := by
  obtain ⟨rfl, -⟩ | he | ⟨u, hu, rfl⟩ := exec_next h
  · exact .inl rfl
  · exact .inr he
  · exact .inl (effect_system hu).cs

/-- Of the status word an effect writes ZF only. -/
theorem effect_flag {i : Instr} {s t : State} (h : effect i s = .ok t) {k : Nat} (hk : k ≠ 6) :
    t.flags.getLsbD k = s.flags.getLsbD k := by
  obtain hf | ⟨b, hf⟩ := effect_flags h
  · rw [hf]
  · rw [hf, putBit_getLsbD _ _ _ _ (by decide), if_neg hk]

/-- Settles O5: neither an exception nor an effect writes CPL or the platform. -/
theorem noStepChangesThePrivilegeLevel : Obligations.NoStepChangesThePrivilegeLevel :=
  fun _ _ h => ⟨step_cpl h, step_plat h⟩

/-- Settles O9: no effect writes a segment register, so where CS differs the step's exception, of the instruction
or of the single step, has loaded it. -/
theorem segmentCachesChangeOnlyByTakingAnException : Obligations.SegmentCachesChangeOnlyByTakingAnException := by
  refine fun s t h => ⟨step_ds h, step_ss h, step_es h, fun hcs => ?_⟩
  obtain ⟨i, u, hf, hu, ht⟩ | ⟨-, he⟩ := step_next h
  · obtain hsame | ⟨e, he⟩ := exec_cs hu
    · obtain rfl | ⟨-, ht⟩ := ht
      · exact absurd hsame hcs
      · exact .inr ⟨i, u, hf, hu, hsame, ht⟩
    · obtain rfl | ⟨htf, -⟩ := ht
      · exact .inl ⟨e, he⟩
      · rw [(State.raise_entered he).tf] at htf
        cases htf
  · exact .inl he

/-- Settles O10: an effect writes ZF, an exception TF, IF and NT. -/
theorem noStepChangesTheOtherFlags : Obligations.NoStepChangesTheOtherFlags :=
  fun _ _ h k h6 h8 h9 h14 => step_part_eq (fun s => s.flags.getLsbD k) (fun _ _ => rfl)
    (fun h => (State.raise_entered h).flags k h8 h9 h14) (fun h => effect_flag h h6) h

/-! ### The machine status word and the table registers -/

/-- Where a step changes the MSW, the effect of the fetched instruction did. -/
theorem step_msw {s t : State} (h : step s = .next t) :
    t.msw = s.msw ∨ ∃ i u, s.fetched = .instr i ∧ effect i s = .ok u ∧ t.msw = u.msw :=
  step_part State.msw State.advance_msw (fun h => (State.raise_entered h).msw) h

/-- No effect changes bits 15:4 of the MSW (10_state.md R33). -/
theorem effect_msw_high {i : Instr} {s t : State} (h : effect i s = .ok t) {k : Nat} (hk : 4 ≤ k) :
    t.msw.getLsbD k = s.msw.getLsbD k := by
  obtain hm | ⟨-, hm⟩ | ⟨o, rm, src, -, hm, -⟩ := effect_msw h
  · rw [hm]
  · rw [hm, clearTS_getLsbD, if_neg (by omega)]
  · rw [hm, loadMsw_getLsbD, if_neg (by omega), if_neg (by omega)]

/-- Settles O6: an exception leaves the MSW, and of the effects only those of CLTS and LMSW write it, in bits 3:0. -/
theorem onlyCltsAndLmswChangeTheStatusWordRegister : Obligations.OnlyCltsAndLmswChangeTheStatusWordRegister := by
  refine fun s t h => ⟨fun k hk => ?_, fun hne => ?_⟩
  · exact step_part_eq (fun s => s.msw.getLsbD k) (fun _ _ => rfl)
      (fun h => congrArg (BitVec.getLsbD · k) (State.raise_entered h).msw) (fun h => effect_msw_high h hk) h
  · obtain hs | ⟨i, u, hf, hu, hm⟩ := step_msw h
    · exact absurd hs hne
    · rw [hm] at hne
      exact ⟨i, hf, ((effect_control hu).msw.resolve_left hne).2⟩

theorem step_gdtr {s t : State} (h : step s = .next t) :
    t.gdtr = s.gdtr ∨ ∃ i u, s.fetched = .instr i ∧ effect i s = .ok u ∧ t.gdtr = u.gdtr :=
  step_part State.gdtr State.advance_gdtr (fun h => (State.raise_entered h).gdtr) h

theorem step_idtr {s t : State} (h : step s = .next t) :
    t.idtr = s.idtr ∨ ∃ i u, s.fetched = .instr i ∧ effect i s = .ok u ∧ t.idtr = u.idtr :=
  step_part State.idtr State.advance_idtr (fun h => (State.raise_entered h).idtr) h

theorem step_ldtr {s t : State} (h : step s = .next t) :
    t.ldtr = s.ldtr ∨ ∃ i u, s.fetched = .instr i ∧ effect i s = .ok u ∧ t.ldtr = u.ldtr :=
  step_part State.ldtr State.advance_ldtr (fun h => (State.raise_entered h).ldtr) h

/-- Settles O7: an exception leaves the table registers, and each is written by the effect of its own load only. -/
theorem tableRegistersChangeOnlyByTheirLoads : Obligations.TableRegistersChangeOnlyByTheirLoads := by
  refine fun s t h => ⟨fun hne => ?_, fun hne => ?_, fun hne => ?_⟩
  · obtain ⟨i, u, hf, hu, hm⟩ := (step_gdtr h).resolve_left hne
    rw [hm] at hne
    obtain ⟨-, o, rm, rfl⟩ := (effect_control hu).gdtr.resolve_left hne
    exact ⟨o, rm, hf⟩
  · obtain ⟨i, u, hf, hu, hm⟩ := (step_idtr h).resolve_left hne
    rw [hm] at hne
    obtain ⟨-, o, rm, rfl⟩ := (effect_control hu).idtr.resolve_left hne
    exact ⟨o, rm, hf⟩
  · obtain ⟨i, u, hf, hu, hm⟩ := (step_ldtr h).resolve_left hne
    rw [hm] at hne
    obtain ⟨-, o, rm, rfl⟩ := (effect_control hu).ldtr.resolve_left hne
    exact ⟨o, rm, hf⟩

/-- Without the privilege no effect changes the MSW or a table register (60_exceptions.md R193). -/
theorem effect_unprivileged {i : Instr} {s t : State} (h : effect i s = .ok t) (hn : ¬ s.privileged) :
    t.msw = s.msw ∧ SameTables s t := by
  have hc := effect_control h
  exact ⟨hc.msw.resolve_right fun k => hn k.1, hc.gdtr.resolve_right fun k => hn k.1,
    hc.idtr.resolve_right fun k => hn k.1, hc.ldtr.resolve_right fun k => hn k.1⟩

/-- Settles O8: whatever a step changes of these registers the effect of the fetched instruction changed, and no
effect changes them without the privilege. -/
theorem lessTrustedCodeCannotChangeTheSystemRegisters : Obligations.LessTrustedCodeCannotChangeTheSystemRegisters := by
  intro s t hp hc h
  have hn : ¬ s.privileged := by simp [State.privileged, hp, hc]
  refine ⟨?_, ?_, ?_, ?_⟩
  · obtain hs | ⟨i, u, -, hu, hm⟩ := step_msw h
    · exact hs
    · exact hm.trans (effect_unprivileged hu hn).1
  · obtain hs | ⟨i, u, -, hu, hm⟩ := step_gdtr h
    · exact hs
    · exact hm.trans (effect_unprivileged hu hn).2.1
  · obtain hs | ⟨i, u, -, hu, hm⟩ := step_idtr h
    · exact hs
    · exact hm.trans (effect_unprivileged hu hn).2.2.1
  · obtain hs | ⟨i, u, -, hu, hm⟩ := step_ldtr h
    · exact hs
    · exact hm.trans (effect_unprivileged hu hn).2.2.2

/-! ### Memory above one mebibyte -/

/-- What a step in real address mode under the 20-bit reading leaves: every byte from 100000h on, where it stays
in that mode. -/
def KeepsHighMemory (s t : State) : Prop :=
  t.plat = s.plat ∧ (t.pe = false → s.pe = false ∧
    (s.plat.addressModel = .source20BitWrap → ∀ a, 2 ^ 20 ≤ a → t.mem.read a = s.mem.read a))

theorem KeepsHighMemory.refl (s : State) : KeepsHighMemory s s := ⟨rfl, fun hp => ⟨hp, fun _ _ _ => rfl⟩⟩

theorem KeepsHighMemory.trans {s t u : State} (h : KeepsHighMemory s t) (k : KeepsHighMemory t u) :
    KeepsHighMemory s u := by
  refine ⟨k.1.trans h.1, fun hp => ?_⟩
  obtain ⟨hpt, hk⟩ := k.2 hp
  obtain ⟨hps, hh⟩ := h.2 hpt
  exact ⟨hps, fun hm a ha => (hk (h.1 ▸ hm) a ha).trans (hh hm a ha)⟩

/-- An operation writes below the address space, which is 2^20 in real address mode under the 20-bit reading
(20_memory.md R62). -/
theorem KeepsHighMemory.of_high {s t : State} (hplat : t.plat = s.plat) (hpe : s.pe = true → t.pe = true)
    (high : ∀ x, s.addressSpace ≤ x → t.mem.read x = s.mem.read x) : KeepsHighMemory s t := by
  refine ⟨hplat, fun ht => ?_⟩
  have hp : s.pe = false := Bool.eq_false_iff.2 fun hs => by rw [hpe hs] at ht; cases ht
  refine ⟨hp, fun hm a ha => high a ?_⟩
  simpa [State.addressSpace, hp, hm] using ha

theorem step_keepsHighMemory {s t : State} (h : step s = .next t) : KeepsHighMemory s t := by
  refine step_keeps (R := KeepsHighMemory) .refl .trans (fun h => ?_) (fun {_ s u} h => ?_) h
  · have k := State.raise_entered h
    exact .of_high k.plat (fun hp => (State.raise_pe h).trans hp) k.high
  · have k := effect_system h
    have hpe : s.pe = true → u.pe = true := effect_pe h
    exact .of_high k.plat hpe k.high

/-- Settles O11: exceptions and effects write within the address space, and a step that ends in real address mode
was in it throughout. -/
theorem realModeChangesNothingAboveOneMegabyte : Obligations.RealModeChangesNothingAboveOneMegabyte :=
  fun _ _ hm _ ht h => ((step_keepsHighMemory h).2 ht).2 hm

/-! ### The invariant -/

theorem State.raise_inv {s t : State} {e : Exc} (h : s.raise e = .next t) (hs : s.Inv) : t.Inv := by
  have k := State.raise_entered h
  obtain ⟨h1, h3, h5, h15⟩ := hs.flags
  refine ⟨k.wf hs.memory, fun hp => ?_, fun hu => ?_, ?_⟩
  · exact k.cpl.trans (hs.realLevel ((State.raise_pe h).symm.trans hp))
  · rw [k.unflushed] at hu; cases hu
  · exact ⟨(k.flags 1 (by decide) (by decide) (by decide)).trans h1,
      (k.flags 3 (by decide) (by decide) (by decide)).trans h3,
      (k.flags 5 (by decide) (by decide) (by decide)).trans h5,
      (k.flags 15 (by decide) (by decide) (by decide)).trans h15⟩

/-- LMSW marks `unflushed` only where it sets PE (70_reset_and_hazards.md R223). -/
theorem effect_unflushed {i : Instr} {s t : State} (h : effect i s = .ok t) (hu : t.unflushed = true) :
    s.unflushed = true ∨ t.pe = true := by
  obtain hs | ⟨-, o, rm, rfl⟩ := (effect_control h).unflushed
  · exact .inl (hs ▸ hu)
  · obtain ⟨-, src, -, rfl⟩ := lmswEffect_ok h
    have hmark : s.unflushed = true ∨ (s.pe = false ∧ src.getLsbD 0 = true) := by simpa using hu
    refine hmark.imp_right fun ⟨_, hb⟩ => ?_
    simp [State.pe, loadMsw_getLsbD, hb]

theorem effect_inv {i : Instr} {s t : State} (h : effect i s = .ok t) (hs : s.Inv) : t.Inv := by
  have k := effect_system h
  refine ⟨k.wf hs.memory, fun hp => ?_, fun hu => ?_, ?_⟩
  · refine k.cpl.trans (hs.realLevel (Bool.eq_false_iff.2 fun hps => ?_))
    rw [effect_pe h hps] at hp; cases hp
  · exact (effect_unflushed h hu).elim (fun hus => effect_pe h (hs.unflushedProtected hus)) id
  · obtain hf | ⟨b, hf⟩ := effect_flags h
    · rw [hf]; exact hs.flags
    · rw [hf]; exact flagsReserved_putBit b (by decide) (by decide) hs.flags

/-- Moving IP touches no part of the invariant. -/
theorem State.Inv.advance {s : State} (h : s.Inv) (n : Nat) : (s.advance n).Inv :=
  ⟨h.memory, h.realLevel, h.unflushedProtected, h.flags⟩

/-- Settles O2: memory is empty, CPL 0, the mark clear, and the status word 0002h. -/
theorem resetStateMeetsTheInvariant : Obligations.ResetStateMeetsTheInvariant :=
  fun p => ⟨State.reset_mem_wf p, fun _ => rfl, fun hu => (by cases hu),
    by simp [State.resetOn, flagsReserved]⟩

/-- Settles O3: taking an exception keeps the invariant, and so does every effect. -/
theorem everyStepKeepsTheInvariant : Obligations.EveryStepKeepsTheInvariant :=
  fun _ _ hs h => step_keeps (R := fun s t => s.Inv → t.Inv) (fun _ => id) (fun h k => k ∘ h) State.raise_inv
    (fun h hs => (effect_inv h hs).advance _) h hs

end Sys2Proof.Machine
end

section
/-! PROOF. Decoding and encoding (30_encoding.md R91 to R102): the fields of the ModRM byte and its operand in both
directions, then the opcodes. -/

namespace Sys2Proof

open Sys2Proof.Machine

/-! ### The fields of the ModRM byte -/

@[simp] theorem modField_append (m : BitVec 2) (reg rm : BitVec 3) : modField (m ++ reg ++ rm : BitVec 8) = m := by
  revert m reg rm; decide

@[simp] theorem regField_append (m : BitVec 2) (reg rm : BitVec 3) : regField (m ++ reg ++ rm : BitVec 8) = reg := by
  revert m reg rm; decide

@[simp] theorem rmField_append (m : BitVec 2) (reg rm : BitVec 3) : rmField (m ++ reg ++ rm : BitVec 8) = rm := by
  revert m reg rm; decide

theorem fields_append (b : Byte) : (modField b ++ regField b ++ rmField b : BitVec 8) = b := by
  revert b; decide

theorem regField_toNat (b : Byte) : (regField b).toNat = b.toNat / 8 % 8 := by
  rw [regField, BitVec.extractLsb'_toNat, Nat.shiftRight_eq_div_pow]

@[simp] theorem Reg16.ofBits_bits (r : Reg16) : Reg16.ofBits r.bits = r := by cases r <;> rfl

@[simp] theorem Reg16.bits_ofBits (b : BitVec 3) : (Reg16.ofBits b).bits = b := by revert b; decide

@[simp] theorem AddrRegs.ofBits_bits (r : AddrRegs) : AddrRegs.ofBits r.bits = r := by cases r <;> rfl

@[simp] theorem AddrRegs.bits_ofBits (b : BitVec 3) : (AddrRegs.ofBits b).bits = b := by revert b; decide

/-- Row 110b of the effective-address table is [BP]. -/
theorem AddrRegs.bits_eq_six_iff (r : AddrRegs) : r.bits = 6#3 ↔ r = .bp := by cases r <;> decide

/-! ### The operand -/

/-- [BP] without a displacement is the one sum that has no encoding (R93). -/
theorem RM.wf_based_iff (r : AddrRegs) (d : Disp) :
    (RM.mem (.based r d)).wf = true ↔ r = .bp → d ≠ .none := by
  cases r <;> cases d <;> simp [RM.wf, MemOp.wf]

/-- The high byte of a word above its low byte is the word. -/
theorem extract_append_extract (w : Word) : (w.extractLsb' 8 8 ++ w.extractLsb' 0 8 : BitVec 16) = w := by
  ext i hi
  simp only [BitVec.getElem_append, BitVec.getElem_extractLsb']
  split
  · simp [hi]
  · rw [show 8 + (i - 8) = i by omega, BitVec.getLsbD_eq_getElem hi]

@[simp] theorem extractLow_append (hi lo : Byte) : (hi ++ lo : BitVec 16).extractLsb' 0 8 = lo := by
  simpa using BitVec.extractLsb'_append_eq_right (a := hi) (b := lo)

@[simp] theorem extractHigh_append (hi lo : Byte) : (hi ++ lo : BitVec 16).extractLsb' 8 8 = hi := by
  simpa using BitVec.extractLsb'_append_eq_left (a := hi) (b := lo)

/-- The two bytes of a word written as a high and a low byte. -/
@[simp] theorem wordBytes_append (hi lo : Byte) : wordBytes (hi ++ lo : BitVec 16) = [lo, hi] := by
  rw [wordBytes, extractLow_append, extractHigh_append]

/-- The operand of an encoded ModRM byte and displacement is the operand encoded. -/
theorem decodeRM_encode (reg : BitVec 3) (rm : RM) (rest : List Byte) (h : rm.wf = true) :
    decodeRM (rm.modBits ++ reg ++ rm.rmBits : BitVec 8) (rm.dispBytes ++ rest) = some rm := by
  obtain r | m := rm
  · simp [decodeRM, RM.modBits, RM.rmBits]
  · obtain w | ⟨r, d⟩ := m
    · simp [decodeRM, RM.modBits, RM.rmBits, RM.dispBytes, wordBytes, extract_append_extract]
    · obtain _ | b | w := d
      · have hbp : r.bits ≠ 6#3 := by
          rw [Ne, AddrRegs.bits_eq_six_iff]
          rintro rfl
          cases h
        simp [decodeRM, RM.modBits, RM.rmBits, hbp]
      · simp [decodeRM, RM.modBits, RM.rmBits, RM.dispBytes]
      · simp [decodeRM, RM.modBits, RM.rmBits, RM.dispBytes, wordBytes, extract_append_extract]

/-- A ModRM byte whose operand decodes, and the displacement after it, are the operand's encoding. -/
theorem encode_decodeRM {modrm : Byte} {rest : List Byte} {rm : RM} (h : decodeRM modrm rest = some rm) :
    rm.wf = true ∧ ∃ tail, modrm :: rest = rm.encode (regField modrm) ++ tail := by
  suffices hs : rm.wf = true ∧ modField modrm = rm.modBits ∧ rmField modrm = rm.rmBits ∧
      ∃ tail, rest = rm.dispBytes ++ tail by
    obtain ⟨hwf, hm, hr, tail, ht⟩ := hs
    exact ⟨hwf, tail, by rw [RM.encode, ← hm, ← hr, fields_append, ht, List.cons_append]⟩
  unfold decodeRM at h
  split at h
  · next h0 =>
    split at h
    · next h6 =>
      split at h
      · cases h; exact ⟨rfl, h0, h6, _, by simp [RM.dispBytes]; rfl⟩
      · cases h
    · next h6 =>
      cases h
      refine ⟨(RM.wf_based_iff _ _).2 fun hbp => ?_, h0, by simp [RM.rmBits], rest, rfl⟩
      rw [← AddrRegs.bits_eq_six_iff, AddrRegs.bits_ofBits] at hbp
      exact absurd hbp h6
  · next h0 =>
    split at h
    · next h1 =>
      split at h
      · cases h; exact ⟨(RM.wf_based_iff _ _).2 (by simp), h1, by simp [RM.rmBits], _, rfl⟩
      · cases h
    · next h1 =>
      split at h
      · next h2 =>
        split at h
        · cases h
          exact ⟨(RM.wf_based_iff _ _).2 (by simp), h2, by simp [RM.rmBits], _, by simp [RM.dispBytes]; rfl⟩
        · cases h
      · next h2 =>
        cases h
        have h3 : modField modrm = 3#2 := by
          revert h0 h1 h2; generalize modField modrm = m; revert m; decide
        exact ⟨rfl, h3, by simp [RM.rmBits], rest, rfl⟩

end Sys2Proof
end

section
/-! PROOF. The decoder on each row of the opcode table, with and without an override (30_encoding.md R95 to R102):
from encoding to instruction, from bytes to encoding, and the bytes outside the table. -/

namespace Sys2Proof

open Sys2Proof.Machine

/-! ### The opcodes after an override, if there is one -/

/-- After at most one override the opcode is decoded. -/
theorem decode_overrideBytes (o : Option SegName) {b : Byte} (rest : List Byte) (h : SegName.ofOverride b = none) :
    decode (overrideBytes o ++ b :: rest) = decodeOpcode o (b :: rest) := by
  cases o with
  | none => simp [overrideBytes, decode, h]
  | some g => simp [overrideBytes, decode, ofOverride_overrideByte]

theorem decode_0F (o : Option SegName) (rest : List Byte) :
    decode (overrideBytes o ++ 0x0F#8 :: rest) = decode0F o rest :=
  decode_overrideBytes o rest rfl

theorem decode_group0 (o : Option SegName) (modrm : Byte) (rest : List Byte) :
    decode (overrideBytes o ++ 0x0F#8 :: 0x00#8 :: modrm :: rest) = decodeGroup0 o modrm rest :=
  decode_0F o (0x00#8 :: modrm :: rest)

theorem decode_group1 (o : Option SegName) (modrm : Byte) (rest : List Byte) :
    decode (overrideBytes o ++ 0x0F#8 :: 0x01#8 :: modrm :: rest) = decodeGroup1 o modrm rest :=
  decode_0F o (0x01#8 :: modrm :: rest)

theorem decode_lar (o : Option SegName) (modrm : Byte) (rest : List Byte) :
    decode (overrideBytes o ++ 0x0F#8 :: 0x02#8 :: modrm :: rest) =
      withOperand (.lar o (Reg16.ofBits (regField modrm))) modrm rest :=
  decode_0F o (0x02#8 :: modrm :: rest)

theorem decode_lsl (o : Option SegName) (modrm : Byte) (rest : List Byte) :
    decode (overrideBytes o ++ 0x0F#8 :: 0x03#8 :: modrm :: rest) =
      withOperand (.lsl o (Reg16.ofBits (regField modrm))) modrm rest :=
  decode_0F o (0x03#8 :: modrm :: rest)

theorem decode_wait (o : Option SegName) (rest : List Byte) :
    decode (overrideBytes o ++ 0x9B#8 :: rest) = .instr (.wait o) :=
  decode_overrideBytes o rest rfl

theorem decode_arpl (o : Option SegName) (modrm : Byte) (rest : List Byte) :
    decode (overrideBytes o ++ 0x63#8 :: modrm :: rest) =
      withOperand (.arpl o (Reg16.ofBits (regField modrm))) modrm rest :=
  decode_overrideBytes o (modrm :: rest) rfl

theorem decode_esc (o : Option SegName) (x : BitVec 3) (modrm : Byte) (rest : List Byte) :
    decode (overrideBytes o ++ (0x1B#5 ++ x : BitVec 8) :: modrm :: rest) =
      withOperand (.esc o x (regField modrm)) modrm rest := by
  have ho : SegName.ofOverride (0x1B#5 ++ x : BitVec 8) = none := by revert x; decide
  have h0F : (0x1B#5 ++ x : BitVec 8) ≠ 0x0F#8 := by revert x; decide
  have h9B : (0x1B#5 ++ x : BitVec 8) ≠ 0x9B#8 := by revert x; decide
  have h63 : (0x1B#5 ++ x : BitVec 8) ≠ 0x63#8 := by revert x; decide
  have hx : (0x1B#5 ++ x : BitVec 8).extractLsb' 0 3 = x := by revert x; decide
  rw [decode_overrideBytes o _ ho, decodeOpcode, if_neg h0F, if_neg h9B, if_neg h63,
    if_pos (Laws.esc_opcode x), hx]

/-! ### From an instruction to its encoding and back -/

/-- A ModRM byte with its operand's encoding is handed on as that operand. -/
theorem withOperand_encode (k : RM → Instr) (reg : BitVec 3) {rm : RM} (rest : List Byte) (h : rm.wf = true) :
    withOperand k (rm.modBits ++ reg ++ rm.rmBits : BitVec 8) (rm.dispBytes ++ rest) = .instr (k rm) := by
  simp only [withOperand, decodeRM_encode reg rm rest h]

/-- Settles O12: the override and opcode bytes lead to the row of the table, and the ModRM byte and displacement to
the operand that they encode. -/
theorem decodeOfEncodeGivesTheInstruction : Obligations.DecodeOfEncodeGivesTheInstruction := by
  intro i rest h
  cases i <;>
    simp only [encode, RM.encode, BitVec.ofNat_eq_ofNat, List.append_assoc, List.cons_append, List.nil_append]
  case clts o => exact decode_0F o _
  case wait o => exact decode_wait o rest
  case lar o r rm =>
    rw [decode_lar, regField_append, Reg16.ofBits_bits]
    exact withOperand_encode (.lar o r) r.bits rest h
  case lsl o r rm =>
    rw [decode_lsl, regField_append, Reg16.ofBits_bits]
    exact withOperand_encode (.lsl o r) r.bits rest h
  case arpl o r rm =>
    rw [decode_arpl, regField_append, Reg16.ofBits_bits]
    exact withOperand_encode (.arpl o r) r.bits rest h
  case esc o x y rm =>
    rw [decode_esc, regField_append]
    exact withOperand_encode (.esc o x y) y rest h
  case lldt o rm | sldt o rm | verr o rm | verw o rm =>
    simp [decode_group0, decodeGroup0, withOperand_encode (rm := rm) _ _ rest h]
  case lgdt o rm | sgdt o rm | lidt o rm | sidt o rm | lmsw o rm | smsw o rm =>
    simp [decode_group1, decodeGroup1, withOperand_encode (rm := rm) _ _ rest h]

/-- Bytes that begin with the encoding of a well-formed instruction. -/
def BeginsWith (bs : List Byte) (i : Instr) : Prop := i.wf = true ∧ ∃ rest, bs = encode i ++ rest

/-- A ModRM byte handed to a constructor, after the bytes that the constructor's encoding begins with. -/
theorem withOperand_beginsWith {k : RM → Instr} {pre : List Byte} {modrm : Byte} {rest : List Byte} {i : Instr}
    (h : withOperand k modrm rest = .instr i) (hwf : ∀ rm, rm.wf = true → (k rm).wf = true)
    (henc : ∀ rm, encode (k rm) = pre ++ rm.encode (regField modrm)) : BeginsWith (pre ++ modrm :: rest) i := by
  unfold withOperand at h
  split at h
  · next rm hrm =>
    cases h
    obtain ⟨hrmwf, tail, ht⟩ := encode_decodeRM hrm
    exact ⟨hwf rm hrmwf, tail, by rw [henc, ht, List.append_assoc]⟩
  · cases h

theorem decodeGroup0_beginsWith {o : Option SegName} {modrm : Byte} {rest : List Byte} {i : Instr}
    (h : decodeGroup0 o modrm rest = .instr i) :
    BeginsWith (overrideBytes o ++ [0x0F, 0x00] ++ modrm :: rest) i := by
  have reg : ∀ {n}, (regField modrm).toNat = n → regField modrm = BitVec.ofNat 3 n := fun h => by simp [← h]
  unfold decodeGroup0 at h
  split at h
  · next hn => exact withOperand_beginsWith h (fun _ => id) fun rm => by rw [reg hn]; rfl
  · next hn => exact withOperand_beginsWith h (fun _ => id) fun rm => by rw [reg hn]; rfl
  · next hn => exact withOperand_beginsWith h (fun _ => id) fun rm => by rw [reg hn]; rfl
  · next hn => exact withOperand_beginsWith h (fun _ => id) fun rm => by rw [reg hn]; rfl
  · cases h

theorem decodeGroup1_beginsWith {o : Option SegName} {modrm : Byte} {rest : List Byte} {i : Instr}
    (h : decodeGroup1 o modrm rest = .instr i) :
    BeginsWith (overrideBytes o ++ [0x0F, 0x01] ++ modrm :: rest) i := by
  have reg : ∀ {n}, (regField modrm).toNat = n → regField modrm = BitVec.ofNat 3 n := fun h => by simp [← h]
  unfold decodeGroup1 at h
  split at h
  · next hn => exact withOperand_beginsWith h (fun _ => id) fun rm => by rw [reg hn]; rfl
  · next hn => exact withOperand_beginsWith h (fun _ => id) fun rm => by rw [reg hn]; rfl
  · next hn => exact withOperand_beginsWith h (fun _ => id) fun rm => by rw [reg hn]; rfl
  · next hn => exact withOperand_beginsWith h (fun _ => id) fun rm => by rw [reg hn]; rfl
  · next hn => exact withOperand_beginsWith h (fun _ => id) fun rm => by rw [reg hn]; rfl
  · next hn => exact withOperand_beginsWith h (fun _ => id) fun rm => by rw [reg hn]; rfl
  · cases h

theorem decode0F_beginsWith {o : Option SegName} {bs : List Byte} {i : Instr} (h : decode0F o bs = .instr i) :
    BeginsWith (overrideBytes o ++ 0x0F#8 :: bs) i := by
  obtain _ | ⟨op, rest⟩ := bs
  · cases h
  · rw [decode0F.eq_def] at h
    dsimp only at h
    split at h
    · next hop => subst hop; cases h; exact ⟨rfl, rest, by simp [encode]⟩
    · split at h
      · next hops =>
        obtain _ | ⟨modrm, rest⟩ := rest
        · cases h
        · obtain rfl | rfl | rfl | rfl := hops
          · simpa using decodeGroup0_beginsWith h
          · simpa using decodeGroup1_beginsWith h
          · have hk := withOperand_beginsWith (pre := overrideBytes o ++ [0x0F, 0x02]) h (fun _ => id)
              fun rm => by rw [encode, Reg16.bits_ofBits]
            simpa using hk
          · have hk := withOperand_beginsWith (pre := overrideBytes o ++ [0x0F, 0x03]) h (fun _ => id)
              fun rm => by rw [encode, Reg16.bits_ofBits]
            simpa using hk
      · cases h

/-- The high five bits of ESC's opcode byte are fixed, and the low three are its own. -/
theorem esc_opcode_append {b : Byte} (h : b.extractLsb' 3 5 = 0x1B#5) :
    (0x1B#5 ++ b.extractLsb' 0 3 : BitVec 8) = b := by
  revert b; decide

theorem decodeOpcode_beginsWith {o : Option SegName} {bs : List Byte} {i : Instr}
    (h : decodeOpcode o bs = .instr i) : BeginsWith (overrideBytes o ++ bs) i := by
  obtain _ | ⟨op, rest⟩ := bs
  · cases h
  · rw [decodeOpcode.eq_def] at h
    dsimp only at h
    split at h
    · next hop => subst hop; exact decode0F_beginsWith h
    · split at h
      · next hop => subst hop; cases h; exact ⟨rfl, rest, by simp [encode]⟩
      · split at h
        · next hop =>
          subst hop
          obtain _ | ⟨modrm, rest⟩ := rest
          · cases h
          · have hk := withOperand_beginsWith (pre := overrideBytes o ++ [0x63]) h (fun _ => id)
              fun rm => by rw [encode, Reg16.bits_ofBits]
            simpa using hk
        · split at h
          · next hop =>
            obtain _ | ⟨modrm, rest⟩ := rest
            · cases h
            · have hk := withOperand_beginsWith (pre := overrideBytes o ++ [op]) h (fun _ => id)
                fun rm => by rw [encode, esc_opcode_append hop]
              simpa using hk
          · split at h <;> cases h

/-- An override byte read as a segment register is that register's byte. -/
theorem overrideByte_ofOverride {b : Byte} {g : SegName} (h : SegName.ofOverride b = some g) :
    g.overrideByte = b := by
  unfold SegName.ofOverride at h
  split at h
  · next hb => cases h; exact hb.symm
  · split at h
    · next hb => cases h; exact hb.symm
    · split at h
      · next hb => cases h; exact hb.symm
      · split at h
        · next hb => cases h; exact hb.symm
        · cases h

/-- Settles O13: each arm of the decoder that answers an instruction has read the bytes of its encoding. -/
theorem decodedBytesAreTheEncoding : Obligations.DecodedBytesAreTheEncoding := by
  intro bs i h
  obtain _ | ⟨b, rest⟩ := bs
  · cases h
  · rw [decode] at h
    split at h
    · next g hg =>
      rw [← overrideByte_ofOverride hg]
      exact decodeOpcode_beginsWith h
    · exact decodeOpcode_beginsWith h

/-! ### The length -/

theorem RM.encode_length (reg : BitVec 3) (rm : RM) : (rm.encode reg).length = 1 + rm.dispSize := by
  obtain r | w | ⟨r, _ | b | w⟩ := rm <;> rfl

theorem overrideBytes_length (o : Option SegName) : (overrideBytes o).length = overrideSize o := by
  cases o <;> rfl

theorem RM.dispSize_le (rm : RM) : rm.dispSize ≤ 2 := by
  obtain r | w | ⟨r, _ | b | w⟩ := rm <;> simp [RM.dispSize]

theorem overrideSize_le (o : Option SegName) : overrideSize o ≤ 1 := by
  cases o <;> simp [overrideSize]

theorem encode_length (i : Instr) : (encode i).length = i.length := by
  cases i <;>
    simp only [encode, Instr.length, List.length_append, List.length_cons, List.length_nil, overrideBytes_length,
      RM.encode_length] <;>
    omega

/-- One override byte, two opcode bytes, a ModRM byte and two bytes of displacement are the most (R102). -/
theorem Instr.length_bounds (i : Instr) : 1 ≤ i.length ∧ i.length ≤ 6 := by
  cases i <;> simp only [Instr.length]
  case clts o | wait o =>
    have ho := overrideSize_le o
    omega
  case lgdt o rm | sgdt o rm | lidt o rm | sidt o rm | lldt o rm | sldt o rm | lmsw o rm | smsw o rm | verr o rm |
      verw o rm | lar o _ rm | lsl o _ rm | arpl o _ rm | esc o _ _ rm =>
    have ho := overrideSize_le o
    have hd := rm.dispSize_le
    omega

/-- Settles O14: the encoding is the override, the opcode bytes, and the ModRM byte with its displacement. -/
theorem encodingLengthIsIlen : Obligations.EncodingLengthIsIlen :=
  fun i => ⟨encode_length i, i.length_bounds⟩

/-- Settles O15, by running the decoder on the eight words. -/
theorem wordsOfTheSpecDecode : Obligations.WordsOfTheSpecDecode := by
  unfold Obligations.WordsOfTheSpecDecode
  decide

/-! ### The operand that mod and rm select -/

/-- The register sum of row `rm` (R93). -/
theorem addrRegs_ofBits (s : State) (b : BitVec 3) : s.addrRegs (AddrRegs.ofBits b) = eaRow s b.toNat := by
  have hb : b.toNat < 8 := b.isLt
  unfold AddrRegs.ofBits
  generalize b.toNat = n at hb
  interval_cases n <;> rfl

theorem effAddr_based (s : State) (modrm : Byte) (d : Disp) :
    s.effAddr (.based (AddrRegs.ofBits (rmField modrm)) d) = eaRow s (modrm.toNat % 8) + dispWord d := by
  rw [State.effAddr, addrRegs_ofBits, rmField_toNat]

/-- The `mod` field of a ModRM byte, from its quotient by 64 (R92). -/
theorem modField_eq {b : Byte} {n : Nat} (h : b.toNat / 64 = n) : modField b = BitVec.ofNat 2 n := by
  rw [← h, ← modField_toNat, BitVec.ofNat_toNat, BitVec.setWidth_eq]

theorem rmField_eq_six_iff (b : Byte) : rmField b = 6#3 ↔ b.toNat % 8 = 6 := by
  rw [← BitVec.toNat_inj, rmField_toNat]; rfl

/-- Settles O16: `mod` chooses the form and `rm` the register or the row. -/
theorem modRMSelectsTheTabledOperand : Obligations.ModRMSelectsTheTabledOperand := by
  refine fun s modrm b0 b1 rest => ⟨fun h => ?register, fun h h6 => ?direct, fun h h6 => ?sum, fun h => ?byte,
    fun h => ?word⟩
  case register =>
    refine ⟨Reg16.ofBits (rmField modrm), by simp [decodeRM, modField_eq h], ?_⟩
    rw [Reg16.bits_ofBits, rmField_toNat]
  case direct =>
    exact ⟨_, by simp [decodeRM, modField_eq h, (rmField_eq_six_iff modrm).2 h6]; rfl, rfl⟩
  case sum =>
    refine ⟨_, by simp [decodeRM, modField_eq h, mt (rmField_eq_six_iff modrm).1 h6]; rfl, ?_⟩
    rw [effAddr_based, dispWord, BitVec.add_zero]
  case byte =>
    exact ⟨_, by simp [decodeRM, modField_eq h], effAddr_based s modrm (.d8 b0)⟩
  case word =>
    exact ⟨_, by simp [decodeRM, modField_eq h], effAddr_based s modrm (.d16 (b1 ++ b0))⟩

/-! ### Bytes outside the table -/

/-- Settles O18: the override is looked for in the first place only, and an override, LOCK or repeat byte in the
opcode's place is refused. -/
theorem onlyOneOverrideByteIsAdmitted : Obligations.OnlyOneOverrideByteIsAdmitted := by
  refine ⟨fun b rest hb => ?prefixes, fun o b rest ho hb => ?second, fun g => ⟨?clts, ?wait⟩⟩
  case prefixes => obtain rfl | rfl | rfl := hb <;> rfl
  case second =>
    have hop : ∀ g, decodeOpcode (some g) (b :: rest) = .reject .prefixNotInScope := fun g => by
      obtain rfl | rfl | rfl | rfl | rfl | rfl | rfl := hb <;> rfl
    obtain rfl | rfl | rfl | rfl := ho
    · exact hop .es
    · exact hop .cs
    · exact hop .ss
    · exact hop .ds
  case clts => exact decode_0F (some g) [0x06#8]
  case wait => exact decode_wait (some g) []

theorem ofOverride_eq_none {b : Byte} (h : b ∉ [0x26#8, 0x2E#8, 0x36#8, 0x3E#8]) : SegName.ofOverride b = none := by
  simp only [List.mem_cons, List.not_mem_nil, or_false, not_or] at h
  obtain ⟨hes, hcs, hss, hds⟩ := h
  simp only [SegName.ofOverride, hes, hcs, hss, hds, if_false]

/-- A first byte that begins no row of the table (R100). -/
theorem decode_otherOpcode (o : Option SegName) {b : Byte} (rest : List Byte)
    (hb : b ∉ [0x0F#8, 0x63#8, 0x9B#8, 0x26#8, 0x2E#8, 0x36#8, 0x3E#8, 0xF0#8, 0xF2#8, 0xF3#8])
    (hesc : b.toNat / 8 ≠ 27) : decode (overrideBytes o ++ b :: rest) = .reject .opcodeNotInScope := by
  simp only [List.mem_cons, List.not_mem_nil, or_false, not_or] at hb
  obtain ⟨h0F, h63, h9B, hes, hcs, hss, hds, hlock, hrepne, hrep⟩ := hb
  have ho : SegName.ofOverride b = none := ofOverride_eq_none (by simp [hes, hcs, hss, hds])
  have hx : b.extractLsb' 3 5 ≠ 0x1B#5 := fun hx => hesc (by
    have hlt : b.toNat < 2 ^ 8 := b.isLt
    have hq := congrArg BitVec.toNat hx
    rw [BitVec.extractLsb'_toNat, Nat.shiftRight_eq_div_pow, Nat.mod_eq_of_lt (by omega)] at hq
    exact hq)
  rw [decode_overrideBytes o rest ho, decodeOpcode.eq_def]
  dsimp only
  rw [if_neg h0F, if_neg h9B, if_neg h63, if_neg hx]
  simp [isPrefixByte, ho, hlock, hrepne, hrep]

/-- A second byte after `0F` that is in no row of the table (R100). -/
theorem decode_otherSecondByte (o : Option SegName) {b : Byte} (rest : List Byte)
    (hb : b ∉ [0x00#8, 0x01#8, 0x02#8, 0x03#8, 0x06#8]) :
    decode (overrideBytes o ++ 0x0F#8 :: b :: rest) = .reject .opcodeNotInScope := by
  simp only [List.mem_cons, List.not_mem_nil, or_false, not_or] at hb
  obtain ⟨h0, h1, h2, h3, h6⟩ := hb
  rw [decode_0F, decode0F.eq_def]
  dsimp only
  rw [if_neg h6, if_neg (by simp [h0, h1, h2, h3])]

/-- `0F 00 /1`, `/3`, `/6` and `/7` (R100, C11). -/
theorem decode_otherGroup0 (o : Option SegName) {modrm : Byte} (rest : List Byte)
    (h : modrm.toNat / 8 % 8 ∈ [1, 3, 6, 7]) :
    decode (overrideBytes o ++ 0x0F#8 :: 0x00#8 :: modrm :: rest) = .reject .group0NotInScope := by
  rw [decode_group0, decodeGroup0, regField_toNat]
  generalize modrm.toNat / 8 % 8 = n at h
  simp only [List.mem_cons, List.not_mem_nil, or_false] at h
  obtain rfl | rfl | rfl | rfl := h <;> rfl

/-- `0F 01 /5` and `/7` (R100). -/
theorem decode_otherGroup1 (o : Option SegName) {modrm : Byte} (rest : List Byte)
    (h : modrm.toNat / 8 % 8 ∈ [5, 7]) :
    decode (overrideBytes o ++ 0x0F#8 :: 0x01#8 :: modrm :: rest) = .reject .opcodeNotInScope := by
  rw [decode_group1, decodeGroup1, regField_toNat]
  generalize modrm.toNat / 8 % 8 = n at h
  simp only [List.mem_cons, List.not_mem_nil, or_false] at h
  obtain rfl | rfl := h <;> rfl

end Sys2Proof
end

section
/-! PROOF. Memory and its segments (20_memory.md R62 to R84): the first byte of an access that stops it, the checks
of a segmented access in both modes, and the lookup of a descriptor. -/

namespace Sys2Proof.Machine

/-! ### The bytes of an access up to one of them -/

/-- The addresses of an access, cut at its `k`-th byte. -/
theorem State.span_split (s : State) (a : Nat) {k n : Nat} (hk : k < n) :
    ∃ rest, s.span a n = s.span a k ++ (a + k) % s.addressSpace :: rest := by
  obtain ⟨d, rfl⟩ : ∃ d, n = k + (d + 1) := ⟨n - k - 1, by omega⟩
  refine ⟨((List.range d).map Nat.succ).map fun i => (a + (k + i)) % s.addressSpace, ?_⟩
  simp [State.span, List.range_add, List.range_succ_eq_map, Function.comp_def]

theorem State.mem_span_of_lt (s : State) (a : Nat) {k n : Nat} (hk : k < n) :
    (a + k) % s.addressSpace ∈ s.span a n := State.mem_span.2 ⟨k, hk, rfl⟩

/-! ### Stores -/

/-- A store that is performed has touched no device and no immutable text (R79, R84). -/
theorem State.storableSpan_of_memWrite {s t : State} {a : Nat} {bs : List Byte} (h : s.memWrite a bs = .ok t) :
    s.storableSpan a bs.length := by
  unfold State.memWrite at h
  split at h
  · cases h
  · next hn =>
    have hx := fun x hx => State.storeRefusal_eq_none.1 (List.findSome?_eq_none_iff.1 hn x hx)
    exact ⟨fun x h => (hx x h).1, fun x h => (hx x h).2⟩

/-- A STORE IS REFUSED for its first byte that is a device's or immutable text. -/
theorem State.memWrite_of_storeRefused {s : State} {a : Nat} {bs : List Byte} {r : Refusal}
    (h : s.StoreRefused a bs.length r) : s.memWrite a bs = .error (.refuse r) := by
  obtain ⟨k, hk, ⟨hdev, htext⟩, hr⟩ := h
  obtain ⟨rest, hspan⟩ := s.span_split a hk
  have hbefore : (s.span a k).findSome? s.storeRefusal = none :=
    List.findSome?_eq_none_iff.2 fun x hx => State.storeRefusal_eq_none.2 ⟨hdev x hx, htext x hx⟩
  have hat : s.storeRefusal ((a + k) % s.addressSpace) = some r := by
    unfold State.storeRefusal
    obtain ⟨hd, rfl⟩ | ⟨hd, ht, rfl⟩ := hr
    · rw [if_pos hd]
    · rw [hd, if_neg Bool.false_ne_true, if_pos ht]
  simp only [State.memWrite, hspan, List.findSome?_append, hbefore, List.findSome?_cons, hat, Option.none_or]

/-- Bytes that were stored are the bytes read back (R75, R80). -/
theorem State.memRead_of_memWrite {s t : State} {a : Nat} {bs : List Byte} (h : s.memWrite a bs = .ok t)
    (hl : bs.length ≤ 2 ^ 20) : t.memRead a bs.length = .ok bs := by
  have hsame := (State.memWrite_ok h).1
  rw [State.memRead_ok_iff, State.span_congr hsame.msw hsame.plat]
  refine ⟨fun x hx => ?_, (State.memWrite_storedAt h hl).1⟩
  rw [State.isDevice_congr hsame.plat]
  exact (State.storableSpan_of_memWrite h).1 x hx

/-- Settles O23: what a store may do is decided for its bytes in order, and what it did is `memWrite_ok`. -/
theorem storedBytesReadBack : Obligations.StoredBytesReadBack := by
  refine ⟨fun s t a bs hl h => ⟨State.memWrite_storedAt h hl, State.memRead_of_memWrite h hl⟩,
    fun s a bs => ⟨State.memWrite_of_storableSpan, ?refused⟩,
    fun w => ⟨leBytes_word w, by rw [← leBytes_word, leWord_leBytes]⟩⟩
  case refused =>
    rintro k x hk rfl hs
    exact ⟨fun hd => State.memWrite_of_storeRefused ⟨k, hk, hs, .inl ⟨hd, rfl⟩⟩,
      fun hd ht => State.memWrite_of_storeRefused ⟨k, hk, hs, .inr ⟨hd, ht, rfl⟩⟩⟩

/-! ### Reads -/

theorem State.readByte_device {s : State} {x : Nat} (h : s.isDevice x = true) :
    s.readByte x = .error (.refuse (.deviceRegion x)) := by
  rw [State.readByte, if_pos h]

theorem State.readByte_unwritten {s : State} {x : Nat} (hd : s.isDevice x = false) (h : s.mem.read x = none) :
    s.readByte x = .error (.fault (.readOfUndefinedState x)) := by
  rw [State.readByte, hd, if_neg Bool.false_ne_true, h]

theorem State.readByte_written {s : State} {x : Nat} {b : Byte} (hd : s.isDevice x = false)
    (h : s.mem.read x = some b) : s.readByte x = .ok b := by
  rw [State.readByte, hd, if_neg Bool.false_ne_true, h]

/-- Bytes that can be read are read (R75). -/
theorem State.memRead_of_readableSpan {s : State} {a n : Nat} (h : s.readableSpan a n) :
    ∃ bs, s.memRead a n = .ok bs ∧ (s.span a n).map s.mem.read = bs.map some := by
  obtain ⟨hdev, hsome⟩ := h
  have hbytes : (s.span a n).map s.mem.read =
      ((s.span a n).map fun x => (s.mem.read x).getD 0).map some := by
    rw [List.map_map]
    refine List.map_congr_left fun x hx => ?_
    obtain ⟨b, hb⟩ := Option.isSome_iff_exists.1 (hsome x hx)
    simp [hb]
  exact ⟨_, State.memRead_ok_iff.2 ⟨hdev, hbytes⟩, hbytes⟩

theorem State.readAll_append_error {s : State} {as rest : List Nat} {x : Nat} {bs : List Byte} {e : Stop}
    (has : s.readAll as = .ok bs) (hx : s.readByte x = .error e) : s.readAll (as ++ x :: rest) = .error e := by
  induction as generalizing bs with
  | nil => simp only [List.nil_append, State.readAll, hx]
  | cons a as ih =>
    simp only [State.readAll] at has
    split at has
    · cases has
    · next b hb =>
      split at has
      · cases has
      · next bs' hbs => simp only [List.cons_append, State.readAll, hb, ih hbs]

/-- A READ STOPS at its first byte that cannot be read (R75, R79). -/
theorem State.memRead_error {s : State} {a k n : Nat} {e : Stop} (hk : k < n) (h : s.readableSpan a k)
    (he : s.readByte ((a + k) % s.addressSpace) = .error e) : s.memRead a n = .error e := by
  obtain ⟨bs, hbs, -⟩ := State.memRead_of_readableSpan h
  obtain ⟨rest, hspan⟩ := s.span_split a hk
  rw [State.memRead, hspan]
  exact State.readAll_append_error hbs he

theorem State.segRead_of_segAccess {s : State} {g : SegName} {off : Word} {n a : Nat}
    (h : s.segAccess g off n .read = .ok a) : s.segRead g off n = s.memRead a n := by
  simp only [State.segRead, h]

/-! ### Segmented accesses -/

/-- Bytes past offset 0FFFFh, in either mode (R76). -/
theorem State.segAccess_overrun {s : State} {g : SegName} {off : Word} {n : Nat} (k : Access)
    (h : 0xFFFF < off.toNat + n - 1) :
    s.segAccess g off n k = .error (.exc (if s.pe then operandExc g else .overrun)) := by
  rw [State.segAccess, if_pos h]

/-- In real address mode the offset is the only check (R62, R76). -/
theorem State.segAccess_real {s : State} {g : SegName} {off : Word} {n : Nat} (k : Access) (hp : s.pe = false)
    (h : off.toNat + n - 1 ≤ 0xFFFF) : s.segAccess g off n k = .ok (s.realAddress g off) := by
  rw [State.segAccess, if_neg (Nat.not_lt.2 h), hp, if_neg Bool.false_ne_true]

/-- Settles O24: the offset is checked, and the address is that of the model. -/
theorem realModeAccessChecksOnlyTheOffset : Obligations.RealModeAccessChecksOnlyTheOffset := by
  refine fun s g off n k _ hp => ⟨fun h => ?_, fun h hm => ?_, fun h hm => ?_⟩
  · rw [State.segAccess_overrun k h, hp, if_neg Bool.false_ne_true]
  · rw [State.segAccess_real k hp h, State.realAddress, hm]
  · rw [State.segAccess_real k hp h, State.realAddress, hm]

/-- Settles O26: with the offset in range the access is a read of memory at the address of the model. -/
theorem realModeOperandReadsItsBytes : Obligations.RealModeOperandReadsItsBytes := by
  intro s g off n _ hp hoff h
  rw [State.segRead_of_segAccess (State.segAccess_real .read hp hoff)]
  exact State.memRead_of_readableSpan h

/-- The segment's type admits a kind of access (R68, R76). -/
abbrev SegReg.Admits (g : SegReg) (k : Access) : Prop :=
  (k = .write → g.access.getLsbD 4 = true ∧ g.access.getLsbD 3 = false ∧ g.access.getLsbD 1 = true) ∧
  (k = .read → g.access.getLsbD 3 = false ∨ g.access.getLsbD 1 = true) ∧
  (k = .fetch → g.access.getLsbD 3 = true)

/-- `n` bytes at an offset lie within the segment: above the limit of one that expands down, else up to the limit
(R76). -/
abbrev SegReg.Reaches (g : SegReg) (off : Word) (n : Nat) : Prop :=
  if g.access.getLsbD 3 = false ∧ g.access.getLsbD 2 = true then g.limit.toNat < off.toNat
  else off.toNat + n - 1 ≤ g.limit.toNat

/-- The exception of a segment whose type does not allow the access: only a write names the stack (R76). -/
def typeExc (g : SegName) : Access → Exc
  | .write => operandExc g
  | _ => .gp 0#16

theorem arWritable_iff (a : Byte) :
    arWritable a = true ↔ a.getLsbD 4 = true ∧ a.getLsbD 3 = false ∧ a.getLsbD 1 = true := by
  simp only [arWritable, arSegment, arCode, arBit1, Bool.and_eq_true, Bool.not_eq_true', and_assoc]

/-- THE CHECKS OF A PROTECTED-MODE ACCESS after that of the range, in their order (R65, R76). -/
theorem State.segAccess_protected {s : State} {g : SegName} {off : Word} {n : Nat} {k : Access} (hp : s.pe = true)
    (h : off.toNat + n - 1 ≤ 0xFFFF) :
    s.segAccess g off n k =
      if (s.seg g).valid = false then .error (.exc (.gp 0#16))
      else if ¬ (s.seg g).Admits k then .error (.exc (typeExc g k))
      else if ¬ (s.seg g).Reaches off n then .error (.exc (operandExc g))
      else .ok (((s.seg g).base.toNat + off.toNat) % 2 ^ 24) := by
  have hlimit : ∀ a : Nat,
      (if !arCode (s.seg g).access && arBit2 (s.seg g).access then
        if (s.seg g).limit.toNat < off.toNat then .ok a else .error (.exc (operandExc g))
      else if off.toNat + n - 1 ≤ (s.seg g).limit.toNat then .ok a else .error (.exc (operandExc g))) =
      if ¬ (s.seg g).Reaches off n then Except.error (Stop.exc (operandExc g)) else .ok a := fun a => by
    by_cases hd : (s.seg g).access.getLsbD 3 = false ∧ (s.seg g).access.getLsbD 2 = true
    · simp only [arCode, arBit2, hd.1, hd.2, SegReg.Reaches, ite_not]; rfl
    · have hb : ¬ (!arCode (s.seg g).access && arBit2 (s.seg g).access) = true := by simpa [arCode, arBit2] using hd
      simp only [SegReg.Reaches, if_neg hd, if_neg hb, ite_not]
  rw [State.segAccess, if_neg (Nat.not_lt.2 h), hp, if_pos rfl, hlimit]
  cases hv : (s.seg g).valid
  · rfl
  · cases k
    case read => simp [SegReg.Admits, typeExc, arCode, arBit1]
    case write => simp only [Bool.not_eq_true', ← Bool.not_eq_true, arWritable_iff]; simp [SegReg.Admits, typeExc]
    case fetch => simp [SegReg.Admits, typeExc, arCode]

end Sys2Proof.Machine
end

section
/-! PROOF. The protected-mode access, the lookup of a descriptor, the instruction queues and the byte halves, each
from what its operation answers. -/

namespace Sys2Proof.Machine

/-! ### The protected-mode access (20_memory.md R65, R76) -/

theorem operandExc_eq (g : SegName) : operandExc g = if g = .ss then .ss 0#16 else .gp 0#16 := by
  cases g <;> rfl

/-- Only the stack's exception is another than GP(0). -/
theorem operandExc_cases (g : SegName) :
    operandExc g = .gp 0#16 ∨ g = .ss ∧ operandExc g = .ss 0#16 := by
  cases g <;> simp [operandExc]

theorem typeExc_cases (g : SegName) (k : Access) : typeExc g k = .gp 0#16 ∨ typeExc g k = operandExc g := by
  cases k <;> simp [typeExc]

/-- A protected-mode access answers an address exactly where its four checks pass. -/
theorem State.segAccess_protected_ok_iff {s : State} {g : SegName} {off : Word} {n a : Nat} {k : Access}
    (hp : s.pe = true) :
    s.segAccess g off n k = .ok a ↔
      a = ((s.seg g).base.toNat + off.toNat) % 2 ^ 24 ∧ off.toNat + n - 1 ≤ 0xFFFF ∧ (s.seg g).valid = true ∧
        (s.seg g).Admits k ∧ (s.seg g).Reaches off n := by
  by_cases hr : off.toNat + n - 1 ≤ 0xFFFF
  · rw [State.segAccess_protected hp hr]
    split
    · next hv => simp [hv]
    · next hv =>
      split
      · next ha => exact ⟨fun h => (by cases h), fun ⟨_, _, _, h, _⟩ => absurd h ha⟩
      · next ha =>
        split
        · next hl => exact ⟨fun h => (by cases h), fun ⟨_, _, _, _, h⟩ => absurd h hl⟩
        · next hl =>
          rw [Except.ok.injEq, eq_comm]
          exact ⟨fun h => ⟨h, hr, by simpa using hv, not_not.1 ha, not_not.1 hl⟩, And.left⟩
  · rw [State.segAccess_overrun k (Nat.lt_of_not_le hr)]
    simp only [hr, false_and, and_false, reduceCtorEq]

/-- What a protected-mode access that fails raises. -/
theorem State.segAccess_protected_error {s : State} {g : SegName} {off : Word} {n : Nat} {k : Access} {e : Stop}
    (hp : s.pe = true) (h : s.segAccess g off n k = .error e) :
    e = .exc (.gp 0#16) ∨ (g = .ss ∧ e = .exc (.ss 0#16)) := by
  have operand : Stop.exc (operandExc g) = .exc (.gp 0#16) ∨ (g = .ss ∧ Stop.exc (operandExc g) = .exc (.ss 0#16)) :=
    (operandExc_cases g).imp (congrArg Stop.exc) (And.imp_right (congrArg Stop.exc))
  by_cases hr : off.toNat + n - 1 ≤ 0xFFFF
  · rw [State.segAccess_protected hp hr] at h
    split at h
    · cases h; exact .inl rfl
    · split at h
      · cases h
        obtain ht | ht := typeExc_cases g k
        · rw [ht]; exact .inl rfl
        · rw [ht]; exact operand
      · split at h
        · cases h; exact operand
        · cases h
  · rw [State.segAccess_overrun k (Nat.lt_of_not_le hr), hp, if_pos rfl] at h
    cases h
    exact operand

/-- Settles O25: the checks are made in the order of `segAccess_protected`, and the first that fails answers. -/
theorem protectedAccessSucceedsExactlyWhenChecksPass : Obligations.ProtectedAccessSucceedsExactlyWhenChecksPass := by
  intro s g off n k _ hp
  refine ⟨fun a => ?_, fun e h => State.segAccess_protected_error hp h, fun hr => ?_, fun hr => ⟨fun hv => ?_, fun hv =>
    ⟨fun hk hw => ?_, fun hk hcode hread => ?_, fun hk hcode => ?_, fun hw hrd hf hl => ?_⟩⟩⟩
  · rw [State.segAccess_protected_ok_iff hp]
    simp only [SegReg.Admits, SegReg.Reaches, and_assoc]
  · rw [State.segAccess_overrun k hr, hp, if_pos rfl, operandExc_eq]
  · rw [State.segAccess_protected hp hr, if_pos hv]
  · subst hk
    rw [State.segAccess_protected hp hr, if_neg (by simp [hv]), if_pos fun ha => hw (ha.1 rfl), typeExc, operandExc_eq]
  · subst hk
    rw [State.segAccess_protected hp hr, if_neg (by simp [hv]), if_pos fun ha => ?_]
    · rfl
    · obtain hdata | hreadable := ha.2.1 rfl
      · rw [hcode] at hdata; cases hdata
      · rw [hread] at hreadable; cases hreadable
  · subst hk
    rw [State.segAccess_protected hp hr, if_neg (by simp [hv]), if_pos fun ha => ?_]
    · rfl
    · rw [ha.2.2 rfl] at hcode; cases hcode
  · rw [State.segAccess_protected hp hr, if_neg (by simp [hv]), if_neg (not_not.2 ⟨hw, hrd, hf⟩), if_pos hl,
      operandExc_eq]

/-! ### Descriptor lookup (20_memory.md R66, R67, R70) -/

theorem State.fetchDesc_null {s : State} {sel : Word} (h : sel.toNat ≤ 3) : s.fetchDesc sel = .ok .null := by
  rw [State.fetchDesc, if_pos ((selIsNull_iff sel).2 h)]

theorem selIsNull_eq_false {sel : Word} (h : 3 < sel.toNat) : selIsNull sel = false :=
  Bool.eq_false_iff.2 fun hn => absurd ((selIsNull_iff sel).1 hn) (by omega)

/-- A selector of the local table is not null: its bit 2 is set. -/
theorem three_lt_of_selTI {sel : Word} (h : selTI sel = true) : 3 < sel.toNat := by
  have hti := selTI_toNat sel
  rw [h, Bool.toNat_true] at hti
  omega

theorem State.fetchDesc_of_descAddr_none {s : State} {sel : Word} (h : 3 < sel.toNat) (ha : s.descAddr sel = none) :
    s.fetchDesc sel = .ok .outOfTable := by
  rw [State.fetchDesc, selIsNull_eq_false h, if_neg Bool.false_ne_true, ha]

theorem State.descAddr_of_tableOf {s : State} {sel : Word} {t : TableReg} (h : s.tableOf sel = some t) :
    s.descAddr sel =
      if t.limit.toNat < 8 * (sel.toNat / 8) + 7 then none
      else some ((t.base.toNat + 8 * (sel.toNat / 8)) % 2 ^ 24) := by
  rw [State.descAddr, h, ← selIndex_toNat]

theorem State.tableOf_global {s : State} {sel : Word} (h : selTI sel = false) : s.tableOf sel = some s.gdtr := by
  rw [State.tableOf, h, if_neg Bool.false_ne_true]

theorem State.tableOf_local {s : State} {sel : Word} (h : selTI sel = true) (hv : s.ldtr.valid = true) :
    s.tableOf sel = some { base := s.ldtr.base, limit := s.ldtr.limit } := by
  rw [State.tableOf, if_pos h, if_pos hv]

theorem State.tableOf_none {s : State} {sel : Word} (h : selTI sel = true) (hv : s.ldtr.valid = false) :
    s.tableOf sel = none := by
  rw [State.tableOf, if_pos h, hv, if_neg Bool.false_ne_true]

/-- The fields of a descriptor: limit, base and access byte (R67). -/
theorem Descriptor.ofBytes_six (b0 b1 b2 b3 b4 b5 : Byte) :
    Descriptor.ofBytes [b0, b1, b2, b3, b4, b5] = { limit := b1 ++ b0, base := b4 ++ b3 ++ b2, access := b5 } := by
  rw [← tableOfImage_limit b0 b1 [b2, b3, b4, b5], ← tableOfImage_base b0 b1 b2 b3 b4 [b5]]
  simp [Descriptor.ofBytes, tableOfImage, leNat]

theorem State.fetchDesc_of_descAddr {s : State} {sel : Word} {a : Nat} {bs : List Byte} (h : 3 < sel.toNat)
    (ha : s.descAddr sel = some a) (hr : s.memRead a 6 = .ok bs) :
    s.fetchDesc sel = .ok (.desc (Descriptor.ofBytes bs)) := by
  rw [State.fetchDesc, selIsNull_eq_false h, if_neg Bool.false_ne_true, ha]
  simp only [hr]

/-- Settles O28: the selector names a table, the table bounds its index, and the descriptor is read there. -/
theorem descriptorLookupFollowsTheTables : Obligations.DescriptorLookupFollowsTheTables := by
  refine fun s sel => ⟨State.fetchDesc_null, fun hti hv => ?_, fun h hti hl => ?_, fun hti hv hl => ?_,
    fun a b0 b1 b2 b3 b4 b5 h hwhere hplain hbytes => ?_⟩
  · exact State.fetchDesc_of_descAddr_none (three_lt_of_selTI hti)
      (by simp only [State.descAddr, State.tableOf_none hti hv])
  · exact State.fetchDesc_of_descAddr_none h
      (by rw [State.descAddr_of_tableOf (State.tableOf_global hti), if_pos hl])
  · exact State.fetchDesc_of_descAddr_none (three_lt_of_selTI hti)
      (by rw [State.descAddr_of_tableOf (State.tableOf_local hti hv), if_pos hl])
  · have ha : s.descAddr sel = some a := by
      obtain ⟨hti, hl, rfl⟩ | ⟨hti, hv, hl, rfl⟩ := hwhere
      · rw [State.descAddr_of_tableOf (State.tableOf_global hti), if_neg (Nat.not_lt.2 hl)]
      · rw [State.descAddr_of_tableOf (State.tableOf_local hti hv), if_neg (Nat.not_lt.2 hl)]
    rw [State.fetchDesc_of_descAddr h ha (State.memRead_ok_iff.2 ⟨hplain, hbytes⟩), Descriptor.ofBytes_six]

/-! ### The instruction queues (20_memory.md R80, R84; log 10) -/

theorem State.mem_staleValues {s : State} {a : Nat} {v : Option Byte} (h : v ∈ s.staleValues a) :
    (a, v) ∈ s.queued := by
  obtain ⟨c, hc, rfl⟩ := List.mem_map.1 h
  obtain ⟨hq, ha⟩ := List.mem_filter.1 hc
  rw [← beq_iff_eq.1 ha]
  exact hq

/-- A byte that no recent store changed is read from memory. -/
theorem State.codeByte_of_not_queued {s : State} {a : Nat} (h : ∀ c ∈ s.queued, c.1 ≠ a) :
    s.codeByte a = s.readByte a := by
  have hnone : s.staleValues a = [] := List.eq_nil_iff_forall_not_mem.2 fun v hv => h _ (State.mem_staleValues hv) rfl
  rw [State.codeByte, hnone]

theorem State.readByte_ok {s : State} {a : Nat} {b : Byte} (h : s.readByte a = .ok b) : s.mem.read a = some b := by
  unfold State.readByte at h
  split at h
  · cases h
  · split at h
    · next hb => cases h; exact hb
    · cases h

theorem State.codeByte_ok {s : State} {a : Nat} {b : Byte} (h : s.codeByte a = .ok b) :
    s.mem.read a = some b ∨ (a, some b) ∈ s.queued := by
  unfold State.codeByte at h
  split at h
  · exact .inl (State.readByte_ok h)
  · next v vs hvs =>
    split at h
    · next b' hb =>
      cases h
      exact .inr (State.mem_staleValues (hvs ▸ List.mem_of_getElem? hb))
    · cases h
    · exact .inl (State.readByte_ok h)

/-- Settles O21: the byte is memory's, or one of those the queues hold for its address. -/
theorem fetchedByteIsCurrentOrQueued : Obligations.FetchedByteIsCurrentOrQueued :=
  fun _ _ => ⟨fun _ => State.codeByte_ok, State.codeByte_of_not_queued⟩

/-! ### The byte halves (10_state.md R21) -/

/-- A byte half is its register and which half it is. -/
theorem reg8_eq_iff (q r : Reg8) : q = r ↔ byteWhole q = byteWhole r ∧ byteIsHigh q = byteIsHigh r := by
  cases q <;> cases r <;> decide

theorem Gpr.getByte_setByte (g : Gpr) (r q : Reg8) (b : Byte) :
    (g.setByte r b).getByte q = if q = r then b else g.getByte q := by
  by_cases hw : byteWhole q = byteWhole r
  · cases hr : byteIsHigh r <;> cases hq : byteIsHigh q <;>
      simp [reg8_eq_iff, Gpr.setByte, Gpr.getByte, hw, hr, hq]
  · have hne : q ≠ r := fun h => hw (congrArg byteWhole h)
    simp [Gpr.setByte, Gpr.getByte, Gpr.get_set, hw, hne]

/-- Writing a byte half leaves the registers that have none. -/
theorem Gpr.setByte_other (g : Gpr) (r : Reg8) (b : Byte) :
    (g.setByte r b).sp = g.sp ∧ (g.setByte r b).bp = g.bp ∧ (g.setByte r b).si = g.si ∧ (g.setByte r b).di = g.di := by
  cases r <;> exact ⟨rfl, rfl, rfl, rfl⟩

/-- Settles O29: a half is eight bits of its whole, and a half is written beside the other. -/
theorem byteHalvesAliasTheRegisters : Obligations.ByteHalvesAliasTheRegisters :=
  ⟨fun g => ⟨(extract_append_extract g.ax).symm, (extract_append_extract g.cx).symm, (extract_append_extract g.dx).symm,
    (extract_append_extract g.bx).symm⟩, Gpr.getByte_setByte, Gpr.setByte_other⟩

end Sys2Proof.Machine
end

section
/-! PROOF. Fetch and step (20_memory.md R77, 60_exceptions.md R188): the bytes at CS:IP reach the decoder, and the step
does what stands there. -/

namespace Sys2Proof.Machine

/-! ### The step on what was fetched -/

theorem step_of_instr {s : State} {i : Instr} (h : s.fetched = .instr i) : step s = s.singleStep (exec i s) := by
  rw [step, h]

theorem step_of_stopped {s : State} {e : Stop} (h : s.fetched = .stopped e) : step s = s.stop e := by
  rw [step, h]

theorem step_of_rejected {s : State} {r : Reject} (h : s.fetched = .rejected r) : step s = s.rejectBytes r := by
  rw [step, h]

theorem State.singleStep_of_not_trapped {s t : State} (h : t.tf = false ∨ t.tick = s.tick) :
    s.singleStep (.next t) = .next t := by
  obtain h | h := h <;> simp [State.singleStep, h]

theorem State.singleStep_of_trapped {s t : State} (htf : t.tf = true) (htick : t.tick ≠ s.tick) :
    s.singleStep (.next t) = t.raise .singleStep := by
  simp [State.singleStep, htf, htick]

/-- Settles O19: only after a completed instruction with TF set does the step add to what `exec` answers. -/
theorem stepRunsTheFetchedInstruction : Obligations.StepRunsTheFetchedInstruction := by
  intro s i hf
  rw [step_of_instr hf]
  refine ⟨fun t ht hn => ?_, fun t ht htf htick => ?_, fun f hfault => ?_, fun r hr => ?_⟩
  · rw [ht, State.singleStep_of_not_trapped hn]
  · rw [ht, State.singleStep_of_trapped htf htick]
  · rw [hfault]; rfl
  · rw [hr]; rfl

/-! ### The bytes at CS:IP -/

theorem State.codeByte_of_empty {s : State} (hq : s.queued = []) (a : Nat) : s.codeByte a = s.readByte a :=
  State.codeByte_of_not_queued fun c hc => by rw [hq] at hc; cases hc

theorem State.fetchByte_overrun {s : State} {k : Nat} (h : 0xFFFF < s.ip.toNat + k) :
    s.fetchByte k = .error (.exc (if s.pe then .gp 0#16 else .overrun)) := by
  rw [State.fetchByte, if_pos h]; rfl

theorem State.fetchByte_of_segAccess {s : State} {k a : Nat} (h : s.ip.toNat + k ≤ 0xFFFF) (hq : s.queued = [])
    (ha : s.segAccess .cs (s.ip + BitVec.ofNat 16 k) 1 .fetch = .ok a) : s.fetchByte k = s.readByte a := by
  rw [State.fetchByte, if_neg (Nat.not_lt.2 h), ha, ← State.codeByte_of_empty hq]

theorem State.fetchByte_of_segAccess_error {s : State} {k : Nat} {e : Stop} (h : s.ip.toNat + k ≤ 0xFFFF)
    (ha : s.segAccess .cs (s.ip + BitVec.ofNat 16 k) 1 .fetch = .error e) : s.fetchByte k = .error e := by
  rw [State.fetchByte, if_neg (Nat.not_lt.2 h), ha]

/-- A fetch is refused by the code segment in protected mode only, with GP(0) (R76). -/
theorem State.segAccess_fetch_error {s : State} {off : Word} {e : Stop}
    (h : s.segAccess .cs off 1 .fetch = .error e) : s.pe = true ∧ e = .exc (.gp 0#16) := by
  cases hp : s.pe with
  | false =>
    have hoff : off.toNat < 2 ^ 16 := off.isLt
    rw [State.segAccess_real .fetch hp (by omega)] at h
    cases h
  | true =>
    obtain he | ⟨hg, -⟩ := State.segAccess_protected_error hp h
    · exact ⟨rfl, he⟩
    · cases hg

/-- Code that stands at CS:IP is what is fetched there, byte by byte. -/
theorem State.CodeAt.fetchByte {s : State} {bs : List Byte} (hq : s.queued = []) (h : s.CodeAt bs) {k : Nat} {b : Byte}
    (hb : bs[k]? = some b) : s.fetchByte k = .ok b := by
  obtain ⟨hip, a, ha, hd, hr⟩ := h k b hb
  rw [State.fetchByte_of_segAccess hip hq ha, State.readByte_written hd hr]

/-- Bytes that can be fetched are fetched before those that follow them. -/
theorem State.fetchFrom_append {s : State} {bs : List Byte} {i : Nat} (n : Nat)
    (h : ∀ k b, bs[k]? = some b → s.fetchByte (i + k) = .ok b) :
    s.fetchFrom i (bs.length + n) =
      (bs ++ (s.fetchFrom (i + bs.length) n).1, (s.fetchFrom (i + bs.length) n).2) := by
  induction bs generalizing i with
  | nil => simp
  | cons b bs ih =>
    have hb : s.fetchByte i = .ok b := h 0 b rfl
    have ht := ih (i := i + 1) fun k c hc => by
      rw [Nat.add_right_comm]
      exact h (k + 1) c hc
    rw [List.length_cons, Nat.add_right_comm, State.fetchFrom, hb]
    simp only [ht, List.cons_append, Nat.add_assoc, Nat.add_comm 1]

theorem State.CodeAt.fetchFrom {s : State} {bs : List Byte} (hq : s.queued = []) (h : s.CodeAt bs)
    (hl : bs.length ≤ maxInstrLength) :
    s.fetchFrom 0 maxInstrLength =
      (bs ++ (s.fetchFrom bs.length (maxInstrLength - bs.length)).1,
        (s.fetchFrom bs.length (maxInstrLength - bs.length)).2) := by
  have hf := s.fetchFrom_append (bs := bs) (i := 0) (maxInstrLength - bs.length)
    fun k b hb => by rw [Nat.zero_add]; exact State.CodeAt.fetchByte hq h hb
  rwa [Nat.zero_add, Nat.add_sub_cancel' hl] at hf

/-! ### What the bytes at CS:IP make of the step -/

theorem State.fetched_of_codeAt {s : State} {i : Instr} (hwf : i.wf = true) (hq : s.queued = [])
    (h : s.CodeAt (encode i)) : s.fetched = .instr i := by
  have hl : (encode i).length ≤ maxInstrLength := (encode_length i).trans_le i.length_bounds.2
  rw [State.fetched, State.CodeAt.fetchFrom hq h hl]
  simp only [decodeOfEncodeGivesTheInstruction i _ hwf]

/-- Bytes that are no whole instruction, with one after them that cannot be fetched, stop the step for that byte. -/
theorem step_of_needMore {s : State} {bs : List Byte} {e : Stop} (hq : s.queued = []) (hl : bs.length < 6)
    (h : s.CodeAt bs) (hd : decode bs = .needMore) (he : s.fetchByte bs.length = .error e) : step s = s.stop e := by
  obtain ⟨n, hn⟩ : ∃ n, maxInstrLength - bs.length = n + 1 := ⟨5 - bs.length, by simp only [maxInstrLength]; omega⟩
  have hnext : s.fetchFrom bs.length (n + 1) = ([], some e) := by rw [State.fetchFrom, he]
  refine step_of_stopped ?_
  rw [State.fetched, State.CodeAt.fetchFrom hq h hl.le, hn, hnext]
  simp only [List.append_nil, hd]

/-- Settles O20: what `CodeAt` says of a byte is what fetching it needs, and the first byte that cannot be fetched
gives its reason. -/
theorem theInstructionAtIpIsFetched : Obligations.TheInstructionAtIpIsFetched := by
  refine ⟨fun s i => State.fetched_of_codeAt, fun s bs hq hl h hd =>
    ⟨fun hip => ?_, fun hip => ⟨fun st hst => ?_, fun a ha => ⟨fun hdev => ?_, fun hdev hr => ?_⟩⟩⟩⟩
  · exact step_of_needMore hq hl h hd (State.fetchByte_overrun hip)
  · obtain ⟨hp, rfl⟩ := State.segAccess_fetch_error hst
    exact ⟨hp, step_of_needMore hq hl h hd (State.fetchByte_of_segAccess_error hip hst)⟩
  · exact step_of_needMore hq hl h hd ((State.fetchByte_of_segAccess hip hq ha).trans (State.readByte_device hdev))
  · exact step_of_needMore hq hl h hd
      ((State.fetchByte_of_segAccess hip hq ha).trans (State.readByte_unwritten hdev hr))

/-! ### Bytes that are rejected -/

theorem withOperand_ne_reject (k : RM → Instr) (modrm : Byte) (rest : List Byte) (r : Reject) :
    withOperand k modrm rest ≠ .reject r := by
  unfold withOperand
  split <;> exact Decoded.noConfusion

/-- The groups reject by `reg` alone. -/
theorem decodeGroup0_reject {o : Option SegName} {modrm : Byte} {rest : List Byte} {r : Reject}
    (h : decodeGroup0 o modrm rest = .reject r) (rest' : List Byte) : decodeGroup0 o modrm rest' = .reject r := by
  unfold decodeGroup0 at h ⊢
  split at h
  case h_5 => exact h
  all_goals exact absurd h (withOperand_ne_reject _ _ _ _)

theorem decodeGroup1_reject {o : Option SegName} {modrm : Byte} {rest : List Byte} {r : Reject}
    (h : decodeGroup1 o modrm rest = .reject r) (rest' : List Byte) : decodeGroup1 o modrm rest' = .reject r := by
  unfold decodeGroup1 at h ⊢
  split at h
  case h_7 => exact h
  all_goals exact absurd h (withOperand_ne_reject _ _ _ _)

theorem decode0F_reject {o : Option SegName} {bs : List Byte} {r : Reject} (h : decode0F o bs = .reject r)
    (tail : List Byte) : decode0F o (bs ++ tail) = .reject r := by
  obtain _ | ⟨op, rest⟩ := bs
  · cases h
  · rw [List.cons_append, decode0F.eq_def]
    rw [decode0F.eq_def] at h
    dsimp only at h ⊢
    split at h
    · cases h
    · next hclts =>
      rw [if_neg hclts]
      split at h
      · next hops =>
        rw [if_pos hops]
        obtain _ | ⟨modrm, rest⟩ := rest
        · cases h
        · rw [List.cons_append]
          obtain rfl | rfl | rfl | rfl := hops
          · exact decodeGroup0_reject h _
          · exact decodeGroup1_reject h _
          · exact absurd h (withOperand_ne_reject _ _ _ _)
          · exact absurd h (withOperand_ne_reject _ _ _ _)
      · next hops => rw [if_neg hops]; exact h

theorem decodeOpcode_reject {o : Option SegName} {bs : List Byte} {r : Reject} (h : decodeOpcode o bs = .reject r)
    (tail : List Byte) : decodeOpcode o (bs ++ tail) = .reject r := by
  obtain _ | ⟨op, rest⟩ := bs
  · cases h
  · rw [List.cons_append, decodeOpcode.eq_def]
    rw [decodeOpcode.eq_def] at h
    dsimp only at h ⊢
    split at h
    · next h0F => rw [if_pos h0F]; exact decode0F_reject h tail
    · next h0F =>
      rw [if_neg h0F]
      split at h
      · cases h
      · next h9B =>
        rw [if_neg h9B]
        split at h
        · obtain _ | ⟨modrm, rest⟩ := rest
          · cases h
          · exact absurd h (withOperand_ne_reject _ _ _ _)
        · next h63 =>
          rw [if_neg h63]
          split at h
          · obtain _ | ⟨modrm, rest⟩ := rest
            · cases h
            · exact absurd h (withOperand_ne_reject _ _ _ _)
          · next hesc => rw [if_neg hesc]; exact h

/-- WHAT IS REJECTED is rejected whatever follows it. -/
theorem decode_reject {bs : List Byte} {r : Reject} (h : decode bs = .reject r) (tail : List Byte) :
    decode (bs ++ tail) = .reject r := by
  obtain _ | ⟨b, rest⟩ := bs
  · cases h
  · rw [List.cons_append, decode]
    rw [decode] at h
    split at h
    · exact decodeOpcode_reject h tail
    · exact decodeOpcode_reject h tail

theorem State.fetched_of_reject {s : State} {bs : List Byte} {r : Reject} (hq : s.queued = []) (hl : bs.length ≤ 6)
    (h : s.CodeAt bs) (hd : decode bs = .reject r) : s.fetched = .rejected r := by
  rw [State.fetched, State.CodeAt.fetchFrom hq h hl]
  simp only [decode_reject hd]

/-- Settles O22: the four ranges of bytes are refused by the decoder, and the step answers the decoder's reason. -/
theorem bytesOutsideTheTableAreRefusedOrUndefined : Obligations.BytesOutsideTheTableAreRefusedOrUndefined := by
  refine ⟨fun o b modrm rest => ⟨decode_otherOpcode o rest, decode_otherSecondByte o rest, decode_otherGroup0 o rest,
    decode_otherGroup1 o rest⟩, fun s bs r hq hl h hd => ?_, fun s => ⟨fun hf => ?_, fun hf => ?_, fun hf hp => ?_,
    fun hf hp => ?_⟩⟩
  · rw [step_of_rejected (State.fetched_of_reject hq hl h hd)]
    cases r <;> rfl
  · exact step_of_rejected hf
  · exact step_of_rejected hf
  · rw [step_of_rejected hf, State.rejectBytes, hp, if_neg Bool.false_ne_true]
  · rw [step_of_rejected hf, State.rejectBytes, if_pos hp]

end Sys2Proof.Machine
end

section
/-! PROOF. The system instructions (40_system_table_and_msw.md R122 to R128): LMSW, SGDT and SIDT, LLDT and SLDT, what
each makes of its operand. -/

namespace Sys2Proof.Machine

/-! ### LMSW -/

theorem execLmsw_of_readRM {s : State} {ovr : Option SegName} {rm : RM} {src : Word} (hc : s.privileged)
    (hs : s.readRM ovr rm = .ok src) :
    exec (.lmsw ovr rm) s =
      .next (({ s with msw := loadMsw s.msw src, unflushed := s.unflushed || (!s.pe && src.getLsbD 0) } :
        State).advance (Instr.lmsw ovr rm).length) := by
  simp only [exec, execLmsw, lmswEffect_of_readRM hc hs, State.finish_ok]

theorem execLmsw_of_readRM_error {s : State} {ovr : Option SegName} {rm : RM} {e : Stop} (hc : s.privileged)
    (hs : s.readRM ovr rm = .error e) : exec (.lmsw ovr rm) s = s.stop e := by
  simp only [exec, execLmsw, lmswEffect, State.requireCPL0_privileged hc, hs, State.finish_error]

theorem execLmsw_other {s : State} (hp : s.pe = true) (hc : s.cpl ≠ 0#2) (ovr : Option SegName) (rm : RM) :
    exec (.lmsw ovr rm) s = s.raise (.gp 0#16) := by
  simp only [exec, execLmsw, lmswEffect, State.requireCPL0_other hp hc, State.finish_error, State.stop_exc]

/-- PE after the load is PE before it or bit 0 of the operand (R128). -/
theorem loadMsw_pe (s : State) (src : Word) : (loadMsw s.msw src).getLsbD 0 = (s.pe || src.getLsbD 0) := by
  rw [loadMsw_getLsbD, if_pos rfl, State.pe]

/-- Settles O31: the bits of the new MSW are `loadMsw_getLsbD`, and the mark is set where the load sets PE. -/
theorem lmswLoadsTheLowFourBits : Obligations.LmswLoadsTheLowFourBits := by
  refine ⟨fun ovr rm => rfl, fun s ovr rm src hs => ⟨fun hc => ?_, fun hp hc => execLmsw_other hp hc ovr rm⟩⟩
  have hsys : SameSystem s
      { s with msw := loadMsw s.msw src, unflushed := s.unflushed || (!s.pe && src.getLsbD 0) } := .of_eq rfl
  refine ⟨_, execLmsw_of_readRM hc hs, hsys.completed _, loadMsw_pe s src, ?mp, ?em, ?ts, fun i hi => ?high, ?mark,
    rfl, rfl, ⟨rfl, rfl, rfl⟩, fun _ => rfl⟩
  case mp => exact (loadMsw_getLsbD s.msw src 1).trans rfl
  case em => exact (loadMsw_getLsbD s.msw src 2).trans rfl
  case ts => exact (loadMsw_getLsbD s.msw src 3).trans rfl
  case high =>
    refine (loadMsw_getLsbD s.msw src i).trans ?_
    rw [if_neg (by omega), if_neg (by omega)]
  case mark =>
    have hpe : ({ s with msw := loadMsw s.msw src } : State).pe = (s.pe || src.getLsbD 0) := loadMsw_pe s src
    change (s.unflushed || (!s.pe && src.getLsbD 0)) = true ↔
      s.unflushed = true ∨ s.pe = false ∧ ({ s with msw := loadMsw s.msw src } : State).pe = true
    rw [hpe]
    cases s.pe <;> simp

/-! ### SGDT and SIDT -/

/-- The three bytes of a base, low byte first (R72). -/
theorem leBytes_base (w : Base24) :
    leBytes 3 w.toNat = [w.extractLsb' 0 8, w.extractLsb' 8 8, w.extractLsb' 16 8] := by
  have byte : ∀ i, BitVec.ofNat 8 (w.toNat / 2 ^ i) = w.extractLsb' i 8 := fun i =>
    BitVec.eq_of_toNat_eq (by rw [BitVec.toNat_ofNat, BitVec.extractLsb'_toNat, Nat.shiftRight_eq_div_pow])
  have hlow := byte 0
  rw [Nat.pow_zero, Nat.div_one] at hlow
  simp only [leBytes, Nat.div_div_eq_div_mul]
  rw [hlow, ← byte 8, ← byte 16]
  norm_num

/-- The image that is stored: limit, base, and one more byte (R123, R125). -/
theorem imageOfTable_eq (t : TableReg) (b5 : Byte) :
    imageOfTable t b5 = [t.limit.extractLsb' 0 8, t.limit.extractLsb' 8 8, t.base.extractLsb' 0 8,
      t.base.extractLsb' 8 8, t.base.extractLsb' 16 8, b5] := by
  rw [imageOfTable, leBytes_word, leBytes_base]
  rfl

theorem imageOfTable_length (t : TableReg) (b5 : Byte) : (imageOfTable t b5).length = 6 := by
  rw [imageOfTable_eq]; rfl

/-- SGDT and SIDT to memory are segmented stores of the image of their register (R123, R125). -/
theorem execSgdt_mem (s : State) (ovr : Option SegName) (m : MemOp) :
    exec (.sgdt ovr (.mem m)) s = s.finish (Instr.sgdt ovr (.mem m)).length
      (s.segWrite (operandSeg ovr m) (s.effAddr m) (imageOfTable s.gdtr (Config.imageByte5 s.tick))) := rfl

theorem execSidt_mem (s : State) (ovr : Option SegName) (m : MemOp) :
    exec (.sidt ovr (.mem m)) s = s.finish (Instr.sidt ovr (.mem m)).length
      (s.segWrite (operandSeg ovr m) (s.effAddr m) (imageOfTable s.idtr (Config.imageByte5 s.tick))) := rfl

/-- An instruction whose effect is the store of a table's image completes with limit, base and one byte stored. -/
theorem State.finish_storeImage {s : State} {g : SegName} {off : Word} {a : Nat} (i : Instr) (r : TableReg)
    (ha : s.segAccess g off 6 .write = .ok a) (hs : s.storableSpan a 6) :
    ∃ t b5, s.finish i.length (s.segWrite g off (imageOfTable r (Config.imageByte5 s.tick))) = .next t ∧
      Completed i s t ∧
      StoredAt s t a [r.limit.extractLsb' 0 8, r.limit.extractLsb' 8 8, r.base.extractLsb' 0 8,
        r.base.extractLsb' 8 8, r.base.extractLsb' 16 8, b5] ∧ SameRegisters s t := by
  obtain ⟨t, ht, hc, hst, hr⟩ := State.finish_segWrite (bs := imageOfTable r (Config.imageByte5 s.tick)) i
    (by rwa [imageOfTable_length]) (by rwa [imageOfTable_length]) (by rw [imageOfTable_length]; decide)
  exact ⟨t, Config.imageByte5 s.tick, ht, hc, by rwa [← imageOfTable_eq], hr⟩

/-- Settles O34: both are segmented stores of six bytes, the last of which is the free value. -/
theorem sgdtAndSidtStoreTheTableRegister : Obligations.SgdtAndSidtStoreTheTableRegister := by
  refine ⟨fun ovr rm => ⟨rfl, rfl⟩, fun s ovr m a ha hs => ⟨?_, ?_⟩⟩
  · rw [execSgdt_mem]
    exact State.finish_storeImage _ s.gdtr ha hs
  · rw [execSidt_mem]
    exact State.finish_storeImage _ s.idtr ha hs

/-! ### LLDT -/

/-- The error code of a selector is the selector with its two low bits cleared (60_exceptions.md R183). -/
theorem selErrorCode_eq (sel : Word) : selErrorCode sel = sel &&& 0xFFFC#16 := by
  have hmask : ∀ i < 16, (0xFFFC#16 : Word).getLsbD i = !decide (i < 2) := by decide
  ext i hi
  rw [selErrorCode, BitVec.getElem_append, BitVec.getElem_and, ← BitVec.getLsbD_eq_getElem (x := 0xFFFC#16), hmask i hi]
  split
  · next h => simp [h]
  · next h => simp [h, show 2 + (i - 2) = i by omega, hi]

theorem arIsLdt_iff (a : Byte) : arIsLdt a = true ↔ a.getLsbD 4 = false ∧ a.toNat % 16 = 2 := by
  rw [arIsLdt, Bool.and_eq_true, Bool.not_eq_true', arSegment, decide_eq_true_iff, ← BitVec.toNat_inj, arType_toNat]
  rfl

/-- LLDT with its operand read goes on with the selector (R126). -/
theorem execLldt_of_readRM {s : State} {ovr : Option SegName} {rm : RM} {sel : Word} (h : s.protectedReady)
    (hc : s.cpl = 0#2) (hs : s.readRM ovr rm = .ok sel) :
    exec (.lldt ovr rm) s = s.finish (Instr.lldt ovr rm).length (loadLdt s sel) := by
  simp only [exec, execLldt, lldtEffect, State.requireProtected_ready h, State.requireCPL0_privileged (.inr hc), hs]

theorem execLldt_of_readRM_error {s : State} {ovr : Option SegName} {rm : RM} {e : Stop} (h : s.protectedReady)
    (hc : s.cpl = 0#2) (hs : s.readRM ovr rm = .error e) : exec (.lldt ovr rm) s = s.stop e := by
  simp only [exec, execLldt, lldtEffect, State.requireProtected_ready h, State.requireCPL0_privileged (.inr hc), hs,
    State.finish_error]

theorem execLldt_of_loadLdt_error {s : State} {ovr : Option SegName} {rm : RM} {sel : Word} {e : Stop}
    (h : s.protectedReady) (hc : s.cpl = 0#2) (hs : s.readRM ovr rm = .ok sel) (he : loadLdt s sel = .error e) :
    exec (.lldt ovr rm) s = s.stop e := by
  rw [execLldt_of_readRM h hc hs, he, State.finish_error]

theorem loadLdt_null {s : State} {sel : Word} (h : sel.toNat ≤ 3) :
    loadLdt s sel = .ok { s with ldtr := { s.ldtr with sel := sel, valid := false } } := by
  rw [loadLdt, if_pos ((selIsNull_iff sel).2 h)]

/-- A selector of the local table (R126). -/
theorem loadLdt_local {s : State} {sel : Word} (h : selTI sel = true) :
    loadLdt s sel = .error (.exc (.gp (selErrorCode sel))) := by
  rw [loadLdt, selIsNull_eq_false (three_lt_of_selTI h), if_neg Bool.false_ne_true, if_pos h]

/-- A selector whose lookup does not answer null is not null. -/
theorem selIsNull_of_fetchDesc {s : State} {sel : Word} {r : Except Stop Lookup} (h : s.fetchDesc sel = r)
    (hr : r ≠ .ok .null) : selIsNull sel = false :=
  selIsNull_eq_false (Nat.lt_of_not_le fun hle => hr (h ▸ State.fetchDesc_null hle))

theorem loadLdt_of_fetchDesc_error {s : State} {sel : Word} {e : Stop} (hti : selTI sel = false)
    (hf : s.fetchDesc sel = .error e) : loadLdt s sel = .error e := by
  have hn := selIsNull_of_fetchDesc hf (by simp)
  simp only [loadLdt, hn, hti, hf, Bool.false_eq_true, if_false]

theorem loadLdt_outOfTable {s : State} {sel : Word} (hti : selTI sel = false)
    (hf : s.fetchDesc sel = .ok .outOfTable) : loadLdt s sel = .error (.exc (.gp (selErrorCode sel))) := by
  have hn := selIsNull_of_fetchDesc hf (by simp)
  simp only [loadLdt, hn, hti, hf, Bool.false_eq_true, if_false]

/-- A descriptor of the global table is loaded where it is a present LDT's (R126). -/
theorem loadLdt_of_desc {s : State} {sel : Word} {d : Descriptor} (hti : selTI sel = false)
    (hf : s.fetchDesc sel = .ok (.desc d)) :
    loadLdt s sel =
      if !arIsLdt d.access then .error (.exc (.gp (selErrorCode sel)))
      else if !arPresent d.access then .error (.exc (.np (selErrorCode sel)))
      else .ok { s with ldtr := { sel := sel, base := d.base, limit := d.limit, valid := true } } := by
  have hn := selIsNull_of_fetchDesc hf (by simp)
  simp only [loadLdt, hn, hti, hf, Bool.false_eq_true, if_false]

/-- An LLDT that loads some value into LDTR completes, with nothing else changed. -/
theorem execLldt_loads {s : State} {ovr : Option SegName} {rm : RM} {sel : Word} {l : Ldtr} (h : s.protectedReady)
    (hc : s.cpl = 0#2) (hs : s.readRM ovr rm = .ok sel) (hl : loadLdt s sel = .ok { s with ldtr := l }) :
    ∃ t, exec (.lldt ovr rm) s = .next t ∧ Completed (.lldt ovr rm) s t ∧ t.ldtr = l ∧ t.gdtr = s.gdtr ∧
      t.idtr = s.idtr ∧ t.gpr = s.gpr ∧ t.flags = s.flags ∧ SameMode s t ∧ SameMemory s t := by
  have hsys : SameSystem s { s with ldtr := l } := .of_eq rfl
  refine ⟨_, ?_, hsys.completed _, rfl, rfl, rfl, rfl, rfl, ⟨rfl, rfl⟩, fun _ => rfl⟩
  rw [execLldt_of_readRM h hc hs, hl, State.finish_ok]

/-- Settles O35: a null selector and a present LDT descriptor are the two that `loadLdt` loads. -/
theorem lldtLoadsTheLocalTableRegister : Obligations.LldtLoadsTheLocalTableRegister := by
  refine ⟨fun ovr rm => rfl, fun s ovr rm sel h hc hs => ⟨fun hnull => ?_, fun d _ hti hf hS ht hP => ?_⟩⟩
  · exact execLldt_loads h hc hs (loadLdt_null hnull)
  · have hldt : arIsLdt d.access = true := (arIsLdt_iff d.access).2 ⟨hS, ht⟩
    have hpresent : arPresent d.access = true := hP
    refine execLldt_loads h hc hs ?_
    rw [loadLdt_of_desc hti hf, hldt, hpresent]
    rfl

/-- Settles O36: each check of `loadLdt` that fails answers GP or NP with the selector's error code. -/
theorem lldtChecksItsSelector : Obligations.LldtChecksItsSelector := by
  intro s ovr rm sel h hc hs
  rw [← selErrorCode_eq]
  have trap : ∀ {e}, loadLdt s sel = .error (.exc e) → exec (.lldt ovr rm) s = s.raise e :=
    execLldt_of_loadLdt_error h hc hs
  refine ⟨fun hti => trap (loadLdt_local hti), fun hti hf => trap (loadLdt_outOfTable hti hf), fun d hti hf =>
    ⟨fun hno => trap ?_, fun hS ht hP => trap ?_⟩⟩
  · have hldt : arIsLdt d.access = false := Bool.eq_false_iff.2 fun hldt => by
      obtain ⟨hS, ht⟩ := (arIsLdt_iff d.access).1 hldt
      obtain hseg | htype := hno
      · rw [hS] at hseg; cases hseg
      · exact htype ht
    rw [loadLdt_of_desc hti hf, hldt]
    rfl
  · have hldt : arIsLdt d.access = true := (arIsLdt_iff d.access).2 ⟨hS, ht⟩
    have habsent : arPresent d.access = false := hP
    rw [loadLdt_of_desc hti hf, hldt, habsent]
    rfl

/-! ### SLDT -/

/-- SLDT to a register completes with LDTR's selector in it (R127). -/
theorem execSldt_reg {s : State} (h : s.requireProtected = .ok ()) (ovr : Option SegName) (r : Reg16) :
    exec (.sldt ovr (.reg r)) s =
      .next ((s.setReg r s.ldtr.sel).advance (Instr.sldt ovr (.reg r)).length) := by
  simp only [exec, execSldt, sldtEffect, h, State.writeRM, State.finish_ok]

/-- SLDT to memory is the segmented store of the selector's two bytes (R127). -/
theorem execSldt_mem {s : State} (h : s.requireProtected = .ok ()) (ovr : Option SegName) (m : MemOp) :
    exec (.sldt ovr (.mem m)) s =
      s.finish (Instr.sldt ovr (.mem m)).length (s.segWrite (operandSeg ovr m) (s.effAddr m)
        [s.ldtr.sel.extractLsb' 0 8, s.ldtr.sel.extractLsb' 8 8]) := by
  simp only [exec, execSldt, sldtEffect, h, State.writeRM, leBytes_word]

/-- Completing with nothing but one register written. -/
theorem setReg_completes (i : Instr) (s : State) (r : Reg16) (v : Word) {t : State}
    (ht : t = (s.setReg r v).advance i.length) :
    Completed i s t ∧ OnlyReg s t r v ∧ t.flags = s.flags ∧ SameMode s t ∧ SameTables s t ∧ SameMemory s t := by
  subst ht
  have hsys : SameSystem s (s.setReg r v) := .of_eq rfl
  exact ⟨hsys.completed i, fun q => s.setReg_reg r q v, rfl, ⟨rfl, rfl⟩, ⟨rfl, rfl, rfl⟩, fun _ => rfl⟩

/-- Settles O37: past the check of the mode no check of the level stands before the store. -/
theorem sldtStoresTheLocalTableSelector : Obligations.SldtStoresTheLocalTableSelector := by
  refine ⟨fun ovr rm => rfl, fun s ovr h => ⟨fun r => ?_, fun m a ha hs => ?_⟩⟩
  · exact ⟨_, execSldt_reg (State.requireProtected_ready h) ovr r, setReg_completes _ s r _ rfl⟩
  · rw [execSldt_mem (State.requireProtected_ready h)]
    exact State.finish_segWrite _ ha hs (by simp)

end Sys2Proof.Machine
end

section
/-! PROOF. ARPL (41_access_checking.md R144), and a descriptor that the code may not see (60_exceptions.md R196). -/

namespace Sys2Proof.Machine

/-! ### ARPL -/

@[simp] theorem State.checkWritable_reg (s : State) (ovr : Option SegName) (r : Reg16) :
    s.checkWritable ovr (.reg r) = .ok () := rfl

theorem State.checkWritable_of_segAccess {s : State} {ovr : Option SegName} {m : MemOp} {a : Nat}
    (h : s.segAccess (operandSeg ovr m) (s.effAddr m) 2 .write = .ok a) : s.checkWritable ovr (.mem m) = .ok () := by
  simp only [State.checkWritable, h]

theorem State.checkWritable_of_segAccess_error {s : State} {ovr : Option SegName} {m : MemOp} {e : Stop}
    (h : s.segAccess (operandSeg ovr m) (s.effAddr m) 2 .write = .error e) :
    s.checkWritable ovr (.mem m) = .error e := by
  simp only [State.checkWritable, h]

theorem execArpl_of_checkWritable_error {s : State} {ovr : Option SegName} {reg : Reg16} {rm : RM} {e : Stop}
    (h : s.protectedReady) (hw : s.checkWritable ovr rm = .error e) : exec (.arpl ovr reg rm) s = s.stop e := by
  simp only [exec, execArpl, arplEffect, State.requireProtected_ready h, hw, State.finish_error]

theorem execArpl_of_readRM_error {s : State} {ovr : Option SegName} {reg : Reg16} {rm : RM} {e : Stop}
    (h : s.protectedReady) (hw : s.checkWritable ovr rm = .ok ()) (hr : s.readRM ovr rm = .error e) :
    exec (.arpl ovr reg rm) s = s.stop e := by
  simp only [exec, execArpl, arplEffect, State.requireProtected_ready h, hw, hr, State.finish_error]

/-- ARPL where the destination's RPL is not below the source's: only ZF is written (R144). -/
theorem execArpl_keeps {s : State} {ovr : Option SegName} {reg : Reg16} {rm : RM} {dst : Word}
    (h : s.protectedReady) (hw : s.checkWritable ovr rm = .ok ()) (hr : s.readRM ovr rm = .ok dst)
    (hle : (s.reg reg).toNat % 4 ≤ dst.toNat % 4) :
    exec (.arpl ovr reg rm) s = .next ((s.setZF false).advance (Instr.arpl ovr reg rm).length) := by
  rw [← selRPL_toNat, ← selRPL_toNat] at hle
  simp only [exec, execArpl, arplEffect, State.requireProtected_ready h, hw, hr, Nat.not_lt.2 hle, if_false,
    State.finish_ok]

/-- ARPL where the destination's RPL is below the source's and the raised selector is stored (R144). -/
theorem execArpl_raises {s u : State} {ovr : Option SegName} {reg : Reg16} {rm : RM} {dst : Word}
    (h : s.protectedReady) (hw : s.checkWritable ovr rm = .ok ()) (hr : s.readRM ovr rm = .ok dst)
    (hlt : dst.toNat % 4 < (s.reg reg).toNat % 4)
    (hu : s.writeRM ovr rm (selWithRPL dst (selRPL (s.reg reg))) = .ok u) :
    exec (.arpl ovr reg rm) s = .next ((u.setZF true).advance (Instr.arpl ovr reg rm).length) := by
  rw [← selRPL_toNat, ← selRPL_toNat] at hlt
  simp only [exec, execArpl, arplEffect, State.requireProtected_ready h, hw, hr, hlt, if_true, hu, State.finish_ok]

theorem execArpl_of_writeRM_error {s : State} {ovr : Option SegName} {reg : Reg16} {rm : RM} {dst : Word} {e : Stop}
    (h : s.protectedReady) (hw : s.checkWritable ovr rm = .ok ()) (hr : s.readRM ovr rm = .ok dst)
    (hlt : dst.toNat % 4 < (s.reg reg).toNat % 4)
    (hu : s.writeRM ovr rm (selWithRPL dst (selRPL (s.reg reg))) = .error e) :
    exec (.arpl ovr reg rm) s = s.stop e := by
  rw [← selRPL_toNat, ← selRPL_toNat] at hlt
  simp only [exec, execArpl, arplEffect, State.requireProtected_ready h, hw, hr, hlt, if_true, hu, State.finish_error]

theorem execArpl_real {s : State} (h : s.pe = false) (ovr : Option SegName) (reg : Reg16) (rm : RM) :
    exec (.arpl ovr reg rm) s = s.raise .ud := by
  simp only [exec, execArpl, arplEffect, State.requireProtected_real h, State.finish_error, State.stop_exc]

/-- A word written to memory is its two bytes, low byte first. -/
theorem State.writeRM_mem (s : State) (ovr : Option SegName) (m : MemOp) (v : Word) :
    s.writeRM ovr (.mem m) v = s.segWrite (operandSeg ovr m) (s.effAddr m) (wordBytes v) := by
  rw [wordBytes, ← leBytes_word]; rfl

/-- A store to memory with ZF written completes with nothing else changed. -/
theorem setZF_store_completes (i : Instr) {s u : State} {a : Nat} {bs : List Byte} (hu : s.memWrite a bs = .ok u)
    (hl : bs.length ≤ 2 ^ 20) (b : Bool) :
    Completed i s ((u.setZF b).advance i.length) ∧ StoredAt s ((u.setZF b).advance i.length) a bs ∧
      OnlyZF s ((u.setZF b).advance i.length) b ∧ ((u.setZF b).advance i.length).gpr = s.gpr ∧
      SameMode s ((u.setZF b).advance i.length) ∧ SameTables s ((u.setZF b).advance i.length) := by
  have hsame := (State.memWrite_ok hu).1
  have hst : StoredAt s u a bs := State.memWrite_storedAt hu hl
  have hc := (SameButStack.of_memWrite hu).system.completed i
  refine ⟨⟨hc.ip, hc.es, hc.cs, hc.ss, hc.ds, hc.cpl, hc.lastException, hc.plat⟩, hst,
    fun k => ?_, hsame.gpr, ⟨hsame.msw, hsame.unflushed⟩, hsame.gdtr, hsame.idtr, hsame.ldtr⟩
  exact (setZF_onlyZF u b k).trans (by rw [hsame.flags])

/-- Settles O42: past the mode and the check of the destination, the two RPLs decide between a store with ZF set and
ZF clear alone. -/
theorem arplRaisesTheRequestedPrivilegeLevel : Obligations.ArplRaisesTheRequestedPrivilegeLevel := by
  refine ⟨fun s ovr reg => ⟨⟨fun hp rm => execArpl_real hp ovr reg rm, fun h m e he => ?trap⟩, fun rm => rfl⟩,
    fun s ovr reg rm dst h hr => ⟨fun hlt => ⟨?register, ?stored⟩, fun hle hwritable => ?kept⟩⟩
  case trap => exact execArpl_of_checkWritable_error h (State.checkWritable_of_segAccess_error he)
  case register =>
    rintro r rfl
    exact ⟨_, execArpl_raises h (s.checkWritable_reg ovr r) hr hlt rfl, setReg_setZF_completes _ s r _ true rfl⟩
  case stored =>
    rintro m a rfl ha hs
    obtain ⟨u, hu⟩ := State.memWrite_of_storableSpan
      (bs := wordBytes (selWithRPL dst (selRPL (s.reg reg)))) (a := a) hs
    have hw : s.writeRM ovr (.mem m) (selWithRPL dst (selRPL (s.reg reg))) = .ok u := by
      rw [State.writeRM_mem, State.segWrite_of_segAccess ha, hu]
    exact ⟨_, execArpl_raises h (State.checkWritable_of_segAccess ha) hr hlt hw,
      setZF_store_completes _ hu (by simp [wordBytes]) true⟩
  case kept =>
    have hw : s.checkWritable ovr rm = .ok () := by
      cases rm with
      | reg r => rfl
      | mem m =>
        obtain ⟨a, ha⟩ := hwritable m rfl
        exact State.checkWritable_of_segAccess ha
    obtain ⟨hc, hz, hgpr, hframe⟩ := setZF_completes (.arpl ovr reg rm) s false rfl
    exact ⟨_, execArpl_keeps h hw hr hle, hc, hgpr, hz, hframe⟩

/-! ### A descriptor the code may not see -/

/-- Each of the four tests fails a descriptor that is not visible (R140). -/
theorem invisible_fails_tests {s : State} {sel : Word} {d : Descriptor}
    (h : ¬ Visible d.access s.cpl (sel.extractLsb' 0 2)) :
    descTest (s.larTest sel) (.desc d) = none ∧ descTest (s.lslTest sel) (.desc d) = none ∧
      descTest (s.verrTest sel) (.desc d) = none ∧ descTest (s.verwTest sel) (.desc d) = none := by
  have unnamed : ∀ {accepts : Descriptor → Prop},
      (accepts d → Visible d.access s.cpl (sel.extractLsb' 0 2)) → ¬ Names (.desc d) accepts := by
    rintro accepts hv ⟨d', hd, ha⟩
    cases hd
    exact h (hv ha)
  exact ⟨descTest_eq_none (s.larTest_iff sel) (unnamed And.right),
    descTest_eq_none (s.lslTest_iff sel) (unnamed And.right),
    descTest_eq_none (s.verrTest_iff sel) (unnamed And.right),
    descTest_eq_none (s.verwTest_iff sel) (unnamed fun ha => .inr ha.2.2.2)⟩

/-- LAR, LSL, VERR and VERW OF AN INVISIBLE DESCRIPTOR clear ZF and do nothing else. -/
theorem exec_of_invisible {s : State} {ovr : Option SegName} {reg : Reg16} {rm : RM} {sel : Word} {d : Descriptor}
    (h : s.protectedReady) (hr : s.readRM ovr rm = .ok sel) (hf : s.fetchDesc sel = .ok (.desc d))
    (hv : ¬ Visible d.access s.cpl (sel.extractLsb' 0 2)) {i : Instr}
    (hi : i = .lar ovr reg rm ∨ i = .lsl ovr reg rm ∨ i = .verr ovr rm ∨ i = .verw ovr rm) :
    exec i s = .next ((s.setZF false).advance i.length) := by
  have hlook := State.lookupOperand_of_fetchDesc h hr hf
  obtain ⟨hlar, hlsl, hverr, hverw⟩ := invisible_fails_tests hv
  obtain rfl | rfl | rfl | rfl := hi
  · exact execLar_rejected hlook hlar
  · exact execLsl_rejected hlook hlsl
  · rw [execVerr_of_lookupOperand hlook, hverr]; rfl
  · rw [execVerw_of_lookupOperand hlook, hverw]; rfl

/-- Settles O43: from either memory the instruction clears ZF and goes on, and neither depends on memory. -/
theorem invisibleDescriptorRevealsNothing : Obligations.InvisibleDescriptorRevealsNothing := by
  intro s mem' ovr reg rm sel d d' h hr hr' hf hf' hv hv' i hi
  exact ⟨_, exec_of_invisible h hr hf hv hi, exec_of_invisible (s := { s with mem := mem' }) h hr' hf' hv' hi⟩

end Sys2Proof.Machine
end

section
/-! PROOF. Where instructions trap (30_encoding.md R99, 40_system_table_and_msw.md R120, 20_memory.md R76): the mode, the
level, and an operand that cannot be read or written. -/

namespace Sys2Proof.Machine

/-! ### The mode and the level -/

/-- The protected-mode-only instructions stop where the check of the mode does (R120). -/
theorem exec_of_requireProtected_error {s : State} {e : Stop} (h : s.requireProtected = .error e) {i : Instr}
    (hi : protectedOnly i) : exec i s = s.stop e := by
  have hlook : ∀ ovr rm, s.lookupOperand ovr rm = .error e := fun _ _ => by simp only [State.lookupOperand, h]
  cases i with
  | lldt o rm => simp only [exec, execLldt, lldtEffect, h, State.finish_error]
  | sldt o rm => simp only [exec, execSldt, sldtEffect, h, State.finish_error]
  | lar o r rm => exact execLar_of_lookupOperand_error (hlook o rm)
  | lsl o r rm => exact execLsl_of_lookupOperand_error (hlook o rm)
  | arpl o r rm => simp only [exec, execArpl, arplEffect, h, State.finish_error]
  | verr o rm => exact execVerr_of_lookupOperand_error (hlook o rm)
  | verw o rm => exact execVerw_of_lookupOperand_error (hlook o rm)
  | _ => exact hi.elim

/-- Settles O44: the check of the mode is the first of each. -/
theorem protectedOnlyInstructionsAreUndefinedInRealMode : Obligations.ProtectedOnlyInstructionsAreUndefinedInRealMode :=
  fun _ _ hp hi => exec_of_requireProtected_error (State.requireProtected_real hp) hi

/-- SGDT and SIDT have no register form (R99). -/
theorem execSgdt_execSidt_reg (s : State) (ovr : Option SegName) (r : Reg16) :
    exec (.sgdt ovr (.reg r)) s = s.raise .ud ∧ exec (.sidt ovr (.reg r)) s = s.raise .ud := ⟨rfl, rfl⟩

/-- Settles O45: no access is made and no level checked before the form of the operand. -/
theorem tableInstructionsWithARegisterAreUndefined : Obligations.TableInstructionsWithARegisterAreUndefined := by
  intro s ovr r
  obtain ⟨hlgdt, hlidt⟩ := execLgdt_execLidt_of_readTable_error (s.readTable_reg ovr r)
  obtain ⟨hsgdt, hsidt⟩ := execSgdt_execSidt_reg s ovr r
  exact ⟨hlgdt, hsgdt, hlidt, hsidt⟩

theorem execLldt_other {s : State} (h : s.protectedReady) (hc : s.cpl ≠ 0#2) (ovr : Option SegName) (rm : RM) :
    exec (.lldt ovr rm) s = s.raise (.gp 0#16) := by
  simp only [exec, execLldt, lldtEffect, State.requireProtected_ready h, State.requireCPL0_other h.1 hc,
    State.finish_error, State.stop_exc]

/-- Settles O46: the level is checked before the operand is read. -/
theorem privilegedInstructionsTrapAtOtherLevels : Obligations.PrivilegedInstructionsTrapAtOtherLevels := by
  intro s ovr rm m hp hc
  obtain ⟨hlgdt, hlidt⟩ := execLgdt_execLidt_of_readTable_error (State.readTable_other hp hc ovr m)
  exact ⟨execClts_other hp hc ovr, execLmsw_other hp hc ovr rm, hlgdt, hlidt,
    fun hu => execLldt_other ⟨hp, hu⟩ hc ovr rm⟩

/-! ### An operand that cannot be read -/

/-- LGDT and LIDT stop where their operand cannot be read. -/
theorem execLgdt_execLidt_of_segRead_error {s : State} {ovr : Option SegName} {m : MemOp} {e : Stop}
    (hc : s.privileged) (h : s.segRead (operandSeg ovr m) (s.effAddr m) 6 = .error e) :
    exec (.lgdt ovr (.mem m)) s = s.stop e ∧ exec (.lidt ovr (.mem m)) s = s.stop e :=
  execLgdt_execLidt_of_readTable_error (State.readTable_of_segRead_error hc h)

/-- LAR, LSL, VERR and VERW stop where their lookup does. -/
theorem exec_of_lookupOperand_error {s : State} {ovr : Option SegName} {rm : RM} {e : Stop}
    (h : s.lookupOperand ovr rm = .error e) (reg : Reg16) :
    exec (.lar ovr reg rm) s = s.stop e ∧ exec (.lsl ovr reg rm) s = s.stop e ∧ exec (.verr ovr rm) s = s.stop e ∧
      exec (.verw ovr rm) s = s.stop e :=
  ⟨execLar_of_lookupOperand_error h, execLsl_of_lookupOperand_error h, execVerr_of_lookupOperand_error h,
    execVerw_of_lookupOperand_error h⟩

theorem State.lookupOperand_of_fetchDesc_error {s : State} {ovr : Option SegName} {rm : RM} {sel : Word} {e : Stop}
    (h : s.protectedReady) (hr : s.readRM ovr rm = .ok sel) (hf : s.fetchDesc sel = .error e) :
    s.lookupOperand ovr rm = .error e := by
  simp only [State.lookupOperand, State.requireProtected_ready h, hr, hf]

theorem State.readRM_of_segRead_error {s : State} {ovr : Option SegName} {m : MemOp} {e : Stop}
    (h : s.segRead (operandSeg ovr m) (s.effAddr m) 2 = .error e) : s.readRM ovr (.mem m) = .error e := by
  simp only [State.readRM, h]

/-- A word of memory is its bytes, low byte first (20_memory.md R72). -/
theorem State.readRM_word {s : State} {ovr : Option SegName} {m : MemOp} {a : Nat} {b0 b1 : Byte}
    (ha : s.segAccess (operandSeg ovr m) (s.effAddr m) 2 .read = .ok a) (hp : s.plainSpan a 2)
    (h0 : s.mem.read (a % s.addressSpace) = some b0) (h1 : s.mem.read ((a + 1) % s.addressSpace) = some b1) :
    s.readRM ovr (.mem m) = .ok (b1 ++ b0) := by
  have hbytes : s.memRead a 2 = .ok [b0, b1] := State.memRead_ok_iff.2 ⟨hp, by simp [State.span, List.range_succ, h0, h1]⟩
  have hword : leWord [b0, b1] = b1 ++ b0 := tableOfImage_limit b0 b1 []
  simp only [State.readRM, State.segRead_of_segAccess ha, hbytes, hword]

/-- Settles O57: an operand is read in order, and each instruction hands on the reason that its first read that fails
gives. -/
theorem operandIsTheRegisterOrTheWordOfMemory : Obligations.OperandIsTheRegisterOrTheWordOfMemory := by
  refine fun s ovr => ⟨fun _ => rfl, fun _ => rfl, fun _ => rfl, fun _ => rfl,
    fun m a b0 b1 ha hp h0 h1 => State.readRM_word ha hp h0 h1, fun m e he => State.readRM_of_segAccess_error he,
    ?firstByte, fun m st hc h => execLgdt_execLidt_of_segRead_error hc h,
    fun rm reg st hr => ⟨fun hc => execLmsw_of_readRM_error hc hr, fun h => ?operand⟩,
    fun rm reg sel st h hr hf => ?descriptor⟩
  case firstByte =>
    rintro g off n a k x ha hk rfl hs
    rw [State.segRead_of_segAccess ha]
    exact ⟨fun hd => State.memRead_error hk hs (State.readByte_device hd),
      fun hd hu => State.memRead_error hk hs (State.readByte_unwritten hd hu)⟩
  case operand =>
    obtain ⟨hlar, hlsl, hverr, hverw⟩ := exec_of_lookupOperand_error (State.lookupOperand_of_readRM_error h hr) reg
    exact ⟨fun hc => execLldt_of_readRM_error h hc hr, hlar, hlsl, hverr, hverw,
      fun hw => execArpl_of_readRM_error h hw hr⟩
  case descriptor =>
    obtain ⟨hlar, hlsl, hverr, hverw⟩ :=
      exec_of_lookupOperand_error (State.lookupOperand_of_fetchDesc_error h hr hf) reg
    exact ⟨hlar, hlsl, hverr, hverw,
      fun hc hti => execLldt_of_loadLdt_error h hc hr (loadLdt_of_fetchDesc_error hti hf)⟩

/-! ### An operand that cannot be written -/

/-- The store of an instruction that is refused (20_memory.md R79, R84). -/
theorem State.segWrite_of_storeRefused {s : State} {g : SegName} {off : Word} {bs : List Byte} {a : Nat} {r : Refusal}
    (ha : s.segAccess g off bs.length .write = .ok a) (h : s.StoreRefused a bs.length r) :
    s.segWrite g off bs = .error (.refuse r) := by
  rw [State.segWrite_of_segAccess ha, State.memWrite_of_storeRefused h]

/-- SGDT and SIDT stop where the store of their image does. -/
theorem execSgdt_execSidt_of_segWrite_error {s : State} {ovr : Option SegName} {m : MemOp} {e : Stop}
    (h : ∀ bs : List Byte, bs.length = 6 → s.segWrite (operandSeg ovr m) (s.effAddr m) bs = .error e) :
    exec (.sgdt ovr (.mem m)) s = s.stop e ∧ exec (.sidt ovr (.mem m)) s = s.stop e := by
  rw [execSgdt_mem, execSidt_mem, h _ (imageOfTable_length _ _), h _ (imageOfTable_length _ _)]
  exact ⟨rfl, rfl⟩

/-- SMSW and SLDT stop where the store of their word does. -/
theorem execSmsw_of_segWrite_error {s : State} {ovr : Option SegName} {m : MemOp} {e : Stop}
    (h : ∀ bs : List Byte, bs.length = 2 → s.segWrite (operandSeg ovr m) (s.effAddr m) bs = .error e) :
    exec (.smsw ovr (.mem m)) s = s.stop e ∧ (s.protectedReady → exec (.sldt ovr (.mem m)) s = s.stop e) := by
  refine ⟨?_, fun hr => ?_⟩
  · rw [execSmsw_mem, h _ rfl, State.finish_error]
  · rw [execSldt_mem (State.requireProtected_ready hr), h _ rfl, State.finish_error]

/-- Settles O47: an access that fails and a store that is refused stop the instruction, whatever its bytes are. -/
theorem operandExceptionsAreTaken : Obligations.OperandExceptionsAreTaken := by
  refine fun s ovr reg m e => ⟨fun he hc => ?image, fun he => ?table, fun he => ?read, fun he => ?write,
    fun a r ha hr => ?tableRefused, fun a r ha hr => ?writeRefused, fun a k ha har hk hs hd h => ?arplDevice⟩
  case image => exact execLgdt_execLidt_of_segRead_error hc (State.segRead_of_segAccess_error he)
  case table =>
    exact execSgdt_execSidt_of_segWrite_error fun bs hl => State.segWrite_of_segAccess_error (by rwa [hl])
  case read =>
    have hr : s.readRM ovr (.mem m) = .error (.exc e) := State.readRM_of_segAccess_error he
    exact ⟨fun hc => execLmsw_of_readRM_error hc hr, fun h => ⟨fun hc => execLldt_of_readRM_error h hc hr,
      exec_of_lookupOperand_error (State.lookupOperand_of_readRM_error h hr) reg⟩⟩
  case write =>
    obtain ⟨hsmsw, hsldt⟩ := execSmsw_of_segWrite_error (s := s) (ovr := ovr) (m := m) (e := .exc e)
      fun bs hl => State.segWrite_of_segAccess_error (by rwa [hl])
    exact ⟨hsmsw, fun h => ⟨hsldt h, execArpl_of_checkWritable_error h (State.checkWritable_of_segAccess_error he)⟩⟩
  case tableRefused =>
    exact execSgdt_execSidt_of_segWrite_error fun bs hl =>
      State.segWrite_of_storeRefused (by rwa [hl]) (by rwa [hl])
  case writeRefused =>
    have hstore : ∀ bs : List Byte, bs.length = 2 →
        s.segWrite (operandSeg ovr m) (s.effAddr m) bs = .error (.refuse r) :=
      fun bs hl => State.segWrite_of_storeRefused (by rwa [hl]) (by rwa [hl])
    obtain ⟨hsmsw, hsldt⟩ := execSmsw_of_segWrite_error hstore
    refine ⟨hsmsw, fun h => ⟨hsldt h, fun dst hdst hlt => ?_⟩⟩
    exact execArpl_of_writeRM_error h (State.checkWritable_of_segAccess ha) hdst hlt
      ((s.writeRM_mem ovr m _).trans (hstore _ rfl))
  case arplDevice =>
    have hread : s.readRM ovr (.mem m) = .error (.refuse (.deviceRegion ((a + k) % s.addressSpace))) :=
      State.readRM_of_segRead_error ((State.segRead_of_segAccess har).trans
        (State.memRead_error hk hs (State.readByte_device hd)))
    exact execArpl_of_readRM_error h (State.checkWritable_of_segAccess ha) hread

end Sys2Proof.Machine
end

section
/-! PROOF. The mark `unflushed` (70_reset_and_hazards.md R223; logs 9, 36): past the check of the mode no
protected-mode-only instruction looks at it, so its effect is that of the flushed machine. -/

namespace Sys2Proof.Machine

/-- The state with the mark as given. -/
def State.withMark (s : State) (b : Bool) : State := { s with unflushed := b }

/-! ### What the operations make of the mark -/

@[simp] theorem State.withMark_reg (s : State) (b : Bool) (r : Reg16) : (s.withMark b).reg r = s.reg r := rfl

@[simp] theorem State.withMark_segAccess (s : State) (b : Bool) (g : SegName) (off : Word) (n : Nat) (k : Access) :
    (s.withMark b).segAccess g off n k = s.segAccess g off n k := rfl

@[simp] theorem State.withMark_readRM (s : State) (b : Bool) (ovr : Option SegName) (rm : RM) :
    (s.withMark b).readRM ovr rm = s.readRM ovr rm := by
  cases rm <;> rfl

@[simp] theorem State.withMark_fetchDesc (s : State) (b : Bool) (sel : Word) :
    (s.withMark b).fetchDesc sel = s.fetchDesc sel := rfl

@[simp] theorem State.withMark_requireCPL0 (s : State) (b : Bool) :
    (s.withMark b).requireCPL0 = s.requireCPL0 := rfl

@[simp] theorem State.withMark_checkWritable (s : State) (b : Bool) (ovr : Option SegName) (rm : RM) :
    (s.withMark b).checkWritable ovr rm = s.checkWritable ovr rm := by
  cases rm <;> rfl

@[simp] theorem State.withMark_larTest (s : State) (b : Bool) (sel : Word) :
    (s.withMark b).larTest sel = s.larTest sel := rfl

@[simp] theorem State.withMark_lslTest (s : State) (b : Bool) (sel : Word) :
    (s.withMark b).lslTest sel = s.lslTest sel := rfl

theorem State.withMark_storeAll (s : State) (b : Bool) (cs : List (Nat × Byte)) :
    (s.withMark b).storeAll cs = (s.storeAll cs).withMark b := by
  induction cs generalizing s with
  | nil => rfl
  | cons c cs ih => exact ih (s.storeByte c.1 c.2)

theorem State.withMark_memWrite (s : State) (b : Bool) (a : Nat) (bs : List Byte) :
    (s.withMark b).memWrite a bs = (s.memWrite a bs).map (State.withMark · b) := by
  have hspan : (s.withMark b).span a bs.length = s.span a bs.length := rfl
  have hrefusal : (s.withMark b).storeRefusal = s.storeRefusal := rfl
  rw [State.memWrite, State.memWrite, hspan, hrefusal, State.withMark_storeAll]
  split <;> rfl

theorem State.withMark_writeRM (s : State) (b : Bool) (ovr : Option SegName) (rm : RM) (v : Word) :
    (s.withMark b).writeRM ovr rm v = (s.writeRM ovr rm v).map (State.withMark · b) := by
  cases rm with
  | reg r => rfl
  | mem m =>
    have haddr : (s.withMark b).effAddr m = s.effAddr m := by cases m <;> rfl
    simp only [State.writeRM, State.segWrite, haddr, State.withMark_segAccess, State.withMark_memWrite]
    split <;> rfl

theorem withMark_loadLdt (s : State) (b : Bool) (sel : Word) :
    loadLdt (s.withMark b) sel = (loadLdt s sel).map (State.withMark · b) := by
  simp only [loadLdt, State.withMark_fetchDesc]
  cases selIsNull sel with
  | true => rfl
  | false =>
    cases selTI sel with
    | true => rfl
    | false =>
      cases s.fetchDesc sel with
      | error e => rfl
      | ok l =>
        cases l with
        | null => rfl
        | outOfTable => rfl
        | desc d =>
          dsimp only
          cases arIsLdt d.access <;> cases arPresent d.access <;> rfl

/-! ### The effects -/

theorem State.withMark_lookupOperand {s : State} {b : Bool} (h : s.requireProtected = .ok ())
    (hb : (s.withMark b).requireProtected = .ok ()) (ovr : Option SegName) (rm : RM) :
    (s.withMark b).lookupOperand ovr rm = s.lookupOperand ovr rm := by
  simp only [State.lookupOperand, h, hb, State.withMark_readRM, State.withMark_fetchDesc]

/-- THE EFFECT OF A PROTECTED-MODE-ONLY INSTRUCTION, past the check of the mode, is the same whatever the mark is,
and leaves the mark. -/
theorem effect_withMark {s : State} {b : Bool} (h : s.requireProtected = .ok ())
    (hb : (s.withMark b).requireProtected = .ok ()) {i : Instr} (hi : protectedOnly i) :
    effect i (s.withMark b) = (effect i s).map (State.withMark · b) := by
  cases i with
  | lldt o rm =>
    simp only [effect, lldtEffect, h, hb, State.withMark_requireCPL0, State.withMark_readRM]
    cases s.requireCPL0 with
    | error e => rfl
    | ok _ =>
      cases s.readRM o rm with
      | error e => rfl
      | ok sel => exact withMark_loadLdt s b sel
  | sldt o rm =>
    simp only [effect, sldtEffect, h, hb]
    exact s.withMark_writeRM b o rm s.ldtr.sel
  | lar o r rm =>
    simp only [effect, larEffect, State.withMark_lookupOperand h hb]
    cases s.lookupOperand o rm with
    | error e => rfl
    | ok p =>
      obtain ⟨sel, l⟩ := p
      simp only [State.withMark_larTest]
      cases descTest (s.larTest sel) l <;> rfl
  | lsl o r rm =>
    simp only [effect, lslEffect, State.withMark_lookupOperand h hb]
    cases s.lookupOperand o rm with
    | error e => rfl
    | ok p =>
      obtain ⟨sel, l⟩ := p
      simp only [State.withMark_lslTest]
      cases descTest (s.lslTest sel) l <;> rfl
  | arpl o r rm =>
    simp only [effect, arplEffect, h, hb, State.withMark_checkWritable, State.withMark_readRM, State.withMark_reg,
      State.withMark_writeRM]
    cases s.checkWritable o rm with
    | error e => rfl
    | ok _ =>
      cases s.readRM o rm with
      | error e => rfl
      | ok dst =>
        dsimp only
        split
        · cases s.writeRM o rm (selWithRPL dst (selRPL (s.reg r))) <;> rfl
        · rfl
  | verr o rm =>
    simp only [effect, verrEffect, State.withMark_lookupOperand h hb]
    cases s.lookupOperand o rm <;> rfl
  | verw o rm =>
    simp only [effect, verwEffect, State.withMark_lookupOperand h hb]
    cases s.lookupOperand o rm <;> rfl
  | _ => exact hi.elim

/-! ### The check of the mode while the mark is set -/

theorem State.requireProtected_unflushed_spec {s : State} (hp : s.pe = true) (hu : s.unflushed = true)
    (hr : s.plat.rulings = .spec) : s.requireProtected = .error (.refuse .noQueueFlushAfterPE) := by
  simp [State.requireProtected, State.requireFlushed, hp, hu, hr]

/-- Under the chip's rulings the instruction was decoded before the switch, as undefined, or runs (log 9). -/
theorem State.requireProtected_unflushed_chip {s : State} (hp : s.pe = true) (hu : s.unflushed = true)
    (hr : s.plat.rulings = .chip) : s.requireProtected = .error (.exc .ud) ∨ s.requireProtected = .ok () := by
  cases hd : Config.decodedBeforeSwitch s.tick <;> simp [State.requireProtected, State.requireFlushed, hp, hu, hr, hd]

/-- A protected-mode-only instruction ends with its effect. -/
theorem exec_of_protectedOnly {i : Instr} (hi : protectedOnly i) (s : State) :
    exec i s = s.finish i.length (effect i s) := by
  cases i
  case lldt | sldt | lar | lsl | arpl | verr | verw => rfl
  all_goals exact hi.elim

/-- A protected-mode-only instruction leaves the mark. -/
theorem effect_protectedOnly_unflushed {i : Instr} (hi : protectedOnly i) {s t : State} (h : effect i s = .ok t) :
    t.unflushed = s.unflushed := by
  refine (effect_control h).unflushed.resolve_right ?_
  rintro ⟨-, o, rm, rfl⟩
  exact hi

/-- While the mark is set, an instruction that runs completes as in the flushed machine, or stops for the same
reason. -/
theorem exec_unflushed {s : State} (hp : s.pe = true) (hu : s.unflushed = true) (h : s.requireProtected = .ok ())
    {i : Instr} (hi : protectedOnly i) :
    (∃ t, exec i (s.withMark false) = .next t ∧ Completed i s t ∧ exec i s = .next (t.withMark true)) ∨
      ∃ st, exec i (s.withMark false) = (s.withMark false).stop st ∧ exec i s = s.stop st := by
  have hb : (s.withMark false).requireProtected = .ok () := State.requireProtected_ready ⟨hp, rfl⟩
  rw [exec_of_protectedOnly hi, exec_of_protectedOnly hi, effect_withMark h hb hi]
  cases he : effect i s with
  | error st => exact .inr ⟨st, rfl, rfl⟩
  | ok v =>
    have hc := (effect_system he).completed i
    have hmark : v.withMark true = v := by
      rw [State.withMark, ← hu, ← effect_protectedOnly_unflushed hi he]
    refine .inl ⟨(v.withMark false).advance i.length, rfl,
      ⟨hc.ip, hc.es, hc.cs, hc.ss, hc.ds, hc.cpl, hc.lastException, hc.plat⟩, ?_⟩
    rw [State.finish_ok, ← hmark]
    rfl

/-- Settles O48: the check of the mode refuses, raises UD, or lets the instruction run, and then the mark changes
nothing. -/
theorem unflushedInstructionTrapsOrRuns : Obligations.UnflushedInstructionTrapsOrRuns := by
  refine fun s hp hu => ⟨fun hr i hi => ?spec, fun hr i hi => ?chip, fun hr ovr r => ?sldt⟩
  case spec => exact exec_of_requireProtected_error (State.requireProtected_unflushed_spec hp hu hr) hi
  case chip =>
    obtain hud | hok := State.requireProtected_unflushed_chip hp hu hr
    · exact .inl (exec_of_requireProtected_error hud hi)
    · exact .inr (exec_unflushed hp hu hok hi)
  case sldt =>
    obtain hud | hok := State.requireProtected_unflushed_chip hp hu hr
    · exact .inl (exec_of_requireProtected_error hud trivial)
    · exact .inr ⟨_, execSldt_reg hok ovr r, setReg_completes _ s r _ rfl⟩

end Sys2Proof.Machine
end

section
/-! PROOF. WAIT and ESC (42_referenced_instructions.md R160, R161, 10_state.md R38): each case of their tests. -/

namespace Sys2Proof.Machine

theorem State.waitTraps_iff (s : State) : s.waitTraps = true ↔ s.mp = true ∧ s.ts = true := by
  rw [State.waitTraps, Bool.and_eq_true]

theorem State.escTraps_iff (s : State) : s.escTraps = true ↔ s.em = true ∨ s.ts = true := by
  rw [State.escTraps, Bool.or_eq_true]

theorem execWait_traps {s : State} (h : s.waitTraps = true) (ovr : Option SegName) :
    exec (.wait ovr) s = s.raise .nm := by
  simp only [exec, execWait, h, if_true]

theorem execEsc_traps {s : State} (h : s.escTraps = true) (ovr : Option SegName) (x y : BitVec 3) (rm : RM) :
    exec (.esc ovr x y rm) s = s.raise .nm := by
  simp only [exec, execEsc, h, if_true]

/-- WAIT past exception 7 (R160; logs 15, 36). -/
theorem execWait_of_not_traps {s : State} (h : ¬ s.waitTraps = true) (ovr : Option SegName) :
    exec (.wait ovr) s =
      if s.plat.rulings = .spec ∧ (s.plat.npxBusy || s.plat.npxError) then .refused .waitNeedsBusyPremise
      else if s.plat.npxBusy then .next s
      else if s.plat.npxError then s.raise .npxError
      else .next (s.advance (Instr.wait ovr).length) := by
  rw [exec, execWait, if_neg h]

/-- ESC past exception 7 (R161; logs 16, 36). -/
theorem execEsc_of_not_traps {s : State} (h : ¬ s.escTraps = true) (ovr : Option SegName) (x y : BitVec 3)
    (rm : RM) :
    exec (.esc ovr x y rm) s =
      if s.plat.rulings = .chip ∧ s.plat.npxError then s.raise .npxError
      else .refused .processorExtensionNotModelled := by
  rw [exec, execEsc, if_neg h]

/-- Settles O49: the tests of WAIT in their order. -/
theorem waitTrapsHoldsOrGoesOn : Obligations.WaitTrapsHoldsOrGoesOn := by
  refine fun s ovr => ⟨fun hmp hts => execWait_traps (s.waitTraps_iff.2 ⟨hmp, hts⟩) ovr, fun hn => ?_⟩
  have hnot : ¬ s.waitTraps = true := by
    rw [State.waitTraps_iff]
    rintro ⟨hmp, hts⟩
    obtain h | h := hn
    · rw [hmp] at h; cases h
    · rw [hts] at h; cases h
  rw [execWait_of_not_traps hnot]
  refine ⟨fun hr hb => ?refused, fun hr hb => ?held, fun hr hb he => ?error, fun hb he => ?goes⟩
  case refused => rw [if_pos ⟨hr, by simpa using hb⟩]
  case held => simp [hr, hb]
  case error => simp [hr, hb, he]
  case goes =>
    have hsys : SameSystem s s := .of_eq rfl
    exact ⟨_, by simp [hb, he], hsys.completed _, ⟨rfl, rfl, ⟨rfl, rfl⟩, rfl, rfl, rfl⟩, fun _ => rfl⟩

/-- Settles O51: exception 7 is the first test of either, and none of the later ones raises it. -/
theorem exceptionSevenFollowsTheStatusWordFlags : Obligations.ExceptionSevenFollowsTheStatusWordFlags := by
  refine ⟨rfl, rfl, fun s ovr x y rm => ⟨fun h => execEsc_traps (s.escTraps_iff.2 h) ovr x y rm, fun h => ?esc,
    fun h => execWait_traps (s.waitTraps_iff.2 h) ovr, fun h => ?wait⟩⟩
  case esc =>
    rw [execEsc_of_not_traps (mt s.escTraps_iff.1 h)]
    split
    · exact .inl rfl
    · exact .inr rfl
  case wait =>
    rw [execWait_of_not_traps (mt s.waitTraps_iff.1 h)]
    split
    · exact .inr (.inr (.inl rfl))
    · split
      · exact .inl rfl
      · split
        · exact .inr (.inl rfl)
        · exact .inr (.inr (.inr rfl))

end Sys2Proof.Machine
end

section
/-! PROOF. The stack in real address mode (60_exceptions.md R185, R190): one word pushed, the three words of a delivery,
and the words popped again. -/

namespace Sys2Proof.Machine

/-! ### Addresses of the stack -/

/-- What a segment's offsets are added to in real address mode, under either address model (20_memory.md R62). -/
def State.realBase (s : State) (g : SegName) : Nat :=
  match s.plat.addressModel with
  | .source20BitWrap => (s.seg g).sel.toNat * 16
  | .chipCacheBase => (s.seg g).base.toNat

/-- In real address mode the address of an offset is taken modulo the address space of either model. -/
theorem State.realAddress_eq {s : State} (hp : s.pe = false) (g : SegName) (off : Word) :
    s.realAddress g off = (s.realBase g + off.toNat) % s.addressSpace := by
  cases hm : s.plat.addressModel <;>
    simp [State.realAddress, State.realBase, State.addressSpace, hp, hm]

/-- Offsets in one segment have different addresses. -/
theorem State.realAddress_inj {s : State} {g : SegName} {m n : Nat} (hm : m < 2 ^ 16) (hn : n < 2 ^ 16)
    (h : (s.realBase g + m) % s.addressSpace = (s.realBase g + n) % s.addressSpace) : m = n := by
  have hspace := s.addressSpace_ge
  exact Nat.ModEq.eq_of_lt_of_lt (Nat.ModEq.add_left_cancel' (s.realBase g) h) (by omega) (by omega)

/-- The two bytes of a word that does not straddle offset 0FFFFh. -/
theorem State.mem_realSpan {s : State} (hp : s.pe = false) {g : SegName} {off : Word} {x : Nat} :
    x ∈ s.span (s.realAddress g off) 2 ↔
      ∃ i, i < 2 ∧ (s.realBase g + (off.toNat + i)) % s.addressSpace = x := by
  rw [State.mem_span, State.realAddress_eq hp]
  simp only [Nat.mod_add_mod, Nat.add_assoc]

/-- Words at offsets that differ by 2 at least, neither straddling offset 0FFFFh, share no byte. -/
theorem State.realSpan_disjoint {s : State} (hp : s.pe = false) {g : SegName} {off off' : Word} {x : Nat}
    (hoff : off.toNat < 0xFFFF) (hoff' : off'.toNat < 0xFFFF) (hd : off.toNat + 2 ≤ off'.toNat ∨ off'.toNat + 2 ≤ off.toNat)
    (h : x ∈ s.span (s.realAddress g off) 2) : x ∉ s.span (s.realAddress g off') 2 := by
  rw [State.mem_realSpan hp] at h ⊢
  rintro ⟨j, hj, hjx⟩
  obtain ⟨i, hi, rfl⟩ := h
  have := State.realAddress_inj (by omega) (by omega) hjx
  omega

/-! ### One word pushed -/

/-- What a word pushed in real address mode does: SP goes down by 2, and the word's bytes are stored there. -/
structure RealPush (s t : State) (w : Word) : Prop where
  offset : s.gpr.sp ≠ 1#16
  storable : s.storableSpan (s.pushAddress 1) 2
  gpr : t.gpr = { s.gpr with sp := s.gpr.sp - 2#16 }
  stored : StoredAt s t (s.pushAddress 1) (wordBytes w)
  same : SameButStack s t

theorem sub_two_straddles_iff (sp : Word) : 0xFFFF < (sp - 2#16).toNat + 2 - 1 ↔ sp = 1#16 := by
  rw [← BitVec.toNat_inj]
  bv_omega

theorem State.push_realPush {s t : State} {w : Word} (hp : s.pe = false) (h : s.push w = .ok t) : RealPush s t w := by
  have hsame := State.push_same h
  obtain ⟨a, u, ha, hw, rfl⟩ := State.push_ok h
  have hoff : ¬ 0xFFFF < (s.gpr.sp - 2#16).toNat + 2 - 1 := fun hover => by
    rw [State.segAccess_overrun .write hover] at ha
    cases ha
  rw [State.segAccess_real .write hp (Nat.le_of_not_lt hoff)] at ha
  cases ha
  have hst : StoredAt s u (s.pushAddress 1) (leBytes 2 w.toNat) := State.memWrite_storedAt hw (by simp)
  rw [leBytes_word] at hst
  have hgpr := (State.memWrite_ok hw).1.gpr
  have hstorable := State.storableSpan_of_memWrite hw
  rw [leBytes_length] at hstorable
  exact ⟨mt (sub_two_straddles_iff _).2 hoff, hstorable, by rw [hgpr], hst, hsame⟩

theorem State.push_of_storable {s : State} (hp : s.pe = false) (hsp : s.gpr.sp ≠ 1#16)
    (hs : s.storableSpan (s.pushAddress 1) 2) (w : Word) : ∃ t, s.push w = .ok t := by
  have ha : s.segAccess .ss (s.gpr.sp - 2#16) (leBytes 2 w.toNat).length .write = .ok (s.pushAddress 1) := by
    rw [leBytes_length]
    exact State.segAccess_real .write hp (Nat.le_of_not_lt (mt (sub_two_straddles_iff _).1 hsp))
  obtain ⟨u, hu⟩ := State.memWrite_of_storableSpan (bs := leBytes 2 w.toNat) (by simpa using hs)
  exact ⟨_, by simp only [State.push, State.segWrite_of_segAccess ha, hu]; rfl⟩

/-- With SP 1 the word would straddle offset 0FFFFh. -/
theorem State.push_straddles {s : State} (hp : s.pe = false) (hsp : s.gpr.sp = 1#16) (w : Word) :
    s.push w = .error (.exc .overrun) := by
  have ha : s.segAccess .ss (s.gpr.sp - 2#16) (leBytes 2 w.toNat).length .write = .error (.exc .overrun) := by
    rw [leBytes_length, State.segAccess_overrun .write ((sub_two_straddles_iff _).2 hsp), hp, if_neg Bool.false_ne_true]
  simp only [State.push, State.segWrite_of_segAccess_error ha]

/-! ### What a push leaves for the next one -/

theorem SameButStack.pe {s t : State} (h : SameButStack s t) : t.pe = s.pe := State.pe_congr h.msw

theorem SameButStack.span {s t : State} (h : SameButStack s t) (a n : Nat) : t.span a n = s.span a n :=
  State.span_congr h.msw h.plat a n

theorem SameButStack.storableSpan {s t : State} (h : SameButStack s t) (a n : Nat) :
    t.storableSpan a n ↔ s.storableSpan a n := by
  simp only [State.storableSpan, State.plainSpan, h.span, State.isDevice, State.isText, h.plat]

/-- The next word is pushed below the last. -/
theorem RealPush.pushAddress {s t : State} {w : Word} (h : RealPush s t w) (k : Nat) :
    t.pushAddress k = s.pushAddress (k + 1) := by
  have hsp : t.gpr.sp - BitVec.ofNat 16 (2 * k) = s.gpr.sp - BitVec.ofNat 16 (2 * (k + 1)) := by
    rw [h.gpr, Nat.mul_add, Nat.mul_one, Nat.add_comm, BitVec.ofNat_add]
    exact BitVec.sub_sub _ _ _
  rw [State.pushAddress, State.pushAddress, hsp, State.realAddress, State.realAddress, State.seg, State.seg, h.same.ss,
    h.same.plat]

/-! ### The three words of a delivery -/

/-- The words of a delivery share no byte, where none straddles offset 0FFFFh. -/
theorem State.pushed_disjoint {s : State} (hp : s.pe = false)
    (hsp : s.gpr.sp ≠ 1#16 ∧ s.gpr.sp ≠ 3#16 ∧ s.gpr.sp ≠ 5#16)
    {j k : Nat} (hj : 1 ≤ j ∧ j ≤ 3) (hk : 1 ≤ k ∧ k ≤ 3)
    (hjk : j ≠ k) {x : Nat} (hx : x ∈ s.span (s.pushAddress j) 2) : x ∉ s.span (s.pushAddress k) 2 := by
  obtain ⟨h1, h3, h5⟩ := hsp
  have hoff : ∀ {n}, 1 ≤ n ∧ n ≤ 3 →
      (s.gpr.sp - BitVec.ofNat 16 (2 * n)).toNat = (s.gpr.sp.toNat + 2 ^ 16 - 2 * n) % 2 ^ 16 := by
    intro n hn
    rw [BitVec.toNat_sub, BitVec.toNat_ofNat]
    omega
  have hj' := hoff hj
  have hk' := hoff hk
  rw [Ne, ← BitVec.toNat_inj] at h1 h3 h5
  simp only [BitVec.toNat_ofNat] at h1 h3 h5
  have hlt := s.gpr.sp.isLt
  exact State.realSpan_disjoint hp (by omega) (by omega) (by omega) hx

/-- What the three words that a delivery pushes in real address mode do (60_exceptions.md R185). -/
structure RealPushes (s t : State) (f c i : Word) : Prop where
  stack : s.gpr.sp ≠ 1#16 ∧ s.gpr.sp ≠ 3#16 ∧ s.gpr.sp ≠ 5#16
  gpr : t.gpr = { s.gpr with sp := s.gpr.sp - 6#16 }
  plain : ∀ k, 1 ≤ k ∧ k ≤ 3 → s.plainSpan (s.pushAddress k) 2
  flags : (s.span (s.pushAddress 1) 2).map t.mem.read = (wordBytes f).map some
  code : (s.span (s.pushAddress 2) 2).map t.mem.read = (wordBytes c).map some
  ip : (s.span (s.pushAddress 3) 2).map t.mem.read = (wordBytes i).map some
  others : ∀ x, x ∉ s.span (s.pushAddress 1) 2 → x ∉ s.span (s.pushAddress 2) 2 →
    x ∉ s.span (s.pushAddress 3) 2 → t.mem.read x = s.mem.read x
  same : SameButStack s t

theorem State.pushAll_three {s t : State} {f c i : Word} (h : s.pushAll [f, c, i] = .ok t) :
    ∃ u v, s.push f = .ok u ∧ u.push c = .ok v ∧ v.push i = .ok t := by
  simp only [State.pushAll] at h
  split at h
  · cases h
  · next u hu =>
    split at h
    · cases h
    · next v hv =>
      split at h
      · cases h
      · next w hw => cases h; exact ⟨u, v, hu, hv, hw⟩

theorem State.pushAll_realPushes {s t : State} {f c i : Word} (hp : s.pe = false)
    (h : s.pushAll [f, c, i] = .ok t) : RealPushes s t f c i := by
  obtain ⟨u, v, hu, hv, ht⟩ := State.pushAll_three h
  have hsu := State.push_realPush hp hu
  have hpu : u.pe = false := hsu.same.pe.trans hp
  have huv := State.push_realPush hpu hv
  have hpv : v.pe = false := huv.same.pe.trans hpu
  have hvt := State.push_realPush hpv ht
  have hsv := hsu.same.trans huv.same
  -- the second and third word, in terms of the state before the first
  have h2 := huv.stored
  have h3 := hvt.stored
  simp only [StoredAt, SameMemoryBut, hsu.pushAddress, huv.pushAddress, hsu.same.span, hsv.span] at h2 h3
  obtain ⟨hcode, hcodeBut⟩ := h2
  obtain ⟨hip, hipBut⟩ := h3
  obtain ⟨hflags, hflagsBut⟩ := hsu.stored
  have hspu : u.gpr.sp = s.gpr.sp - 2#16 := by rw [hsu.gpr]
  have hspv : v.gpr.sp = s.gpr.sp - 4#16 := by rw [huv.gpr, hspu]; exact BitVec.sub_sub _ _ _
  have hsp : s.gpr.sp ≠ 1#16 ∧ s.gpr.sp ≠ 3#16 ∧ s.gpr.sp ≠ 5#16 := by
    have h1 := hsu.offset
    have h3 := huv.offset
    have h5 := hvt.offset
    rw [hspu] at h3
    rw [hspv] at h5
    bv_omega
  have disjoint := fun {j k} => State.pushed_disjoint (s := s) (j := j) (k := k) hp hsp
  refine ⟨hsp, ?gpr, ?plain, ?flags, ?code, hip, ?others, hsv.trans hvt.same⟩
  case gpr =>
    have hsub : s.gpr.sp - 4#16 - 2#16 = s.gpr.sp - 6#16 := BitVec.sub_sub _ _ _
    rw [hvt.gpr, hspv, huv.gpr, hsu.gpr, hsub]
  case plain =>
    have p1 := hsu.storable.1
    have p2 := ((hsu.same.storableSpan _ _).1 huv.storable).1
    have p3 := ((hsv.storableSpan _ _).1 hvt.storable).1
    rw [hsu.pushAddress] at p2
    rw [huv.pushAddress, hsu.pushAddress] at p3
    rintro k ⟨hk1, hk3⟩
    interval_cases k
    · exact p1
    · exact p2
    · exact p3
  case flags =>
    rw [← hflags]
    refine List.map_congr_left fun x hx => ?_
    exact (hipBut x (disjoint (by decide) (by decide) (by decide) hx)).trans
      (hcodeBut x (disjoint (by decide) (by decide) (by decide) hx))
  case code =>
    rw [← hcode]
    exact List.map_congr_left fun x hx => hipBut x (disjoint (by decide) (by decide) (by decide) hx)
  case others => exact fun x hx1 hx2 hx3 => (hipBut x hx3).trans ((hcodeBut x hx2).trans (hflagsBut x hx1))

/-- The three words can be pushed where none straddles offset 0FFFFh and their bytes can be stored to. -/
theorem State.pushAll_of_storable {s : State} (hp : s.pe = false)
    (hsp : s.gpr.sp ≠ 1#16 ∧ s.gpr.sp ≠ 3#16 ∧ s.gpr.sp ≠ 5#16) (h1 : s.storableSpan (s.pushAddress 1) 2)
    (h2 : s.storableSpan (s.pushAddress 2) 2) (h3 : s.storableSpan (s.pushAddress 3) 2) (f c i : Word) :
    ∃ t, s.pushAll [f, c, i] = .ok t := by
  obtain ⟨hsp1, hsp3, hsp5⟩ := hsp
  obtain ⟨u, hu⟩ := State.push_of_storable hp hsp1 h1 f
  have hsu := State.push_realPush hp hu
  have hpu : u.pe = false := hsu.same.pe.trans hp
  have hspu : u.gpr.sp = s.gpr.sp - 2#16 := by rw [hsu.gpr]
  obtain ⟨v, hv⟩ := State.push_of_storable (s := u) hpu (by rw [hspu]; bv_omega)
    (by rwa [hsu.pushAddress, hsu.same.storableSpan]) c
  have huv := State.push_realPush hpu hv
  have hspv : v.gpr.sp = s.gpr.sp - 4#16 := by rw [huv.gpr, hspu]; exact BitVec.sub_sub _ _ _
  obtain ⟨t, ht⟩ := State.push_of_storable (s := v) (huv.same.pe.trans hpu) (by rw [hspv]; bv_omega)
    (by rwa [huv.pushAddress, hsu.pushAddress, (hsu.same.trans huv.same).storableSpan]) i
  exact ⟨t, by simp only [State.pushAll, hu, hv, ht]⟩

/-- With SP 1, 3 or 5 one of the three words straddles offset 0FFFFh (60_exceptions.md R191). -/
theorem State.pushAll_straddles {s : State} (hp : s.pe = false)
    (h : s.gpr.sp = 1#16 ∨ s.gpr.sp = 3#16 ∧ s.storableSpan (s.pushAddress 1) 2 ∨
      s.gpr.sp = 5#16 ∧ s.storableSpan (s.pushAddress 1) 2 ∧ s.storableSpan (s.pushAddress 2) 2) (f c i : Word) :
    s.pushAll [f, c, i] = .error (.exc .overrun) := by
  by_cases hsp1 : s.gpr.sp = 1#16
  · simp only [State.pushAll, State.push_straddles hp hsp1]
  · have h' := h.resolve_left hsp1
    have h1 : s.storableSpan (s.pushAddress 1) 2 := h'.elim And.right fun h5 => h5.2.1
    obtain ⟨u, hu⟩ := State.push_of_storable hp hsp1 h1 f
    have hsu := State.push_realPush hp hu
    have hpu : u.pe = false := hsu.same.pe.trans hp
    have hspu : u.gpr.sp = s.gpr.sp - 2#16 := by rw [hsu.gpr]
    obtain ⟨hsp3, -⟩ | ⟨hsp5, -, h2⟩ := h'
    · have hspu1 : u.gpr.sp = 1#16 := by rw [hspu, hsp3]; rfl
      simp only [State.pushAll, hu, State.push_straddles hpu hspu1]
    · obtain ⟨v, hv⟩ := State.push_of_storable (s := u) hpu (by rw [hspu, hsp5]; decide)
        (by rwa [hsu.pushAddress, hsu.same.storableSpan]) c
      have huv := State.push_realPush hpu hv
      have hspv1 : v.gpr.sp = 1#16 := by rw [huv.gpr, hspu, hsp5]; rfl
      simp only [State.pushAll, hu, hv, State.push_straddles (huv.same.pe.trans hpu) hspv1]

end Sys2Proof.Machine
end

section
/-! PROOF. Exceptions in real address mode (60_exceptions.md R185, R190, R191): the delivery, what stops it, and the
return from it. -/

namespace Sys2Proof.Machine

/-! ### The delivery -/

/-- Delivery past the vector check and the pushes enters at the vector's entry (R185). -/
theorem State.deliverReal_of_pushAll {s t : State} {n : Nat} {b0 b1 b2 b3 : Byte}
    (hn : 4 * n + 3 ≤ s.idtr.limit.toNat) (ht : s.pushAll [s.flags, s.cs.sel, s.ip] = .ok t)
    (hr : t.memRead (s.idtr.base.toNat + 4 * n) 4 = .ok [b0, b1, b2, b3]) :
    s.deliverReal n =
      .ok (({ t with flags := clearIfTf s.flags } : State).transfer (realCodeSeg (b3 ++ b2)) (b1 ++ b0)) := by
  have hip : leWord [b0, b1, b2, b3] = b1 ++ b0 := tableOfImage_limit b0 b1 [b2, b3]
  have hcs : leWord ([b0, b1, b2, b3].drop 2) = b3 ++ b2 := tableOfImage_limit b2 b3 []
  rw [State.deliverReal, if_neg (Nat.not_lt.2 hn), ht]
  simp only [hr, hip, hcs]

/-- A delivery in real address mode that answers a state has pushed its three words and read the vector's entry. -/
theorem State.deliverReal_ok {s t : State} {n : Nat} (h : s.deliverReal n = .ok t) :
    ∃ u ip sel, s.pushAll [s.flags, s.cs.sel, s.ip] = .ok u ∧
      t = ({ u with flags := clearIfTf s.flags } : State).transfer (realCodeSeg sel) ip := by
  unfold State.deliverReal at h
  split at h
  · cases h
  · split at h
    · cases h
    · next u hu =>
      split at h
      · cases h
      · cases h; exact ⟨u, _, _, hu, rfl⟩

theorem State.deliverReal_beyondTable {s : State} {n : Nat} (h : s.idtr.limit.toNat < 4 * n + 3) :
    s.deliverReal n = .error (.exc .doubleFault) := by
  rw [State.deliverReal, if_pos h]

/-- Where the words cannot be pushed, every vector stops with an exception. -/
theorem State.deliverReal_of_pushAll_exc {s : State} {x : Exc}
    (h : s.pushAll [s.flags, s.cs.sel, s.ip] = .error (.exc x)) (n : Nat) : ∃ y, s.deliverReal n = .error (.exc y) := by
  rw [State.deliverReal, h]
  split
  · exact ⟨_, rfl⟩
  · exact ⟨_, rfl⟩

theorem clearIfTf_getLsbD (f : Word) (i : Nat) :
    (clearIfTf f).getLsbD i = if i = 8 ∨ i = 9 then false else f.getLsbD i := by
  rw [clearIfTf, putBit_getLsbD _ _ _ _ (by decide), putBit_getLsbD _ _ _ _ (by decide)]
  by_cases h8 : i = 8
  · simp [h8]
  · simp [h8]

/-- CS loaded in real address mode: base = selector * 16 (10_state.md R26). -/
theorem realCodeSeg_base (sel : Word) : (realCodeSeg sel).base.toNat = 16 * sel.toNat := by
  have hlt : sel.toNat < 2 ^ 16 := sel.isLt
  simp only [realCodeSeg, BitVec.toNat_ofNat]
  omega

/-- Pushed words leave every byte that was written written. -/
theorem RealPushes.written {s t : State} {f c i : Word} (h : RealPushes s t f c i) {x : Nat}
    (hx : (s.mem.read x).isSome = true) : (t.mem.read x).isSome = true := by
  have stored : ∀ {a w}, (s.span a 2).map t.mem.read = (wordBytes w).map some → x ∈ s.span a 2 →
      (t.mem.read x).isSome = true := by
    intro a w hw hm
    obtain ⟨b, -, hb⟩ := List.mem_map.1 (hw ▸ List.mem_map_of_mem hm : t.mem.read x ∈ (wordBytes w).map some)
    rw [← hb]; rfl
  by_cases h1 : x ∈ s.span (s.pushAddress 1) 2
  · exact stored h.flags h1
  · by_cases h2 : x ∈ s.span (s.pushAddress 2) 2
    · exact stored h.code h2
    · by_cases h3 : x ∈ s.span (s.pushAddress 3) 2
      · exact stored h.ip h3
      · rwa [h.others x h1 h2 h3]

/-- A delivery that meets no second exception answers a state: the words pushed, and CS:IP from the vector's entry as it
then stands. -/
theorem State.RealDeliverable.deliverReal {s : State} {n : Nat} (h : s.RealDeliverable n) :
    ∃ t b0 b1 b2 b3, RealPushes s t s.flags s.cs.sel s.ip ∧
      (s.span (s.idtr.base.toNat + 4 * n) 4).map t.mem.read = [b0, b1, b2, b3].map some ∧
      s.deliverReal n =
        .ok (({ t with flags := clearIfTf s.flags } : State).transfer (realCodeSeg (b3 ++ b2)) (b1 ++ b0)) := by
  obtain ⟨t, ht⟩ := State.pushAll_of_storable h.real h.stack h.flags h.code h.ip s.flags s.cs.sel s.ip
  have hpush := State.pushAll_realPushes h.real ht
  have hread : t.readableSpan (s.idtr.base.toNat + 4 * n) 4 := by
    obtain ⟨hplain, hwritten⟩ := h.entry
    refine ⟨fun x hx => ?_, fun x hx => ?_⟩
    · rw [hpush.same.span] at hx
      rw [State.isDevice_congr hpush.same.plat]
      exact hplain x hx
    · rw [hpush.same.span] at hx
      exact hpush.written (hwritten x hx)
  obtain ⟨bs, hbs, hbytes⟩ := State.memRead_of_readableSpan hread
  rw [hpush.same.span] at hbytes
  obtain ⟨b0, b1, b2, b3, rfl⟩ : ∃ b0 b1 b2 b3, bs = [b0, b1, b2, b3] :=
    List.length_eq_four.1 (State.memRead_length hbs)
  exact ⟨t, b0, b1, b2, b3, hpush, hbytes, State.deliverReal_of_pushAll h.vector ht hbs⟩

theorem State.deliver_real {s : State} (hp : s.pe = false) (e : Exc) : s.deliver e = s.deliverReal e.vector := by
  rw [State.deliver, hp, if_neg Bool.false_ne_true]

theorem State.record_real {s : State} (hp : s.pe = false) (e : Exc) :
    s.record e = { vector := e.vector, code := none, cs := s.cs.sel, ip := s.ip } := by
  rw [State.record, hp]; rfl

/-- Settles O52: the delivery is `deliverReal`, its pushes leave three disjoint words, and the entry is read after
them. -/
theorem realModeDeliveryFollowsTheSequence : Obligations.RealModeDeliveryFollowsTheSequence := by
  intro s e h
  obtain ⟨t, b0, b1, b2, b3, hpush, hbytes, hd⟩ := h.deliverReal
  have hsame := hpush.same
  rw [← State.deliver_real h.real] at hd
  have hraise := State.raise_of_deliver h.delivered hd
  rw [State.record_real h.real] at hraise
  refine ⟨_, b0, b1, b2, b3, hraise, hbytes, rfl, rfl, realCodeSeg_base _, rfl, rfl, rfl, ?_, hsame.regs, hpush.flags,
    hpush.code, hpush.ip, hpush.others, clearIfTf_getLsbD s.flags, rfl, rfl, rfl, hsame.msw,
    ⟨hsame.gdtr, hsame.idtr, hsame.ldtr⟩, hsame.cpl, hsame.ds, hsame.ss, hsame.es⟩
  exact congrArg Gpr.sp hpush.gpr

/-! ### Deliveries that meet a second exception -/

/-- A second exception while delivering is the double fault of the same state (R191; log 39). -/
theorem State.takeException_of_second {s u : State} {e x : Exc} (h : s.deliver e = .error (.exc x))
    (hd : s.deliver .doubleFault = .ok u) :
    s.takeException e = .next { u with lastException := some (s.record .doubleFault) } := by
  rw [State.takeException, h]
  simp only [hd]

/-- A third exception shuts the processor down (R191). -/
theorem State.takeException_of_third {s : State} {e x y : Exc} (h : s.deliver e = .error (.exc x))
    (hd : s.deliver .doubleFault = .error (.exc y)) : s.takeException e = .fault (.shutdown (s.record e)) := by
  rw [State.takeException, h]
  simp only [hd]

/-- Settles O53: a vector beyond the table and a stack that wraps both stop the delivery with an exception, and so does
the double fault's own delivery in the two last cases. -/
theorem undeliverableExceptionsDoubleFaultOrShutDown : Obligations.UndeliverableExceptionsDoubleFaultOrShutDown := by
  intro s e hr hp
  have deliver := State.deliver_real hp
  rw [State.raise_chip hr, ← State.record_real hp]
  refine ⟨fun hn h8 => ?_, fun hn h8 => ?_, fun hsp => ?_⟩
  · obtain ⟨t, b0, b1, b2, b3, -, -, hd⟩ := h8.deliverReal
    refine ⟨_, State.takeException_of_second ((deliver e).trans (State.deliverReal_beyondTable hn))
      ((deliver .doubleFault).trans hd), ?_⟩
    rw [State.record_real hp]; rfl
  · exact State.takeException_of_third ((deliver e).trans (State.deliverReal_beyondTable hn))
      ((deliver .doubleFault).trans (State.deliverReal_beyondTable h8))
  · have hstop := State.deliverReal_of_pushAll_exc (State.pushAll_straddles hp hsp s.flags s.cs.sel s.ip)
    obtain ⟨x, hx⟩ := hstop e.vector
    obtain ⟨y, hy⟩ := hstop Exc.doubleFault.vector
    exact State.takeException_of_third ((deliver e).trans hx) ((deliver .doubleFault).trans hy)

/-- Settles O50: exception 7 is the first test of ESC, and its delivery in real address mode is that of `deliverReal`;
the rest are the later tests. -/
theorem escTakesExceptionSeven : Obligations.EscTakesExceptionSeven := by
  refine fun s ovr x y rm => ⟨fun h => ?traps, fun hem hts => ?passes⟩
  case traps =>
    have htrap := execEsc_traps (s.escTraps_iff.2 h) ovr x y rm
    refine ⟨htrap, fun hd => ?_⟩
    obtain ⟨t, -, -, -, -, hraise, -, -, -, -, -, -, -, hsp, hregs, -, -, -, -, -, hlast, -, -, hmsw, htables, -⟩ :=
      realModeDeliveryFollowsTheSequence s .nm hd
    exact ⟨t, htrap.trans hraise, hlast, hsp, hregs, hmsw, htables⟩
  case passes =>
    have hnot : ¬ s.escTraps = true := by simp [State.escTraps, hem, hts]
    rw [execEsc_of_not_traps hnot]
    refine ⟨fun hr he => if_pos ⟨hr, he⟩, fun h => if_neg ?_⟩
    rintro ⟨hr, he⟩
    obtain h | h := h
    · rw [hr] at h; cases h
    · rw [he] at h; cases h

end Sys2Proof.Machine
end

section
/-! PROOF. The return in real address mode (60_exceptions.md R190; logs 11, 28): the three words that a delivery pushed,
popped again. -/

namespace Sys2Proof.Machine

theorem leWord_wordBytes (w : Word) : leWord (wordBytes w) = w := by
  rw [wordBytes, ← leBytes_word, leWord_leBytes]

/-- The state with SP at another offset. -/
def State.withSP (s : State) (v : Word) : State := { s with gpr := { s.gpr with sp := v } }

@[simp] theorem State.withSP_sp (s : State) (v : Word) : (s.withSP v).gpr.sp = v := rfl

@[simp] theorem State.withSP_withSP (s : State) (v w : Word) : (s.withSP v).withSP w = s.withSP w := rfl

/-- The `k`-th word pushed from `s` is popped from any state with SP there and the same stack segment and memory. -/
theorem State.pop_pushed {s t : State} {k : Nat} {w : Word} (hp : s.pe = false) (hmsw : t.msw = s.msw)
    (hplat : t.plat = s.plat) (hss : t.ss = s.ss) (hsp : t.gpr.sp = s.gpr.sp - BitVec.ofNat 16 (2 * k))
    (hoff : t.gpr.sp ≠ 0xFFFF#16) (hplain : s.plainSpan (s.pushAddress k) 2)
    (hbytes : (s.span (s.pushAddress k) 2).map t.mem.read = (wordBytes w).map some) :
    t.pop = .ok (w, t.withSP (t.gpr.sp + 2#16)) := by
  have hpt : t.pe = false := (State.pe_congr hmsw).trans hp
  have haddr : t.realAddress .ss t.gpr.sp = s.pushAddress k := by
    rw [State.pushAddress, State.realAddress, State.realAddress, State.seg, State.seg, hplat, hss, hsp]
  have ha : t.segAccess .ss t.gpr.sp 2 .read = .ok (s.pushAddress k) := by
    rw [← haddr]
    exact State.segAccess_real .read hpt (by bv_omega)
  have hread : t.memRead (s.pushAddress k) 2 = .ok (wordBytes w) := by
    rw [State.memRead_ok_iff, State.span_congr hmsw hplat]
    refine ⟨fun x hx => ?_, hbytes⟩
    rw [State.isDevice_congr hplat]
    exact hplain x hx
  simp only [State.pop, State.segRead_of_segAccess ha, hread, leWord_wordBytes, State.withSP]

/-- Three words popped are IP, CS and FLAGS (R190). -/
theorem State.returnReal_of_pops {s s1 s2 s3 : State} {ip cs f : Word} (h1 : s.pop = .ok (ip, s1))
    (h2 : s1.pop = .ok (cs, s2)) (h3 : s2.pop = .ok (f, s3)) :
    s.returnReal = .ok (({ s3 with flags := f } : State).transfer (realCodeSeg cs) ip) := by
  simp only [State.returnReal, h1, h2, h3]

/-- THE RETURN from a state with SP below the three words and the memory that holds them takes SP back, and IP, CS and
FLAGS from the words. -/
theorem RealPushes.returnReal {s u t : State} {f c i : Word} (h : RealPushes s u f c i) (hp : s.pe = false)
    (hmsw : t.msw = s.msw) (hplat : t.plat = s.plat) (hss : t.ss = s.ss) (hsp : t.gpr.sp = s.gpr.sp - 6#16)
    (hmem : t.mem = u.mem) :
    t.returnReal = .ok (({ t.withSP s.gpr.sp with flags := f } : State).transfer (realCodeSeg c) i) := by
  have h4 : s.gpr.sp - 6#16 + 2#16 = s.gpr.sp - 4#16 := by bv_omega
  have h2 : s.gpr.sp - 4#16 + 2#16 = s.gpr.sp - 2#16 := by bv_omega
  have h0 : s.gpr.sp - 2#16 + 2#16 = s.gpr.sp := by bv_omega
  obtain ⟨hsp1, hsp3, hsp5⟩ := h.stack
  have pop3 : t.pop = .ok (i, t.withSP (s.gpr.sp - 4#16)) := by
    rw [← h4, ← hsp]
    exact State.pop_pushed (k := 3) hp hmsw hplat hss hsp (by rw [hsp]; bv_omega) (h.plain 3 (by decide))
      (hmem ▸ h.ip)
  have pop2 : (t.withSP (s.gpr.sp - 4#16)).pop = .ok (c, t.withSP (s.gpr.sp - 2#16)) := by
    rw [← h2]
    exact State.pop_pushed (k := 2) (t := t.withSP (s.gpr.sp - 4#16)) hp hmsw hplat hss rfl
      (by rw [State.withSP_sp]; bv_omega) (h.plain 2 (by decide)) (hmem ▸ h.code : _)
  have pop1 : (t.withSP (s.gpr.sp - 2#16)).pop = .ok (f, t.withSP s.gpr.sp) := by
    conv_rhs => rw [← h0]
    exact State.pop_pushed (k := 1) (t := t.withSP (s.gpr.sp - 2#16)) hp hmsw hplat hss rfl
      (by rw [State.withSP_sp]; bv_omega) (h.plain 1 (by decide)) (hmem ▸ h.flags : _)
  exact State.returnReal_of_pops pop3 pop2 pop1

/-- Settles O56: SP stands below the three words, which memory still holds, and popping them moves it back. -/
theorem returnUndoesRealModeDelivery : Obligations.ReturnUndoesRealModeDelivery := by
  intro s t n hp h
  obtain ⟨u, ip, sel, hu, rfl⟩ := State.deliverReal_ok h
  have hpush := State.pushAll_realPushes hp hu
  have hsame := hpush.same
  refine ⟨_, hpush.returnReal hp hsame.msw hsame.plat hsame.ss (congrArg Gpr.sp hpush.gpr) rfl, rfl, rfl, rfl, ?_,
    hsame.msw, ⟨hsame.gdtr, hsame.idtr, hsame.ldtr⟩, hsame.ds, hsame.ss, hsame.es, fun _ => rfl⟩
  exact congrArg (fun g : Gpr => { g with sp := s.gpr.sp }) hpush.gpr

end Sys2Proof.Machine
end

section
/-! PROOF. Exceptions in protected mode (60_exceptions.md R184, R186, R191; log 12): the gate in the interrupt table, the
handler it names, and what happens where either cannot be used. -/

namespace Sys2Proof.Machine

/-! ### What taking an exception leaves -/

/-- Settles O55: `Entered` says it of the delivery that was made, and the record is that delivery's. -/
theorem takingAnExceptionLeavesTheRest : Obligations.TakingAnExceptionLeavesTheRest := by
  intro s t e h
  have k := State.raise_entered h
  refine ⟨k.regs, k.msw, ⟨k.gdtr, k.idtr, k.ldtr⟩, k.cpl, k.ds, k.ss, k.es, k.tf, k.flags, ?_⟩
  obtain ⟨-, e', u, rfl | rfl, -, rfl⟩ := State.raise_next h
  · exact .inl rfl
  · exact .inr rfl

/-! ### Gates and handlers -/

/-- An entry of the interrupt table that is no gate (20_memory.md R69). -/
theorem gateOf_eq_none {a : Byte} (h : a.getLsbD 4 = true ∨ a.toNat % 16 ∉ [5, 6, 7]) : gateOf a = none := by
  unfold gateOf
  rw [arType_toNat]
  split
  · rfl
  · next hs =>
    have ht := h.resolve_left hs
    split
    · next h5 => simp [h5] at ht
    · next h6 => simp [h6] at ht
    · next h7 => simp [h7] at ht
    · rfl

theorem gateOf_task {a : Byte} (hs : a.getLsbD 4 = false) (ht : a.toNat % 16 = 5) : gateOf a = some .task := by
  simp only [gateOf, arSegment, hs, Bool.false_eq_true, if_false, arType_toNat, ht]

theorem gateOf_interrupt {a : Byte} (hs : a.getLsbD 4 = false) (ht : a.toNat % 16 = 6) :
    gateOf a = some .interrupt := by
  simp only [gateOf, arSegment, hs, Bool.false_eq_true, if_false, arType_toNat, ht]

theorem gateOf_trap {a : Byte} (hs : a.getLsbD 4 = false) (ht : a.toNat % 16 = 7) : gateOf a = some .trap := by
  simp only [gateOf, arSegment, hs, Bool.false_eq_true, if_false, arType_toNat, ht]

/-- Interrupt and trap gates are the ones that lead to a handler, and the type says which. -/
theorem gateOf_handler {a : Byte} (hs : a.getLsbD 4 = false) (ht : a.toNat % 16 = 6 ∨ a.toNat % 16 = 7) :
    ∃ g, gateOf a = some g ∧ g ≠ .task ∧ (g = .interrupt ↔ a.toNat % 16 = 6) := by
  obtain h6 | h7 := ht
  · exact ⟨_, gateOf_interrupt hs h6, by decide, by simp [h6]⟩
  · exact ⟨_, gateOf_trap hs h7, by decide, by simp [h7]⟩

/-- The handlers that a gate may enter at the current privilege level are those of the spec's words. -/
theorem State.sameLevelHandler_iff (s : State) (d : Descriptor) (ip : Word) :
    s.sameLevelHandler d ip = true ↔ s.HandlerHere d ip := by
  have hlevel : arDPL d.access = s.cpl ↔ d.access.toNat / 32 % 4 = s.cpl.toNat := by
    rw [← BitVec.toNat_inj, arDPL_toNat]
  cases hc : d.access.getLsbD 2 <;>
    simp only [State.sameLevelHandler, State.HandlerHere, arSegment, arCode, arPresent, arBit2, arDPL_toNat, hlevel, hc,
      Bool.and_eq_true, decide_eq_true_iff, if_true, if_false, Bool.false_eq_true, Bool.true_eq_false, true_and,
      false_and, or_false, false_or] <;>
    tauto

/-! ### The interrupt table -/

/-- Byte 5 of an entry is its access rights byte. -/
theorem gateAccess_eq (g0 g1 g2 g3 g4 g5 : Byte) :
    BitVec.ofNat 8 (leNat ([g0, g1, g2, g3, g4, g5].drop 5)) = g5 :=
  congrArg Descriptor.access (Descriptor.ofBytes_six g0 g1 g2 g3 g4 g5)

/-- The selector of an entry is its bytes 2 and 3, and the offset its bytes 0 and 1. -/
theorem gateSelector_eq (g0 g1 g2 g3 g4 g5 : Byte) : leWord ([g0, g1, g2, g3, g4, g5].drop 2) = g3 ++ g2 :=
  tableOfImage_limit g2 g3 [g4, g5]

theorem gateOffset_eq (g0 g1 g2 g3 g4 g5 : Byte) : leWord [g0, g1, g2, g3, g4, g5] = g1 ++ g0 :=
  tableOfImage_limit g0 g1 [g2, g3, g4, g5]

theorem State.deliverProtected_beyondTable {s : State} {e : Exc} (h : s.idtr.limit.toNat < 8 * e.vector + 7) :
    ∃ x, s.deliverProtected e = .error (.exc x) := by
  rw [State.deliverProtected, if_pos h]
  exact ⟨_, rfl⟩

section
variable {s : State} {e : Exc} {g0 g1 g2 g3 g4 g5 : Byte} (hn : 8 * e.vector + 7 ≤ s.idtr.limit.toNat)
  (hr : s.memRead (s.idtr.base.toNat + 8 * e.vector) 6 = .ok [g0, g1, g2, g3, g4, g5])
include hn hr

theorem State.deliverProtected_noGate (hg : gateOf g5 = none) : ∃ x, s.deliverProtected e = .error (.exc x) := by
  simp only [State.deliverProtected, Nat.not_lt.2 hn, if_false, hr, gateAccess_eq, hg]
  exact ⟨_, rfl⟩

theorem State.deliverProtected_task (hg : gateOf g5 = some .task) :
    s.deliverProtected e = .error (.fault (.exceptionEndsRun (s.record e))) := by
  simp only [State.deliverProtected, Nat.not_lt.2 hn, if_false, hr, gateAccess_eq, hg]

theorem State.deliverProtected_absent {g : Gate} (hg : gateOf g5 = some g) (hp : g5.getLsbD 7 = false) :
    s.deliverProtected e = .error (.fault (.exceptionEndsRun (s.record e))) := by
  have habsent : arPresent g5 = false := hp
  cases g <;> simp only [State.deliverProtected, Nat.not_lt.2 hn, if_false, hr, gateAccess_eq, hg, habsent, Bool.not_false,
    if_true]

/-- A present interrupt or trap gate to a handler of the current level enters it. -/
theorem State.deliverProtected_enters {g : Gate} {d : Descriptor} {a : Nat} (hg : gateOf g5 = some g) (hgt : g ≠ .task)
    (hp : g5.getLsbD 7 = true) (hf : s.fetchDesc (g3 ++ g2) = .ok (.desc d)) (ha : s.descAddr (g3 ++ g2) = some a)
    (hd : s.HandlerHere d (g1 ++ g0)) :
    s.deliverProtected e = s.enterHandler e g (g3 ++ g2) (g1 ++ g0) d a := by
  have hpresent : arPresent g5 = true := hp
  have hhere := (s.sameLevelHandler_iff d (g1 ++ g0)).2 hd
  cases g with
  | task => exact absurd rfl hgt
  | interrupt | trap =>
    simp only [State.deliverProtected, Nat.not_lt.2 hn, if_false, hr, gateAccess_eq, hg, hpresent, Bool.not_true,
      Bool.false_eq_true, gateSelector_eq, gateOffset_eq, hf, ha, hhere, if_true]

/-- A present interrupt or trap gate to anything else ends the run. -/
theorem State.deliverProtected_noHandler {g : Gate} {l : Lookup} (hg : gateOf g5 = some g) (hgt : g ≠ .task)
    (hp : g5.getLsbD 7 = true) (hf : s.fetchDesc (g3 ++ g2) = .ok l)
    (hd : ¬ Names l (fun d => s.HandlerHere d (g1 ++ g0))) :
    s.deliverProtected e = .error (.fault (.exceptionEndsRun (s.record e))) := by
  have hpresent : arPresent g5 = true := hp
  have hhere : ∀ d, l = .desc d → s.sameLevelHandler d (g1 ++ g0) = false := fun d hl =>
    Bool.eq_false_iff.2 fun h => hd ⟨d, hl, (s.sameLevelHandler_iff d _).1 h⟩
  cases g with
  | task => exact absurd rfl hgt
  | interrupt | trap =>
    simp only [State.deliverProtected, Nat.not_lt.2 hn, if_false, hr, gateAccess_eq, hg, hpresent, Bool.not_true,
      Bool.false_eq_true, gateSelector_eq, gateOffset_eq, hf]
    cases l with
    | null => rfl
    | outOfTable => rfl
    | desc d =>
      cases s.descAddr (g3 ++ g2) with
      | none => rfl
      | some a => simp only [hhere d rfl, Bool.false_eq_true, if_false]

end

/-! ### Entering the handler -/

theorem clearForGate_getLsbD (b : Bool) (f : Word) (i : Nat) :
    (clearForGate b f).getLsbD i = if i = 8 ∨ i = 14 ∨ (i = 9 ∧ b = true) then false else f.getLsbD i := by
  have hif : (if b then putBit f 9 false else f).getLsbD i = if i = 9 ∧ b = true then false else f.getLsbD i := by
    cases b
    · simp
    · simp only [if_true, and_true, putBit_getLsbD _ _ _ _ (show 9 < 16 by decide)]
  rw [clearForGate, putBit_getLsbD _ _ _ _ (by decide), putBit_getLsbD _ _ _ _ (by decide), hif]
  by_cases h14 : i = 14
  · simp [h14]
  · by_cases h8 : i = 8
    · simp [h8]
    · simp [h14, h8]

/-- In protected mode one byte stored is the byte at its address modulo 2^24. -/
theorem State.memWrite_byte {s t : State} {a : Nat} {b : Byte} (hp : s.pe = true) (h : s.memWrite a [b] = .ok t) :
    t.mem.read (a % 2 ^ 24) = some b ∧ ∀ x, x ≠ a % 2 ^ 24 → t.mem.read x = s.mem.read x := by
  have hspace : s.addressSpace = 2 ^ 24 := by simp [State.addressSpace, hp]
  refine ⟨?_, fun x hx => (State.memWrite_ok h).2.1 x fun hm => hx ?_⟩
  · have hread := State.memWrite_read h (by simp) 0 (by simp)
    rwa [hspace] at hread
  · obtain ⟨i, hi, rfl⟩ := State.mem_span.1 hm
    rw [hspace, Nat.lt_one_iff.1 hi, Nat.add_zero]

/-- The delivery past the pushes: the accessed bit is stored and the handler entered (log 12). -/
theorem State.enterHandler_of_pushAll {s u v : State} {e : Exc} {g : Gate} {sel ip : Word} {d : Descriptor} {a : Nat}
    (hu : s.pushAll ([s.flags, s.cs.sel, s.ip] ++ e.code.toList) = .ok u)
    (hv : u.memWrite (a + 5) [arAccessed d.access] = .ok v) :
    s.enterHandler e g sel ip d a =
      .ok (({ v with flags := clearForGate (g = Gate.interrupt) s.flags } : State).transfer (s.handlerSeg sel d) ip) := by
  simp only [State.enterHandler, hu, hv]

theorem State.deliver_protected {s : State} (hp : s.pe = true) (e : Exc) : s.deliver e = s.deliverProtected e := by
  rw [State.deliver, hp, if_pos rfl]

theorem State.record_protected {s : State} (hp : s.pe = true) (e : Exc) :
    s.record e = { vector := e.vector, code := e.code, cs := s.cs.sel, ip := s.ip } := by
  rw [State.record, hp, if_pos rfl]

/-- Settles O54: the gate leads to `enterHandler`, which stores one byte after the pushes and loads CS from the
descriptor. -/
theorem protectedDeliveryEntersASameLevelHandler : Obligations.ProtectedDeliveryEntersASameLevelHandler := by
  intro s u e g0 g1 g2 g3 g4 g5 d a hrul hp hn hr hpres hsys htype hf ha hd hu hs
  have hsame := State.pushAll_same hu
  obtain ⟨g, hg, hgt, hgi⟩ := gateOf_handler hsys htype
  obtain ⟨v, hv⟩ := State.memWrite_of_storableSpan (s := u) (bs := [arAccessed d.access])
    ((hsame.storableSpan (a + 5) 1).2 hs)
  obtain ⟨hbyte, hothers⟩ := State.memWrite_byte (hsame.pe.trans hp) hv
  have hsv := hsame.trans (SameButStack.of_memWrite hv)
  have hdeliver : s.deliver e = _ := (State.deliver_protected hp e).trans
    ((State.deliverProtected_enters hn hr hg hgt hpres hf ha hd).trans (State.enterHandler_of_pushAll hu hv))
  have hraise := State.raise_of_deliver hrul hdeliver
  rw [State.record_protected hp] at hraise
  refine ⟨_, hraise, rfl, rfl, rfl, rfl, rfl, rfl, hsv.cpl, (State.memWrite_ok hv).1.gpr, hothers, hbyte, fun i => ?_, rfl,
    rfl, rfl, hsv.msw, ⟨hsv.gdtr, hsv.idtr, hsv.ldtr⟩, hsv.ds, hsv.ss, hsv.es⟩
  refine (clearForGate_getLsbD _ s.flags i).trans ?_
  simp only [decide_eq_true_iff, hgi]

/-! ### Deliveries that end -/

/-- A stop of the delivery that is no exception ends the run. -/
theorem State.takeException_of_fault {s : State} {e : Exc} {f : Fault} (h : s.deliver e = .error (.fault f)) :
    s.takeException e = .fault f := by
  rw [State.takeException, h]

/-- WHERE THE DELIVERY MEETS AN EXCEPTION in protected mode, the double fault's own delivery decides: shutdown where
the table does not hold its entry, and its next state where it has one (R191; log 39). -/
theorem State.raise_of_second {s : State} {e x : Exc} (hrul : s.plat.rulings = .chip) (hp : s.pe = true)
    (h : s.deliverProtected e = .error (.exc x)) :
    (s.idtr.limit.toNat < 71 → s.raise e = .fault (.shutdown (s.record e))) ∧
      ∀ t, s.raise .doubleFault = .next t → s.raise e = .next t := by
  rw [← State.deliver_protected hp] at h
  rw [State.raise_chip hrul]
  refine ⟨fun hn => ?_, fun t ht => ?_⟩
  · obtain ⟨y, hy⟩ := State.deliverProtected_beyondTable (s := s) (e := .doubleFault) hn
    exact State.takeException_of_third h ((State.deliver_protected hp _).trans hy)
  · obtain ⟨-, e', u, rfl | rfl, hu, rfl⟩ := State.raise_next ht
    · exact State.takeException_of_second h hu
    · exact State.takeException_of_second h hu

/-- Settles O60: a vector beyond the table and an entry that is no gate stop the delivery with GP; the other unusable
gates and handlers end the run. -/
theorem undeliverableExceptionsInProtectedMode : Obligations.UndeliverableExceptionsInProtectedMode := by
  intro s e hrul hp
  have ends : s.deliverProtected e = .error (.fault (.exceptionEndsRun (s.record e))) →
      s.raise e = .fault (.exceptionEndsRun (s.record e)) := fun h =>
    (State.raise_chip hrul e).trans (State.takeException_of_fault ((State.deliver_protected hp e).trans h))
  refine ⟨fun hn => ?beyond, fun g0 g1 g2 g3 g4 g5 hn hr => ⟨fun hno => ?noGate, fun hs ht => ?task, fun hs ht =>
    ⟨fun habs => ?absent, fun l hpres hf hd => ?noHandler⟩⟩⟩
  case beyond =>
    obtain ⟨x, hx⟩ := State.deliverProtected_beyondTable hn
    exact State.raise_of_second hrul hp hx
  case noGate =>
    obtain ⟨x, hx⟩ := State.deliverProtected_noGate hn hr (gateOf_eq_none hno)
    exact State.raise_of_second hrul hp hx
  case task => exact ends (State.deliverProtected_task hn hr (gateOf_task hs ht))
  case absent =>
    obtain ⟨g, hg, -⟩ := gateOf_handler hs ht
    exact ends (State.deliverProtected_absent hn hr hg habs)
  case noHandler =>
    obtain ⟨g, hg, hgt, -⟩ := gateOf_handler hs ht
    exact ends (State.deliverProtected_noHandler hn hr hg hgt hpres hf hd)

end Sys2Proof.Machine
end

section
/-! PROOF. The spec's rulings (log 36): a step that goes on is an instruction that completed or waits, since taking an
exception ends the run. -/

namespace Sys2Proof.Machine

/-! ### Steps under the spec's rulings -/

theorem State.raise_spec_ne_next {s : State} (h : s.plat.rulings = .spec) (e : Exc) (t : State) :
    s.raise e ≠ .next t := by
  rw [State.raise_spec h]
  intro hne
  cases hne

/-- UNDER THE SPEC'S RULINGS a step that answers a next state has held the machine or completed its instruction. -/
theorem step_next_spec {s t : State} (hr : s.plat.rulings = .spec) (h : step s = .next t) :
    t = s ∨ ∃ i u, effect i s = .ok u ∧ t = u.advance i.length := by
  obtain ⟨i, u, -, hu, ht⟩ | ⟨-, e, he⟩ := step_next h
  · have hexec : u = s ∨ ∃ v, effect i s = .ok v ∧ u = v.advance i.length := by
      obtain ⟨hus, -⟩ | ⟨e, he⟩ | hv := exec_next hu
      · exact .inl hus
      · exact absurd he (State.raise_spec_ne_next hr e u)
      · exact .inr hv
    have hplat : u.plat = s.plat := by
      obtain rfl | ⟨v, hv, rfl⟩ := hexec
      · rfl
      · exact (effect_system hv).plat
    obtain rfl | ⟨-, ht⟩ := ht
    · exact hexec.imp_right fun ⟨v, hv⟩ => ⟨i, v, hv⟩
    · exact absurd ht (State.raise_spec_ne_next (hplat ▸ hr) .singleStep t)
  · exact absurd he (State.raise_spec_ne_next hr e t)

/-! ### The program text -/

theorem State.writeRM_text {s t : State} {ovr : Option SegName} {rm : RM} {v : Word} {x : Nat}
    (h : s.writeRM ovr rm v = .ok t) (hx : s.isText x = true) : t.mem.read x = s.mem.read x := by
  obtain ⟨r, -, rfl⟩ | ⟨m, a, -, -, hw⟩ := State.writeRM_ok h
  · rfl
  · exact State.memWrite_text hw hx

theorem State.writeTable_text {s t : State} {ovr : Option SegName} {rm : RM} {r : TableReg} {x : Nat}
    (h : s.writeTable ovr rm r = .ok t) (hx : s.isText x = true) : t.mem.read x = s.mem.read x := by
  obtain ⟨m, a, -, -, hw⟩ := State.writeTable_ok h
  exact State.memWrite_text hw hx

/-- No effect writes a byte of the immutable program text (20_memory.md R84). -/
theorem effect_text {i : Instr} {s t : State} {x : Nat} (h : effect i s = .ok t) (hx : s.isText x = true) :
    t.mem.read x = s.mem.read x := by
  cases i with
  | clts o => obtain ⟨-, rfl⟩ := cltsEffect_ok h; rfl
  | lgdt o rm => obtain ⟨r, -, rfl⟩ := lgdtEffect_ok h; rfl
  | sgdt o rm => exact State.writeTable_text h hx
  | lidt o rm => obtain ⟨r, -, rfl⟩ := lidtEffect_ok h; rfl
  | sidt o rm => exact State.writeTable_text h hx
  | lldt o rm => obtain ⟨-, -, l, rfl⟩ := lldtEffect_ok h; rfl
  | sldt o rm => exact State.writeRM_text (sldtEffect_ok h).2 hx
  | lmsw o rm => obtain ⟨-, src, -, rfl⟩ := lmswEffect_ok h; rfl
  | smsw o rm => exact State.writeRM_text h hx
  | lar o r rm => obtain ⟨v, rfl⟩ | rfl := larEffect_ok h <;> rfl
  | lsl o r rm => obtain ⟨v, rfl⟩ | rfl := lslEffect_ok h <;> rfl
  | arpl o r rm =>
    obtain ⟨v, u, hu, rfl⟩ | rfl := arplEffect_ok h
    · have hread : u.mem.read x = s.mem.read x := State.writeRM_text hu hx
      exact hread
    · rfl
  | verr o rm => obtain ⟨b, rfl⟩ := verrEffect_ok h; rfl
  | verw o rm => obtain ⟨b, rfl⟩ := verwEffect_ok h; rfl
  | wait o => cases h; rfl
  | esc o x y rm => cases h

/-- The bytes of a text, from its base on modulo 2^24 (log 38). -/
theorem textHolds_of_lt {p : Region} {k : Nat} (hk : k < p.size) : textHolds p ((p.base + k) % 2 ^ 24) = true := by
  rw [textHolds, decide_eq_true_iff]
  omega

theorem State.isText_of_lt {s : State} (hr : s.plat.rulings = .spec) {p : Region} (hp : s.plat.program = some p) {k : Nat}
    (hk : k < p.size) : s.isText ((p.base + k) % 2 ^ 24) = true := by
  rw [State.isText, hr, hp, Option.any_some, textHolds_of_lt hk]
  rfl

/-- Only LMSW writes the mark, and it leaves a mark that is set. -/
theorem effect_keeps_mark {i : Instr} {s t : State} (h : effect i s = .ok t) (hu : s.unflushed = true) :
    t.unflushed = true := by
  obtain hs | ⟨-, o, rm, rfl⟩ := (effect_control h).unflushed
  · rw [hs, hu]
  · obtain ⟨-, src, -, rfl⟩ := lmswEffect_ok h
    simp [hu]

/-- Settles O58: no exception answers a next state, and no effect writes the record, CS, a flag but ZF or the text, or
clears the mark. -/
theorem theSpecRulingsStopTheRun : Obligations.TheSpecRulingsStopTheRun := by
  refine fun s hr => ⟨fun e => State.raise_spec hr e, fun t h => ?_⟩
  obtain rfl | ⟨i, u, hu, rfl⟩ := step_next_spec hr h
  · exact ⟨rfl, rfl, id, fun _ _ => rfl, fun _ _ _ _ => rfl⟩
  · have hsys := effect_system hu
    have htext : ∀ p k, s.plat.program = some p → k < p.size →
        u.mem.read ((p.base + k) % 2 ^ 24) = s.mem.read ((p.base + k) % 2 ^ 24) :=
      fun p k hp hk => effect_text hu (State.isText_of_lt hr hp hk)
    have hmark : s.unflushed = true → u.unflushed = true := effect_keeps_mark hu
    have hflags : ∀ k, k ≠ 6 → u.flags.getLsbD k = s.flags.getLsbD k := fun k hk => effect_flag hu hk
    exact ⟨hsys.lastException, hsys.cs, hmark, hflags, htext⟩

end Sys2Proof.Machine
end

section
/-! PROOF. The end of a run (00_scope.md R12; logs 34, 38, 40): what a run of a number of steps answers, and a program
bound in memory. -/

namespace Sys2Proof.Machine

/-! ### Runs -/

/-- Where a run stands whose last step answered this. -/
def RunResult.ofOutcome : Result → RunResult
  | .next t => .going t
  | .fault f => .fault f
  | .refused r => .refused r

theorem RunResult.ofOutcome_inj {o o' : Result} : RunResult.ofOutcome o = .ofOutcome o' ↔ o = o' := by
  refine ⟨fun h => ?_, congrArg _⟩
  cases o <;> cases o' <;> cases h <;> rfl

theorem RunResult.ofOutcome_ne_ended (o : Result) (t : State) : RunResult.ofOutcome o ≠ .ended t := by
  cases o <;> exact RunResult.noConfusion

theorem run_of_ended {s : State} (h : s.runEnded = true) (n : Nat) : run n s = .ended s := by
  cases n with
  | zero => rw [run, if_pos h]
  | succ n => rw [run, if_pos h]

theorem run_zero_of_going {s : State} (h : s.runEnded = false) : run 0 s = .going s := by
  rw [run, h, if_neg Bool.false_ne_true]

theorem run_succ_of_next {s u : State} (h : s.runEnded = false) (hu : step s = .next u) (n : Nat) :
    run (n + 1) s = run n u := by
  rw [run, h, if_neg Bool.false_ne_true, hu]

/-- A run stops with a step that answers no next state. -/
theorem run_succ_of_stop {s : State} (h : s.runEnded = false) (hs : ∀ u, step s ≠ .next u) (n : Nat) :
    run (n + 1) s = .ofOutcome (step s) := by
  rw [run, h, if_neg Bool.false_ne_true]
  cases ho : step s with
  | next u => exact absurd ho (hs u)
  | fault f => rfl
  | refused r => rfl

theorem reaches_succ_iff {s u t : State} {k : Nat} (h : s.runEnded = false) (hu : step s = .next u) :
    Reaches (k + 1) s t ↔ Reaches k u t := by
  refine ⟨fun ⟨_, v, hv, hr⟩ => ?_, fun hr => ⟨h, u, hu, hr⟩⟩
  rw [hu] at hv
  cases hv
  exact hr

/-- Where the state is the end, or its step answers no next state, only that state is reached. -/
theorem reaches_of_stop {s t : State} {k : Nat} (h : s.runEnded = true ∨ ∀ u, step s ≠ .next u)
    (hr : Reaches k s t) : k = 0 ∧ s = t := by
  cases k with
  | zero => exact ⟨rfl, hr⟩
  | succ k =>
    obtain ⟨hgoing, u, hu, -⟩ := hr
    obtain h | h := h
    · rw [hgoing] at h; cases h
    · exact absurd hu (h u)

/-- A RUN ENDS in the first state on its way that is the end. -/
theorem run_ended_iff {n : Nat} {s t : State} :
    run n s = .ended t ↔ t.runEnded = true ∧ ∃ k, k ≤ n ∧ Reaches k s t := by
  induction n generalizing s with
  | zero =>
    cases he : s.runEnded with
    | true =>
      rw [run_of_ended he, RunResult.ended.injEq]
      exact ⟨fun h => ⟨h ▸ he, 0, le_rfl, h⟩, fun ⟨_, k, _, hr⟩ => (reaches_of_stop (.inl he) hr).2⟩
    | false =>
      rw [run_zero_of_going he]
      refine ⟨fun h => (by cases h), fun ⟨ht, k, hk, hr⟩ => ?_⟩
      obtain rfl := Nat.le_zero.1 hk
      obtain rfl : s = t := hr
      rw [he] at ht; cases ht
  | succ n ih =>
    cases he : s.runEnded with
    | true =>
      rw [run_of_ended he, RunResult.ended.injEq]
      exact ⟨fun h => ⟨h ▸ he, 0, Nat.zero_le _, h⟩, fun ⟨_, k, _, hr⟩ => (reaches_of_stop (.inl he) hr).2⟩
    | false =>
      by_cases hs : ∃ u, step s = .next u
      · obtain ⟨u, hu⟩ := hs
        rw [run_succ_of_next he hu, ih]
        refine and_congr_right fun ht => ⟨fun ⟨k, hk, hr⟩ => ?_, fun ⟨k, hk, hr⟩ => ?_⟩
        · exact ⟨k + 1, by omega, (reaches_succ_iff he hu).2 hr⟩
        · cases k with
          | zero =>
            obtain rfl : s = t := hr
            rw [he] at ht; cases ht
          | succ k => exact ⟨k, by omega, (reaches_succ_iff he hu).1 hr⟩
      · have hs' : ∀ u, step s ≠ .next u := fun u hu => hs ⟨u, hu⟩
        rw [run_succ_of_stop he hs']
        refine ⟨fun h => absurd h (RunResult.ofOutcome_ne_ended _ _), fun ⟨ht, k, _, hr⟩ => ?_⟩
        obtain ⟨-, rfl⟩ := reaches_of_stop (.inr hs') hr
        rw [he] at ht; cases ht

/-- A RUN STOPS with the first step that answers no next state. -/
theorem run_stop_iff {o : Result} (ho : ∀ t, o ≠ .next t) {n : Nat} {s : State} :
    run n s = .ofOutcome o ↔ ∃ k u, k < n ∧ Reaches k s u ∧ u.runEnded = false ∧ step u = o := by
  induction n generalizing s with
  | zero =>
    refine ⟨fun h => ?_, fun ⟨k, _, hk, _⟩ => absurd hk (Nat.not_lt_zero k)⟩
    cases he : s.runEnded with
    | true =>
      rw [run_of_ended he] at h
      exact absurd h.symm (RunResult.ofOutcome_ne_ended _ _)
    | false =>
      rw [run_zero_of_going he] at h
      exact absurd ((RunResult.ofOutcome_inj (o' := .next s)).1 h.symm) (ho s)
  | succ n ih =>
    cases he : s.runEnded with
    | true =>
      rw [run_of_ended he]
      refine ⟨fun h => absurd h.symm (RunResult.ofOutcome_ne_ended _ _), fun ⟨k, u, _, hr, hu, _⟩ => ?_⟩
      obtain ⟨-, rfl⟩ := reaches_of_stop (.inl he) hr
      rw [he] at hu; cases hu
    | false =>
      by_cases hs : ∃ u, step s = .next u
      · obtain ⟨v, hv⟩ := hs
        rw [run_succ_of_next he hv, ih]
        refine ⟨fun ⟨k, u, hk, hr, hu⟩ => ⟨k + 1, u, by omega, (reaches_succ_iff he hv).2 hr, hu⟩,
          fun ⟨k, u, hk, hr, hu⟩ => ?_⟩
        cases k with
        | zero =>
          obtain rfl : s = u := hr
          exact absurd (hu.2.symm.trans hv) (ho v)
        | succ k => exact ⟨k, u, by omega, (reaches_succ_iff he hv).1 hr, hu⟩
      · have hs' : ∀ u, step s ≠ .next u := fun u hu => hs ⟨u, hu⟩
        rw [run_succ_of_stop he hs', RunResult.ofOutcome_inj]
        refine ⟨fun h => ⟨0, s, Nat.succ_pos n, rfl, he, h⟩, fun ⟨k, u, _, hr, _, hu⟩ => ?_⟩
        obtain ⟨-, rfl⟩ := reaches_of_stop (.inr hs') hr
        exact hu

/-! ### A program bound in memory -/

/-- Binding one more byte writes it after the others. -/
theorem Memory.load_append (m : Memory) (base : Nat) (bs : List Byte) (b : Byte) :
    m.load base (bs ++ [b]) = (m.load base bs).write ((base + bs.length) % 2 ^ 24) b := by
  rw [Memory.load, Memory.load, List.length_append, List.length_singleton, List.range_succ,
    List.zip_append List.length_range, List.foldl_append]
  rfl

theorem Memory.read_load_other (m : Memory) (base : Nat) (bs : List Byte) {x : Nat}
    (h : ∀ k, k < bs.length → x ≠ (base + k) % 2 ^ 24) : (m.load base bs).read x = m.read x := by
  induction bs using List.reverseRecOn with
  | nil => rfl
  | append_singleton bs b ih =>
    rw [List.length_append, List.length_singleton] at h
    rw [Memory.load_append, Memory.read_write_other _ _ (h bs.length (Nat.lt_succ_self _))]
    exact ih fun k hk => h k (Nat.lt_succ_of_lt hk)

theorem Memory.read_load (m : Memory) (base : Nat) {bs : List Byte} (hl : bs.length ≤ 2 ^ 24) {k : Nat} {b : Byte}
    (hb : bs[k]? = some b) : (m.load base bs).read ((base + k) % 2 ^ 24) = some b := by
  induction bs using List.reverseRecOn with
  | nil => cases hb
  | append_singleton bs c ih =>
    rw [List.length_append, List.length_singleton] at hl
    rw [Memory.load_append]
    by_cases hk : k < bs.length
    · rw [List.getElem?_append_left hk] at hb
      rw [Memory.read_write_other _ _ (by omega)]
      exact ih (by omega) hb
    · have hlen : k = bs.length := by
        have hlt := (List.getElem?_eq_some_iff.1 hb).1
        rw [List.length_append, List.length_singleton] at hlt
        omega
      subst hlen
      rw [List.getElem?_concat_length, Option.some.injEq] at hb
      rw [Memory.read_write_same, hb]

theorem State.runEnded_iff (s : State) :
    s.runEnded = true ↔ ∃ p, s.plat.program = some p ∧ s.lastException = none ∧
      s.linearAddress .cs s.ip = (p.base + p.size) % s.addressSpace := by
  cases hp : s.plat.program with
  | none => simp [State.runEnded, hp]
  | some p => simp [State.runEnded, hp, and_comm]

/-- Settles O59: the end is a condition on the state, a run stops at the first state that meets it or the first step
that answers none, and a program is bound byte after byte. -/
theorem aRunEndsAfterItsProgram : Obligations.ARunEndsAfterItsProgram :=
  ⟨State.runEnded_iff, fun _ _ _ => run_ended_iff, fun _ _ f => run_stop_iff (o := .fault f) (fun _ h => by cases h),
    fun _ _ r => run_stop_iff (o := .refused r) (fun _ h => by cases h),
    fun s base bs hl => ⟨rfl, fun _ _ hb => s.mem.read_load base hl hb, fun _ hx => s.mem.read_load_other base bs hx⟩⟩

end Sys2Proof.Machine
end

section
/-! PROOF. The machine right after reset (10_state.md R58, 70_reset_and_hazards.md R221, R222). -/

namespace Sys2Proof.Machine

/-- CS:IP after reset where addresses wrap at 20 bits (R221). -/
theorem resetOn_linearAddress_source {p : Platform} (h : p.addressModel = .source20BitWrap) :
    (State.resetOn p).linearAddress .cs (State.resetOn p).ip = 0xFFFF0 := by
  rw [State.linearAddress, State.resetOn_pe, if_neg Bool.false_ne_true]
  simp [State.realAddress, State.seg, State.resetOn, h]

/-- CS:IP after reset where the hidden base counts (R221). -/
theorem resetOn_linearAddress_chip {p : Platform} (h : p.addressModel = .chipCacheBase) :
    (State.resetOn p).linearAddress .cs (State.resetOn p).ip = 0xFFFFF0 := by
  rw [State.linearAddress, State.resetOn_pe, if_neg Bool.false_ne_true]
  simp [State.realAddress, State.seg, State.resetOn, resetCsBase, h]

/-- The data segments after reset are alike. -/
theorem resetOn_seg_data (p : Platform) {g : SegName} (h : g ≠ .cs) : (State.resetOn p).seg g = resetDataSeg := by
  cases g with
  | cs => exact absurd rfl h
  | es | ss | ds => rfl

/-- Settles O1: field by field; only CS's base and the address depend on the platform. -/
theorem resetStateHasTheSpecValues : Obligations.ResetStateHasTheSpecValues := by
  intro p
  have csBit : ∀ i, (0x9B#8 : Byte).getLsbD i = true → (State.resetOn p).cs.access.getLsbD i = true := fun _ h => h
  refine ⟨rfl, rfl, rfl, State.resetOn_pe p, rfl, rfl, fun h => ?sourceBase, fun h => ?chipBase, rfl, csBit 7 rfl,
    csBit 4 rfl, csBit 3 rfl, csBit 1 rfl, resetOn_linearAddress_source, resetOn_linearAddress_chip,
    fun g hg => ?data, rfl, rfl, rfl, rfl, rfl, rfl⟩
  case sourceBase => simp [State.resetOn, resetCsBase, h]
  case chipBase => simp [State.resetOn, resetCsBase, h]
  case data =>
    rw [resetOn_seg_data p hg]
    exact ⟨rfl, rfl, rfl, rfl, rfl, rfl, rfl, rfl⟩

end Sys2Proof.Machine
end
